-- ==== Sys2Proof/Word.lean ====
section
/-! DEFINITION. The word and byte types of the command buffer (20_memory.md R40, R42). -/

namespace Sys2Proof

/-- A word of the command buffer: an unsigned 32-bit value, bit 0 least significant (R7, R40). -/
abbrev Word := BitVec 32

/-- A byte of the transport's view of the buffer (R42). The block itself sees whole words only. -/
abbrev Byte := BitVec 8

end Sys2Proof
end

