-- ==== Sys2Proof/Syntax.lean ====
section
/-! DEFINITION. The operations with their operands (10_state.md R24, R31; 30_encoding.md R80, R82), the raw request
record with the port widths of R24, and the response record (R25). -/

namespace Sys2Proof

/-! ## Operand and result records, on natural numbers (00_scope.md R8) -/

/-- The revision tag (R21): RevisionOne is 0, RevisionTwo is 1. -/
inductive Revision where
  | revisionOne
  | revisionTwo
  deriving DecidableEq, Repr, Inhabited

/-- The header fields that size a message (R60, R61). A field left out is 0 (R87). The RevisionOne and RevisionTwo
names of the four counts and of `mode` are in Machine/Revision.lean (R86). -/
structure Counts where
  countA : Nat := 0
  countB : Nat := 0
  countC : Nat := 0
  countD : Nat := 0
  numDataWords : Nat := 0
  mode : Nat := 0
  hasSpecialHeader : Bool := false
  deriving DecidableEq, Repr, Inhabited

/-- The operands of HDR.ENC and the results of HDR.DEC (R24, R25). -/
structure HdrFields extends Counts where
  type : Nat := 0
  deriving DecidableEq, Repr, Inhabited

/-- The operands of SPH.ENC and the results of SPH.DEC. -/
structure SphFields where
  sendPid : Bool := false
  numCopyHandles : Nat := 0
  numMoveHandles : Nat := 0
  deriving DecidableEq, Repr, Inhabited

/-- An in-pointer descriptor (RevisionOne: send static; R64, R88). -/
structure InPtr where
  index : Nat := 0
  address : Nat := 0
  size : Nat := 0
  deriving DecidableEq, Repr, Inhabited

/-- A map-alias descriptor (RevisionOne: buffer descriptor; R65, R88). `mmode` is its 2-bit tag (R12). -/
structure MapAlias where
  address : Nat := 0
  size : Nat := 0
  mmode : Nat := 0
  deriving DecidableEq, Repr, Inhabited

/-- An out-pointer descriptor (RevisionOne: recv-list entry; R66, R88). -/
structure OutPtr where
  address : Nat := 0
  size : Nat := 0
  deriving DecidableEq, Repr, Inhabited

/-- The message record (R31). A table is a total map from an index to an entry (R11), written as a finite list that
reads as a zero entry beyond its end. DESIGN CHOICE: log entry 13. -/
structure Message where
  hdr : HdrFields := {}
  sph : SphFields := {}
  copyHandle : List Word := []
  moveHandle : List Word := []
  inptr : List InPtr := []
  inmap : List MapAlias := []
  outmap : List MapAlias := []
  inoutmap : List MapAlias := []
  data : List Word := []
  outptr : List OutPtr := []
  deriving DecidableEq, Repr, Inhabited

/-- The offset record that LAYOUT returns (43_offset_calculator.md R146). -/
structure OffsetRecord where
  offHeader : Nat
  offSpecial : Nat
  offPid : Nat
  offCopy : Nat
  offMove : Nat
  offInptr : Nat
  offInmap : Nat
  offOutmap : Nat
  offInoutmap : Nat
  offPrepad : Nat
  offData : Nat
  offPostpad : Nat
  offOutptr : Nat
  nOutptr : Nat
  total : Nat
  deriving DecidableEq, Repr, Inhabited

/-! ## The operations -/

/-- One constructor per value of `op` (R80, R82), with the operands R24 lists for it; `rev` is the request's naming
scheme. The buffer that MSG.ENC and MSG.DEC reach is in the state. -/
inductive Instr where
  | hdrEnc (rev : Revision) (f : HdrFields)
  | sphEnc (rev : Revision) (f : SphFields)
  | inptrEnc (rev : Revision) (d : InPtr)
  | mapaEnc (rev : Revision) (d : MapAlias)
  | outptrEnc (rev : Revision) (d : OutPtr)
  | layout (rev : Revision) (c : Counts) (f : SphFields) (cap : Nat)
  | msgEnc (rev : Revision) (msg : Message) (cap : Nat)
  | unassigned7 (rev : Revision)
  | hdrDec (rev : Revision) (w1 w2 : Word)
  | sphDec (rev : Revision) (w1 : Word)
  | inptrDec (rev : Revision) (w1 w2 : Word)
  | mapaDec (rev : Revision) (w1 w2 w3 : Word)
  | outptrDec (rev : Revision) (w1 w2 : Word)
  | unassignedD (rev : Revision)
  | msgDec (rev : Revision) (cap : Nat)
  | unassignedF (rev : Revision)
  deriving DecidableEq, Repr, Inhabited

/-! ## The raw request: the named ports and their widths (R5, R24, R81)

R81: every operand is on its own named port and how the ports are carried is not specified; so there is no byte form
of a request, and the raw form is this record. DESIGN CHOICE: log entry 1. -/

structure HdrPorts where
  type : BitVec 32 := 0
  countA : BitVec 32 := 0
  countB : BitVec 32 := 0
  countC : BitVec 32 := 0
  countD : BitVec 32 := 0
  numDataWords : BitVec 32 := 0
  mode : BitVec 32 := 0
  hasSpecialHeader : Bool := false
  deriving DecidableEq, Repr, Inhabited

structure SphPorts where
  sendPid : Bool := false
  numCopyHandles : BitVec 32 := 0
  numMoveHandles : BitVec 32 := 0
  deriving DecidableEq, Repr, Inhabited

structure InPtrPorts where
  index : BitVec 32 := 0
  address : BitVec 64 := 0
  size : BitVec 32 := 0
  deriving DecidableEq, Repr, Inhabited

/-- The map-alias size is 64 bits wide, unlike the other two sizes (R24). -/
structure MapAliasPorts where
  address : BitVec 64 := 0
  size : BitVec 64 := 0
  mmode : BitVec 32 := 0
  deriving DecidableEq, Repr, Inhabited

structure OutPtrPorts where
  address : BitVec 64 := 0
  size : BitVec 32 := 0
  deriving DecidableEq, Repr, Inhabited

structure MessagePorts where
  hdr : HdrPorts := {}
  sph : SphPorts := {}
  copyHandle : List Word := []
  moveHandle : List Word := []
  inptr : List InPtrPorts := []
  inmap : List MapAliasPorts := []
  outmap : List MapAliasPorts := []
  inoutmap : List MapAliasPorts := []
  data : List Word := []
  outptr : List OutPtrPorts := []
  deriving DecidableEq, Repr, Inhabited

/-- The request record (R24): `op` and `rev` always, and the operand ports. An operation reads only the ports R24
lists for it. A port left out is 0 (R87). -/
structure Request where
  op : BitVec 4
  rev : BitVec 1 := 0
  hdr : HdrPorts := {}
  sph : SphPorts := {}
  inptr : InPtrPorts := {}
  mapa : MapAliasPorts := {}
  outptr : OutPtrPorts := {}
  w1 : Word := 0
  w2 : Word := 0
  w3 : Word := 0
  msg : MessagePorts := {}
  cap : BitVec 32 := 0
  deriving DecidableEq, Repr, Inhabited

/-! ## The response record (R25, R170) -/

/-- The error kinds (60_exceptions.md R170). -/
inductive Err where
  | fieldOverflow
  | addressOutOfRange
  | bufferTooSmall
  | malformedSpecialHeader
  | revisionMismatch
  | badRequest
  deriving DecidableEq, Repr, Inhabited

/-- The outcome of an operation (R28, R170). Its 3-bit code is `statusCode` in Machine/Flags.lean. -/
inductive Status where
  | ok
  | error (e : Err)
  deriving DecidableEq, Repr, Inhabited

/-- The results R25 lists for each operation. An unassigned `op` has none. -/
inductive Results where
  | hdrEnc (w1 w2 : Word)
  | sphEnc (w1 : Word)
  | inptrEnc (w1 w2 : Word)
  | mapaEnc (w1 w2 w3 : Word)
  | outptrEnc (w1 w2 : Word)
  | layout (r : OffsetRecord)
  | msgEnc (total : Nat)
  | hdrDec (f : HdrFields)
  | sphDec (f : SphFields)
  | inptrDec (d : InPtr)
  | mapaDec (d : MapAlias)
  | outptrDec (d : OutPtr)
  | msgDec (msg : Message) (pidRaw : Word) (total : Nat)
  deriving DecidableEq, Repr, Inhabited

/-- The response record: the status always, and results that are defined only when it is `ok` (R25). After an error
`results` is a free value (log entry 4). -/
structure Response where
  status : Status
  results : Results
  deriving DecidableEq, Repr, Inhabited

/-! ## The two readings of a header (R86): one layout, a tagged variant of names -/

structure RevisionOneCounts where
  numSendStatics : Nat
  numSendBuffers : Nat
  numRecvBuffers : Nat
  numExchBuffers : Nat
  recvStaticMode : Nat
  deriving DecidableEq, Repr

structure RevisionTwoCounts where
  numInPointers : Nat
  numInMapAliases : Nat
  numOutMapAliases : Nat
  numInoutMapAliases : Nat
  outPointerMode : Nat
  deriving DecidableEq, Repr

inductive HeaderView where
  | revisionOne (v : RevisionOneCounts)
  | revisionTwo (v : RevisionTwoCounts)
  deriving DecidableEq, Repr

/-- The header fields that have revision names (R86). -/
inductive NamedField where
  | countA
  | countB
  | countC
  | countD
  | mode
  deriving DecidableEq, Repr

end Sys2Proof
end

