-- ==== Sys2Proof/Config.lean ====
section
/-! DEFINITION. What is fixed for one instance of the block (10_state.md R21 to R23, 00_scope.md R5, R6), and the
free values: constants with no body, of which nothing can be proved. -/

namespace Sys2Proof

/-- One row of a padding table: for header mode `mode` and cursor `pos`, `words` padding words (0 to 15, R144). -/
structure PadRow where
  mode : Nat
  pos : Nat
  words : BitVec 4
  deriving DecidableEq, Repr, Inhabited

/-- The configuration of an instance. The three OPEN functions are tables, so that a configuration is plain data;
the values the spec pins are no rows of a table but stand in the lookups of Machine/Operands.lean (log entry 8).
`outCntTable` lists OUTCNT of the modes 1, 2, ..., 15 in order; a mode without an entry has 0. -/
structure Cfg where
  rev : Revision
  tolSphPad : Bool
  outCntTable : List (BitVec 4)
  prePadTable : List PadRow
  postPadTable : List PadRow
  deriving DecidableEq, Repr, Inhabited

namespace Config

/-- The reference instance REF of R6, with the given straps. Its OUTCNT table is the spec's general knowledge
(93_implementation_defined.md G1); PRESUMED, log entry 9. No statement goes through it. -/
def ref (rev : Revision) (tolSphPad : Bool) : Cfg where
  rev := rev
  tolSphPad := tolSphPad
  outCntTable := [0, 1, 1, 2, 3, 4, 5, 6, 7, 8, 9, 10, 11, 12, 13]
  prePadTable := []
  postPadTable := []

/-- FREE VALUE: what the results of an operation hold after it returned an error (R25, U2). `draw` numbers the
error. Log entry 4. -/
opaque undefinedResults (draw : Nat) : Results

/-- FREE VALUE: what word `pos` of the buffer holds after a MSG.ENC that returned an error (R51, U1), and after a
reset that cut a MSG.ENC short (R201). `draw` numbers the event. Log entry 5. -/
opaque havocWord (draw pos : Nat) : Word

end Config

end Sys2Proof
end

