-- ==== Sys2Proof/Machine/Operands.lean ====
section
/-! DEFINITION. The helpers that every operation's operands go through: slices of numbers and words, the range test,
field split and join (30_encoding.md section 2), tables read below their count (R11), and the lookups of the three
configuration functions (R143, R144). -/

namespace Sys2Proof.Machine

/-! ## Numbers and words (00_scope.md R7, R8) -/

/-- `v[hi:lo]` (R8). -/
def slice (v hi lo : Nat) : Nat := (v >>> lo) &&& (2 ^ (hi - lo + 1) - 1)

/-- `fits(v, N)` (R8). -/
def fits (v n : Nat) : Bool := decide (v < 2 ^ n)

/-- A packed word, from the number its fields were ORed to (R105, R106). -/
def toWord (v : Nat) : Word := BitVec.ofNat 32 v

/-- A 1-bit field of a word as a flag. -/
def flag (v bit : Nat) : Bool := slice v bit bit == 1

/-! ## Field split and join (R70 to R75) -/

/-- SPLIT42 (R70): `(address_low, address_mid, address_high)`. -/
def split42 (a : Nat) : Nat × Nat × Nat := (slice a 31 0, slice a 35 32, slice a 41 36)

/-- JOIN42 (R71). -/
def join42 (low mid high : Nat) : Nat := low ||| (mid <<< 32) ||| (high <<< 36)

/-- SPLIT58 (R72): `(address_low, address_mid, address_high)`. -/
def split58 (a : Nat) : Nat × Nat × Nat := (slice a 31 0, slice a 35 32, slice a 57 36)

/-- JOIN58 (R73). -/
def join58 (low mid high : Nat) : Nat := low ||| (mid <<< 32) ||| (high <<< 36)

/-- SPLIT36 (R74): `(size_low, size_high)`. -/
def split36 (s : Nat) : Nat × Nat := (slice s 31 0, slice s 35 32)

/-- JOIN36 (R74). -/
def join36 (low high : Nat) : Nat := low ||| (high <<< 32)

/-- SPLIT48 (R75): `(address_low, address_high)`. -/
def split48 (a : Nat) : Nat × Nat := (slice a 31 0, slice a 47 32)

/-- JOIN48 (R75). -/
def join48 (low high : Nat) : Nat := low ||| (high <<< 32)

/-! ## Tables (R11) -/

/-- The entries of a table below its count. Entries the list does not hold are zero (R87, log entry 13); entries at or
beyond the count are not read. -/
def entries {α : Type} [Inhabited α] (table : List α) (count : Nat) : List α := List.takeD count table default

/-! ## The configuration functions -/

/-- The number of padding words a table gives; a pair without a row has none. -/
def padLookup (mode pos : Nat) : List PadRow → Nat
  | [] => 0
  | r :: rs => if r.mode = mode ∧ r.pos = pos then r.words.toNat else padLookup mode pos rs

/-- OUTCNT (R143), with OUTCNT(0) = 0 for every instance (R5). -/
def outCnt (cfg : Cfg) : Nat → Nat
  | 0 => 0
  | m + 1 => (cfg.outCntTable.getD m 0).toNat

/-- PRE_PAD (R144), with PRE_PAD(0, 2) = 0 for every instance (R5). -/
def prePad (cfg : Cfg) (mode pos : Nat) : Nat :=
  if mode = 0 ∧ pos = 2 then 0 else padLookup mode pos cfg.prePadTable

/-- POST_PAD (R144), with POST_PAD(0, 4) = 0 for every instance (R5). -/
def postPad (cfg : Cfg) (mode pos : Nat) : Nat :=
  if mode = 0 ∧ pos = 4 then 0 else padLookup mode pos cfg.postPadTable

end Sys2Proof.Machine
end

