-- ==== Sys2Proof/Machine/Flags.lean ====
section
/-! DEFINITION. The block has no flags (10_state.md R28). What stands in their place is the status of an operation
(60_exceptions.md R170) and the tests that decide it: the revision check (R175), the range test of a field (R171,
R172) and the room check (R45, R173). -/

namespace Sys2Proof.Machine

/-- The 3-bit code of a status (R170; the numbers are the spec's decision D4). Code 7 is never returned. -/
def statusCode : Status → BitVec 3
  | .ok => 0#3
  | .error .fieldOverflow => 1#3
  | .error .addressOutOfRange => 2#3
  | .error .bufferTooSmall => 3#3
  | .error .malformedSpecialHeader => 4#3
  | .error .revisionMismatch => 5#3
  | .error .badRequest => 6#3

/-- `RevCheck()` (R175). -/
def revCheck (cfg : Cfg) (rev : Revision) : Except Err Unit :=
  if rev = cfg.rev then .ok () else .error .revisionMismatch

/-- `if not fits(v, n) then raise e` (R110 to R114). -/
def requireFits (v n : Nat) (e : Err) : Except Err Unit :=
  if fits v n then .ok () else .error e

/-- `Need(pos, n)` (R45). -/
def need (cap pos n : Nat) : Except Err Unit :=
  if pos + n > cap then .error .bufferTooSmall else .ok ()

end Sys2Proof.Machine
end

