-- ==== Sys2Proof/Machine/State.lean ====
section
/-! DEFINITION. What the block and its surroundings hold between operations (10_state.md R20 to R30), as plain data. -/

namespace Sys2Proof.Machine

/-- The command buffer (R27, R40), viewed as bytes at byte addresses: word `i` is at `4 * i` to `4 * i + 3` (R42,
log entry 10). Addresses strictly rise and no listed byte is 0, what an unlisted address reads as (log entry 11). -/
abbrev Memory := List Host.Cell

/-- Who else uses a word of an operation's buffer while the operation runs. -/
inductive Sharer where
  /-- An operation of another instance, MSG.ENC or MSG.DEC, on an overlapping buffer (R55, R186). -/
  | operation
  /-- An agent that is no operation of any instance, and only reads (R203). -/
  | reader
  /-- An agent that is no operation of any instance, and writes (R203). -/
  | writer
  deriving DecidableEq, Repr

/-- One move of the outside world. Inputs are taken one a step and so fall between operations only (R14). -/
inductive Input where
  /-- A request on the ports (R24). -/
  | request (r : Request)
  /-- A request whose buffer is used by another while the operation runs (R55, R186, R203). -/
  | sharedRequest (r : Request) (other : Sharer)
  /-- The caller, the transport or the kernel changes a word of the buffer between operations (R14, R29, R207). -/
  | bufWrite (pos : Nat) (w : Word)
  /-- Reset, with the values of the two straps (R30, R200). -/
  | reset (revStrap : Revision) (tolStrap : Bool)
  /-- Reset that cuts the operation of `r` short (R201). -/
  | resetDuring (r : Request) (revStrap : Revision) (tolStrap : Bool)
  deriving DecidableEq, Repr

/-- The only ways the machine stops with a fault. Every error of an operation is a next state, with a status. -/
inductive Fault where
  /-- Raised by an environment write to a position that is no word of any buffer (a buffer has at most 2^32 - 1
  words, R40); no operation raises it. Safe: the model stops where the spec gives no word to write. Log entry 14. -/
  | noSuchWord
  deriving DecidableEq, Repr

/-- The launches that get no meaning. -/
inductive Refusal where
  /-- Raised by `exec` for an operation that has no meaning yet. Safe. No operation is in this case. -/
  | notModelled (mnemonic : String)
  /-- Raised by the launch of MSG.ENC or MSG.DEC on a buffer that an operation of another instance uses meanwhile, of
  MSG.ENC on one that any other agent uses, and of MSG.DEC on one that any other agent writes: the result is undefined
  and a model refuses such a launch (R55, R186, R203, U4). Safe. Log entry 15. -/
  | bufferShared
  deriving DecidableEq, Repr

/-- The state of one instance and its surroundings. -/
structure State where
  /-- The configuration: straps and the three functions of the instance (R21 to R23). -/
  cfg : Cfg
  /-- The command buffer (R27). -/
  mem : Memory
  /-- The response of the last operation, if there was one since reset (R25; log entry 3). -/
  rsp : Option Response
  /-- The model's own: inputs still to come, oldest first (log entry 2). -/
  inbox : List Input
  /-- The model's own: how many draws of undefined values there have been (log entry 6). -/
  draws : Nat
  deriving DecidableEq, Repr

/-- The machine right after reset with the given straps (R30, R200), on the reference instance (log entry 9), with a
buffer nothing has written (log entry 11) and no input waiting. -/
def State.resetWith (revStrap : Revision) (tolStrap : Bool) : State where
  cfg := Config.ref revStrap tolStrap
  mem := []
  rsp := none
  inbox := []
  draws := 0

/-- Reset with both straps 0: `rev_strap` is not fixed by the spec (log entry 7), `tol_strap` has the default 0 (R22). -/
def State.reset : State := State.resetWith .revisionOne false

end Sys2Proof.Machine
end

