-- ==== Sys2Proof/Machine/Ops.lean ====
section
/-! DEFINITION. The named operations over the buffer and the response that every meaning is built from: bytes and
words of the buffer, `MemRead` and `MemWrite` (20_memory.md R46), `havoc` (R51), and the two ways an operation ends:
its response, and ONE error return (60_exceptions.md R176, R177), which is this block's taking of an exception. There
is no return from an exception (R182). -/

namespace Sys2Proof.Machine

/-! ## Bytes -/

/-- What an unlisted address reads as. DESIGN CHOICE, unsafe: log entry 11. -/
def Memory.unlisted : Byte := 0#8

/-- The byte at an address of the transport's view. -/
def Memory.readByte : Memory → Nat → Byte
  | [], _ => Memory.unlisted
  | (k, b) :: rest, a => if a = k then b else Memory.readByte rest a

/-- Writes a byte and keeps the canonical form: sorted, and no entry equal to what an unlisted address reads as. -/
def Memory.writeByte : Memory → Nat → Byte → Memory
  | [], a, b => if b = Memory.unlisted then [] else [(a, b)]
  | (k, c) :: rest, a, b =>
    if a < k then (if b = Memory.unlisted then (k, c) :: rest else (a, b) :: (k, c) :: rest)
    else if a = k then (if b = Memory.unlisted then rest else (a, b) :: rest)
    else (k, c) :: Memory.writeByte rest a b

/-- Addresses strictly rise from one above `lo`, and no listed byte reads as unlisted. -/
def Memory.wfAbove : Nat → Memory → Bool
  | _, [] => true
  | lo, (k, b) :: rest => decide (lo ≤ k) && decide (b ≠ Memory.unlisted) && Memory.wfAbove (k + 1) rest

/-- The canonical form of a memory. -/
def Memory.wf (m : Memory) : Bool := Memory.wfAbove 0 m

/-! ## Words (R42: word `i` at bytes `4 * i` to `4 * i + 3`, least significant byte first; log entry 10) -/

/-- Byte `k` of a word, byte 0 the least significant. -/
def wordByte (w : Word) (k : Nat) : Byte := w.extractLsb' (8 * k) 8

/-- `buf[i]` (R40). -/
def Memory.readWord (m : Memory) (i : Nat) : Word :=
  m.readByte (4 * i + 3) ++ m.readByte (4 * i + 2) ++ m.readByte (4 * i + 1) ++ m.readByte (4 * i)

/-- `buf[i] <- w`. -/
def Memory.writeWord (m : Memory) (i : Nat) (w : Word) : Memory :=
  (((m.writeByte (4 * i) (wordByte w 0)).writeByte (4 * i + 1) (wordByte w 1)).writeByte
    (4 * i + 2) (wordByte w 2)).writeByte (4 * i + 3) (wordByte w 3)

/-- `MemRead(pos, n)` (R46); the caller has checked the room. -/
def Memory.readWords (m : Memory) (pos : Nat) : Nat → List Word
  | 0 => []
  | n + 1 => m.readWord pos :: m.readWords (pos + 1) n

/-- `MemWrite(pos, n, ws)` (R46), `n` the length of `ws`; the caller has checked the room. -/
def Memory.writeWords (m : Memory) (pos : Nat) : List Word → Memory
  | [] => m
  | w :: ws => Memory.writeWords (m.writeWord pos w) (pos + 1) ws

/-- `havoc(buf)` (R10, R51): each of the words 0 to `cap - 1` holds a free value of its own (log entry 5). -/
def Memory.havoc (draw : Nat) (m : Memory) : Nat → Memory
  | 0 => m
  | n + 1 => (Memory.havoc draw m n).writeWord n (Config.havocWord draw n)

/-! ## How an operation ends -/

/-- The response of an operation that succeeded (R25). -/
def State.respond (s : State) (r : Results) : State := { s with rsp := some ⟨.ok, r⟩ }

/-- The buffer after the operation. -/
def State.setMem (s : State) (m : Memory) : State := { s with mem := m }

/-- The error return (R176, R177): the status is the error, every other result is undefined (log entry 4), nothing
else changes. -/
def State.errorReturn (s : State) (e : Err) : State :=
  { s with rsp := some ⟨.error e, Config.undefinedResults s.draws⟩, draws := s.draws + 1 }

/-- The error return of MSG.ENC: the whole buffer is undefined as well (R51, R176). -/
def State.encodeErrorReturn (s : State) (e : Err) (cap : Nat) : State :=
  (s.setMem (s.mem.havoc s.draws cap)).errorReturn e

/-- An operation that reaches no buffer word or only reads it: the revision check first (R105, R121, R179), then its
own outcome. -/
def finish (rev : Revision) (outcome : Except Err Results) (s : State) : Host.Outcome State Fault Refusal :=
  match (do revCheck s.cfg rev; outcome) with
  | .ok r => .next (s.respond r)
  | .error e => .next (s.errorReturn e)

end Sys2Proof.Machine
end

