-- ==== Sys2Proof/Machine/BadRequest.lean ====
section
/-! DEFINITION. The three unassigned values of `op` (30_encoding.md R82, 60_exceptions.md R174): BadRequest, tested
before the revision check, the buffer unchanged. -/

namespace Sys2Proof.Machine

/-- `op` 0x7. -/
def execUnassigned7 (_rev : Revision) (s : State) : Host.Outcome State Fault Refusal := .next (s.errorReturn .badRequest)

/-- `op` 0xD. -/
def execUnassignedD (_rev : Revision) (s : State) : Host.Outcome State Fault Refusal := .next (s.errorReturn .badRequest)

/-- `op` 0xF. -/
def execUnassignedF (_rev : Revision) (s : State) : Host.Outcome State Fault Refusal := .next (s.errorReturn .badRequest)

end Sys2Proof.Machine
end

