-- ==== Sys2Proof/Machine/BitfieldDecoder.lean ====
section
/-! DEFINITION. bitfield_decoder: the unpack functions (42_bitfield_decoder.md R130 to R134) and the five word-form
decode operations (R120, R122 to R125). -/

namespace Sys2Proof.Machine

/-! ## The unpack functions, shared with MSG.DEC -/

/-- UNPACK_HDR (R130; wire format R60, R61). Bits `w2[30:14]` are not looked at (R83). -/
def unpackHdr (w1 w2 : Word) : HdrFields where
  type := slice w1.toNat 15 0
  countA := slice w1.toNat 19 16
  countB := slice w1.toNat 23 20
  countC := slice w1.toNat 27 24
  countD := slice w1.toNat 31 28
  numDataWords := slice w2.toNat 9 0
  mode := slice w2.toNat 13 10
  hasSpecialHeader := flag w2.toNat 31

/-- UNPACK_SPH (R131; wire format R62). -/
def unpackSph (cfg : Cfg) (w : Word) : Except Err SphFields :=
  if cfg.tolSphPad = false ∧ slice w.toNat 31 9 ≠ 0 then .error .malformedSpecialHeader
  else .ok ⟨flag w.toNat 0, slice w.toNat 4 1, slice w.toNat 8 5⟩

/-- UNPACK_INPTR (R132; wire format R64). -/
def unpackInPtr (w1 w2 : Word) : InPtr where
  index := slice w1.toNat 5 0
  address := join42 w2.toNat (slice w1.toNat 15 12) (slice w1.toNat 11 6)
  size := slice w1.toNat 31 16

/-- UNPACK_MAPA (R133; wire format R65). -/
def unpackMapAlias (w1 w2 w3 : Word) : MapAlias where
  address := join58 w2.toNat (slice w3.toNat 31 28) (slice w3.toNat 23 2)
  size := join36 w1.toNat (slice w3.toNat 27 24)
  mmode := slice w3.toNat 1 0

/-- UNPACK_OUTPTR (R134; wire format R66). -/
def unpackOutPtr (w1 w2 : Word) : OutPtr where
  address := join48 w1.toNat (slice w2.toNat 15 0)
  size := slice w2.toNat 31 16

/-! ## The operations -/

/-- HDR.DEC (R120). -/
def execHdrDec (rev : Revision) (w1 w2 : Word) (s : State) : Host.Outcome State Fault Refusal :=
  finish rev (.ok (.hdrDec (unpackHdr w1 w2))) s

/-- SPH.DEC (R122). -/
def execSphDec (rev : Revision) (w1 : Word) (s : State) : Host.Outcome State Fault Refusal :=
  finish rev (do let f ← unpackSph s.cfg w1; .ok (.sphDec f)) s

/-- INPTR.DEC (R123). -/
def execInptrDec (rev : Revision) (w1 w2 : Word) (s : State) : Host.Outcome State Fault Refusal :=
  finish rev (.ok (.inptrDec (unpackInPtr w1 w2))) s

/-- MAPA.DEC (R124). -/
def execMapaDec (rev : Revision) (w1 w2 w3 : Word) (s : State) : Host.Outcome State Fault Refusal :=
  finish rev (.ok (.mapaDec (unpackMapAlias w1 w2 w3))) s

/-- OUTPTR.DEC (R125). -/
def execOutptrDec (rev : Revision) (w1 w2 : Word) (s : State) : Host.Outcome State Fault Refusal :=
  finish rev (.ok (.outptrDec (unpackOutPtr w1 w2))) s

end Sys2Proof.Machine
end

