-- ==== Sys2Proof/Machine/BitfieldEncoder.lean ====
section
/-! DEFINITION. bitfield_encoder: the pack functions (41_bitfield_encoder.md R110 to R114) and the five word-form
encode operations (R100 to R104). -/

namespace Sys2Proof.Machine

/-! ## The pack functions, shared with MSG.ENC -/

/-- PACK_HDR (R110; wire format R60, R61): `(w1, w2)`. -/
def packHdr (f : HdrFields) : Except Err (Word × Word) := do
  requireFits f.type 16 .fieldOverflow
  requireFits f.countA 4 .fieldOverflow
  requireFits f.countB 4 .fieldOverflow
  requireFits f.countC 4 .fieldOverflow
  requireFits f.countD 4 .fieldOverflow
  requireFits f.numDataWords 10 .fieldOverflow
  requireFits f.mode 4 .fieldOverflow
  let w1 := f.type ||| (f.countA <<< 16) ||| (f.countB <<< 20) ||| (f.countC <<< 24) ||| (f.countD <<< 28)
  let w2 := f.numDataWords ||| (f.mode <<< 10) ||| (f.hasSpecialHeader.toNat <<< 31)
  .ok (toWord w1, toWord w2)

/-- PACK_SPH (R111; wire format R62). -/
def packSph (f : SphFields) : Except Err Word := do
  requireFits f.numCopyHandles 4 .fieldOverflow
  requireFits f.numMoveHandles 4 .fieldOverflow
  .ok (toWord (f.sendPid.toNat ||| (f.numCopyHandles <<< 1) ||| (f.numMoveHandles <<< 5)))

/-- PACK_INPTR (R112; wire format R64): `(w1, w2)`. -/
def packInPtr (d : InPtr) : Except Err (Word × Word) := do
  requireFits d.address 42 .addressOutOfRange
  requireFits d.size 16 .fieldOverflow
  requireFits d.index 6 .fieldOverflow
  let (addressLow, addressMid, addressHigh) := split42 d.address
  let w1 := d.index ||| (addressHigh <<< 6) ||| (addressMid <<< 12) ||| (d.size <<< 16)
  .ok (toWord w1, toWord addressLow)

/-- PACK_MAPA (R113; wire format R65): `(w1, w2, w3)`. -/
def packMapAlias (d : MapAlias) : Except Err (Word × Word × Word) := do
  requireFits d.address 58 .addressOutOfRange
  requireFits d.size 36 .fieldOverflow
  requireFits d.mmode 2 .fieldOverflow
  let (addressLow, addressMid, addressHigh) := split58 d.address
  let (sizeLow, sizeHigh) := split36 d.size
  let w3 := d.mmode ||| (addressHigh <<< 2) ||| (sizeHigh <<< 24) ||| (addressMid <<< 28)
  .ok (toWord sizeLow, toWord addressLow, toWord w3)

/-- PACK_OUTPTR (R114; wire format R66): `(w1, w2)`. -/
def packOutPtr (d : OutPtr) : Except Err (Word × Word) := do
  requireFits d.address 48 .addressOutOfRange
  requireFits d.size 16 .fieldOverflow
  let (addressLow, addressHigh) := split48 d.address
  .ok (toWord addressLow, toWord (addressHigh ||| (d.size <<< 16)))

/-! ## The operations -/

/-- HDR.ENC (R100). -/
def execHdrEnc (rev : Revision) (f : HdrFields) (s : State) : Host.Outcome State Fault Refusal :=
  finish rev (do let (w1, w2) ← packHdr f; .ok (.hdrEnc w1 w2)) s

/-- SPH.ENC (R101). -/
def execSphEnc (rev : Revision) (f : SphFields) (s : State) : Host.Outcome State Fault Refusal :=
  finish rev (do let w1 ← packSph f; .ok (.sphEnc w1)) s

/-- INPTR.ENC (R102). -/
def execInptrEnc (rev : Revision) (d : InPtr) (s : State) : Host.Outcome State Fault Refusal :=
  finish rev (do let (w1, w2) ← packInPtr d; .ok (.inptrEnc w1 w2)) s

/-- MAPA.ENC (R103). -/
def execMapaEnc (rev : Revision) (d : MapAlias) (s : State) : Host.Outcome State Fault Refusal :=
  finish rev (do let (w1, w2, w3) ← packMapAlias d; .ok (.mapaEnc w1 w2 w3)) s

/-- OUTPTR.ENC (R104). -/
def execOutptrEnc (rev : Revision) (d : OutPtr) (s : State) : Host.Outcome State Fault Refusal :=
  finish rev (do let (w1, w2) ← packOutPtr d; .ok (.outptrEnc w1 w2)) s

end Sys2Proof.Machine
end

