-- ==== Sys2Proof/Machine/MessageDecoder.lean ====
section
/-! DEFINITION. MSG.DEC (43_offset_calculator.md R152): the walk that reads a whole message, count by count. -/

namespace Sys2Proof.Machine

/-! `get(n)` (R152) for the lengths the walk uses: the room check, the read, the advance of the cursor. Each getter
takes the cursor and answers what it read and the new cursor. -/

def getWord (m : Memory) (cap pos : Nat) : Except Err (Word × Nat) := do
  need cap pos 1
  .ok (m.readWord pos, pos + 1)

def getHdr (m : Memory) (cap pos : Nat) : Except Err (HdrFields × Nat) := do
  need cap pos 2
  .ok (unpackHdr (m.readWord pos) (m.readWord (pos + 1)), pos + 2)

def getInPtr (m : Memory) (cap pos : Nat) : Except Err (InPtr × Nat) := do
  need cap pos 2
  .ok (unpackInPtr (m.readWord pos) (m.readWord (pos + 1)), pos + 2)

def getMapAlias (m : Memory) (cap pos : Nat) : Except Err (MapAlias × Nat) := do
  need cap pos 3
  .ok (unpackMapAlias (m.readWord pos) (m.readWord (pos + 1)) (m.readWord (pos + 2)), pos + 3)

def getOutPtr (m : Memory) (cap pos : Nat) : Except Err (OutPtr × Nat) := do
  need cap pos 2
  .ok (unpackOutPtr (m.readWord pos) (m.readWord (pos + 1)), pos + 2)

/-- A padding section: skipped, its words not looked at (R68, R152). -/
def skip (cap pos n : Nat) : Except Err Nat := do
  need cap pos n
  .ok (pos + n)

/-- `n` elements, one after the other. -/
def getEach {α : Type} (get : Nat → Except Err (α × Nat)) : Nat → Nat → Except Err (List α × Nat)
  | 0, pos => .ok ([], pos)
  | n + 1, pos => do
    let (x, pos) ← get pos
    let (xs, pos) ← getEach get n pos
    .ok (x :: xs, pos)

/-- What section 2 yields (R152): the fields, the opaque pid word, the two handle tables. -/
structure SpecialSection where
  sph : SphFields := {}
  pidRaw : Word := 0
  copyHandle : List Word := []
  moveHandle : List Word := []
  deriving DecidableEq, Repr

/-- The pid word, if there is one; 0 otherwise (R152). -/
def getPid (m : Memory) (cap pos : Nat) (sendPid : Bool) : Except Err (Word × Nat) :=
  if sendPid then getWord m cap pos else .ok (0, pos)

/-- Section 2: no word of it is consumed when the header says there is none, and its results are 0 and empty (R31). -/
def getSpecial (cfg : Cfg) (m : Memory) (cap pos : Nat) (hasSpecialHeader : Bool) :
    Except Err (SpecialSection × Nat) :=
  if hasSpecialHeader then do
    let (w, pos) ← getWord m cap pos
    let sph ← unpackSph cfg w
    let (pidRaw, pos) ← getPid m cap pos sph.sendPid
    let (copyHandle, pos) ← getEach (getWord m cap) sph.numCopyHandles pos
    let (moveHandle, pos) ← getEach (getWord m cap) sph.numMoveHandles pos
    .ok (⟨sph, pidRaw, copyHandle, moveHandle⟩, pos)
  else .ok ({}, pos)

/-- The whole message after the revision check (R152). The decoder trusts the counts it reads (R153). -/
def decodeMessage (cfg : Cfg) (m : Memory) (cap : Nat) : Except Err Results := do
  let (hdr, pos) ← getHdr m cap 0
  let (sp, pos) ← getSpecial cfg m cap pos hdr.hasSpecialHeader
  let (inptr, pos) ← getEach (getInPtr m cap) hdr.countA pos
  let (inmap, pos) ← getEach (getMapAlias m cap) hdr.countB pos
  let (outmap, pos) ← getEach (getMapAlias m cap) hdr.countC pos
  let (inoutmap, pos) ← getEach (getMapAlias m cap) hdr.countD pos
  let pos ← skip cap pos (prePad cfg hdr.mode pos)
  let (data, pos) ← getEach (getWord m cap) hdr.numDataWords pos
  let pos ← skip cap pos (postPad cfg hdr.mode pos)
  let (outptr, pos) ← getEach (getOutPtr m cap) (outCnt cfg hdr.mode) pos
  .ok (.msgDec
    { hdr := hdr, sph := sp.sph, copyHandle := sp.copyHandle, moveHandle := sp.moveHandle, inptr := inptr,
      inmap := inmap, outmap := outmap, inoutmap := inoutmap, data := data, outptr := outptr } sp.pidRaw pos)

/-- MSG.DEC (R152). It writes no word (R54). -/
def execMsgDec (rev : Revision) (cap : Nat) (s : State) : Host.Outcome State Fault Refusal :=
  finish rev (decodeMessage s.cfg s.mem cap) s

end Sys2Proof.Machine
end

