-- ==== Sys2Proof/Machine/MessageEncoder.lean ====
section
/-! DEFINITION. MSG.ENC (43_offset_calculator.md R150): the walk that writes a whole message, section by section. -/

namespace Sys2Proof.Machine

/-- The walk's cursor (10_state.md R26) and the buffer as written so far. It exists only inside the operation. -/
structure EncWalk where
  pos : Nat
  mem : Memory
  deriving DecidableEq, Repr

/-- `put(ws)` (R150): the room check, the write, the advance of the cursor. -/
def put (cap : Nat) (ws : List Word) (w : EncWalk) : Except Err EncWalk := do
  need cap w.pos ws.length
  .ok ⟨w.pos + ws.length, w.mem.writeWords w.pos ws⟩

/-- `put(PACK(x))` for each element in order; the packing comes before the room check (R179). -/
def putEach {α : Type} (cap : Nat) (pack : α → Except Err (List Word)) : List α → EncWalk → Except Err EncWalk
  | [], w => .ok w
  | x :: xs, w => do
    let ws ← pack x
    let w ← put cap ws w
    putEach cap pack xs w

def hdrWords (f : HdrFields) : Except Err (List Word) := do
  let (w1, w2) ← packHdr f
  .ok [w1, w2]

def sphWords (f : SphFields) : Except Err (List Word) := do
  let w1 ← packSph f
  .ok [w1]

def inPtrWords (d : InPtr) : Except Err (List Word) := do
  let (w1, w2) ← packInPtr d
  .ok [w1, w2]

def mapAliasWords (d : MapAlias) : Except Err (List Word) := do
  let (w1, w2, w3) ← packMapAlias d
  .ok [w1, w2, w3]

def outPtrWords (d : OutPtr) : Except Err (List Word) := do
  let (w1, w2) ← packOutPtr d
  .ok [w1, w2]

/-- A handle, data, pid or padding word: one whole opaque word (R63, R67, R68). -/
def oneWord (w : Word) : Except Err (List Word) := .ok [w]

/-- Section 2: nothing of it is read or written when the header says there is none (R141, R150). -/
def putSpecial (cap : Nat) (msg : Message) (w : EncWalk) : Except Err EncWalk :=
  if msg.hdr.hasSpecialHeader then do
    let w ← putEach cap sphWords [msg.sph] w
    let w ← putEach cap oneWord (List.replicate msg.sph.sendPid.toNat 0) w
    let w ← putEach cap oneWord (entries msg.copyHandle msg.sph.numCopyHandles) w
    putEach cap oneWord (entries msg.moveHandle msg.sph.numMoveHandles) w
  else .ok w

/-- The whole message after the revision check (R150). Each padding length is taken before its words are written. -/
def encodeMessage (cfg : Cfg) (msg : Message) (cap : Nat) (mem : Memory) : Except Err EncWalk := do
  let w ← putEach cap hdrWords [msg.hdr] ⟨0, mem⟩
  let w ← putSpecial cap msg w
  let w ← putEach cap inPtrWords (entries msg.inptr msg.hdr.countA) w
  let w ← putEach cap mapAliasWords (entries msg.inmap msg.hdr.countB) w
  let w ← putEach cap mapAliasWords (entries msg.outmap msg.hdr.countC) w
  let w ← putEach cap mapAliasWords (entries msg.inoutmap msg.hdr.countD) w
  let w ← putEach cap oneWord (List.replicate (prePad cfg msg.hdr.mode w.pos) 0) w
  let w ← putEach cap oneWord (entries msg.data msg.hdr.numDataWords) w
  let w ← putEach cap oneWord (List.replicate (postPad cfg msg.hdr.mode w.pos) 0) w
  putEach cap outPtrWords (entries msg.outptr (outCnt cfg msg.hdr.mode)) w

/-- MSG.ENC (R150). On any error, the revision check's too, the buffer is undefined (R51, R176; log entry 12). -/
def execMsgEnc (rev : Revision) (msg : Message) (cap : Nat) (s : State) : Host.Outcome State Fault Refusal :=
  match (do revCheck s.cfg rev; encodeMessage s.cfg msg cap s.mem) with
  | .ok w => .next ((s.setMem w.mem).respond (.msgEnc w.pos))
  | .error e => .next (s.encodeErrorReturn e cap)

end Sys2Proof.Machine
end

