-- ==== Sys2Proof/Machine/OffsetCalculator.lean ====
section
/-! DEFINITION. offset_calculator, the part that touches no memory: section lengths (43_offset_calculator.md R141,
R142), the offset record (R145, R146) and the operation LAYOUT (R147). -/

namespace Sys2Proof.Machine

/-- SPH_LEN, the length of section 2 (R141). -/
def sphLen (hasSpecialHeader : Bool) (f : SphFields) : Nat :=
  if hasSpecialHeader then 1 + f.sendPid.toNat + f.numCopyHandles + f.numMoveHandles else 0

/-- The offset record (R145, R146). -/
def offsets (cfg : Cfg) (c : Counts) (f : SphFields) : OffsetRecord :=
  let h := c.hasSpecialHeader.toNat
  let p2 := 2 + sphLen c.hasSpecialHeader f
  let p3 := p2 + 2 * c.countA
  let p4 := p3 + 3 * (c.countB + c.countC + c.countD)
  let p5 := p4 + prePad cfg c.mode p4
  let p6 := p5 + c.numDataWords
  let p7 := p6 + postPad cfg c.mode p6
  { offHeader := 0
    offSpecial := 2
    offPid := 3
    offCopy := 2 + h * (1 + f.sendPid.toNat)
    offMove := 2 + h * (1 + f.sendPid.toNat) + h * f.numCopyHandles
    offInptr := p2
    offInmap := p3
    offOutmap := p3 + 3 * c.countB
    offInoutmap := p3 + 3 * c.countB + 3 * c.countC
    offPrepad := p4
    offData := p5
    offPostpad := p6
    offOutptr := p7
    nOutptr := outCnt cfg c.mode
    total := p7 + 2 * outCnt cfg c.mode }

/-- The body of LAYOUT after the revision check (R147). -/
def layoutRecord (cfg : Cfg) (c : Counts) (f : SphFields) (cap : Nat) : Except Err OffsetRecord :=
  if !fits c.countA 4 || !fits c.countB 4 || !fits c.countC 4 || !fits c.countD 4
      || !fits c.numDataWords 10 || !fits c.mode 4 then .error .fieldOverflow
  else if c.hasSpecialHeader && (!fits f.numCopyHandles 4 || !fits f.numMoveHandles 4) then .error .fieldOverflow
  else if (offsets cfg c f).total > cap then .error .bufferTooSmall
  else .ok (offsets cfg c f)

/-- LAYOUT (R147). -/
def execLayout (rev : Revision) (c : Counts) (f : SphFields) (cap : Nat) (s : State) :
    Host.Outcome State Fault Refusal :=
  finish rev (do let r ← layoutRecord s.cfg c f cap; .ok (.layout r)) s

end Sys2Proof.Machine
end

