-- ==== Sys2Proof/Machine/Dispatch.lean ====
section
/-! DEFINITION. One arm per operation (30_encoding.md R80, R82). -/

namespace Sys2Proof.Machine

def exec (i : Instr) (s : State) : Host.Outcome State Fault Refusal :=
  match i with
  | .hdrEnc rev f => Sys2Proof.Machine.execHdrEnc rev f s
  | .sphEnc rev f => Sys2Proof.Machine.execSphEnc rev f s
  | .inptrEnc rev d => Sys2Proof.Machine.execInptrEnc rev d s
  | .mapaEnc rev d => Sys2Proof.Machine.execMapaEnc rev d s
  | .outptrEnc rev d => Sys2Proof.Machine.execOutptrEnc rev d s
  | .layout rev c f cap => Sys2Proof.Machine.execLayout rev c f cap s
  | .msgEnc rev msg cap => Sys2Proof.Machine.execMsgEnc rev msg cap s
  | .unassigned7 rev => Sys2Proof.Machine.execUnassigned7 rev s
  | .hdrDec rev w1 w2 => Sys2Proof.Machine.execHdrDec rev w1 w2 s
  | .sphDec rev w1 => Sys2Proof.Machine.execSphDec rev w1 s
  | .inptrDec rev w1 w2 => Sys2Proof.Machine.execInptrDec rev w1 w2 s
  | .mapaDec rev w1 w2 w3 => Sys2Proof.Machine.execMapaDec rev w1 w2 w3 s
  | .outptrDec rev w1 w2 => Sys2Proof.Machine.execOutptrDec rev w1 w2 s
  | .unassignedD rev => Sys2Proof.Machine.execUnassignedD rev s
  | .msgDec rev cap => Sys2Proof.Machine.execMsgDec rev cap s
  | .unassignedF rev => Sys2Proof.Machine.execUnassignedF rev s

end Sys2Proof.Machine
end

