-- ==== Sys2Proof/WellFormed.lean ====
section
/-! DEFINITION. A request is well-formed when every scalar operand can be presented on its port (00_scope.md R5,
10_state.md R24). Whether it fits the FIELD it feeds is no matter of form: the operation itself answers that. -/

namespace Sys2Proof

/-- The operand fits a scalar port. -/
def onPort32 (v : Nat) : Bool := decide (v < 2 ^ 32)

/-- The operand fits an address port or the map-alias size port. -/
def onPort64 (v : Nat) : Bool := decide (v < 2 ^ 64)

def Counts.wellFormed (c : Counts) : Bool :=
  onPort32 c.countA && onPort32 c.countB && onPort32 c.countC && onPort32 c.countD
    && onPort32 c.numDataWords && onPort32 c.mode

def HdrFields.wellFormed (f : HdrFields) : Bool := onPort32 f.type && f.toCounts.wellFormed

def SphFields.wellFormed (f : SphFields) : Bool := onPort32 f.numCopyHandles && onPort32 f.numMoveHandles

def InPtr.wellFormed (d : InPtr) : Bool := onPort32 d.index && onPort64 d.address && onPort32 d.size

def MapAlias.wellFormed (d : MapAlias) : Bool := onPort64 d.address && onPort64 d.size && onPort32 d.mmode

def OutPtr.wellFormed (d : OutPtr) : Bool := onPort64 d.address && onPort32 d.size

def Message.wellFormed (m : Message) : Bool :=
  m.hdr.wellFormed && m.sph.wellFormed && m.inptr.all InPtr.wellFormed && m.inmap.all MapAlias.wellFormed
    && m.outmap.all MapAlias.wellFormed && m.inoutmap.all MapAlias.wellFormed && m.outptr.all OutPtr.wellFormed

def Instr.wellFormed : Instr → Bool
  | .hdrEnc _ f => f.wellFormed
  | .sphEnc _ f => f.wellFormed
  | .inptrEnc _ d => d.wellFormed
  | .mapaEnc _ d => d.wellFormed
  | .outptrEnc _ d => d.wellFormed
  | .layout _ c f cap => c.wellFormed && f.wellFormed && onPort32 cap
  | .msgEnc _ msg cap => msg.wellFormed && onPort32 cap
  | .unassigned7 _ => true
  | .hdrDec _ _ _ => true
  | .sphDec _ _ => true
  | .inptrDec _ _ _ => true
  | .mapaDec _ _ _ _ => true
  | .outptrDec _ _ _ => true
  | .unassignedD _ => true
  | .msgDec _ cap => onPort32 cap
  | .unassignedF _ => true

end Sys2Proof
end

