-- ==== Sys2Proof/Decode.lean ====
section
/-! DEFINITION. From a request on the ports to an operation with its operands (30_encoding.md R80 to R82), the
encoder that puts an operation on the ports, and the reading of one row of the opcode table.

Every value of `op` has a meaning of its own, so nothing is rejected here: the three unassigned values decode to
constructors of their own, whose meaning is BadRequest (R82). -/

namespace Sys2Proof

/-! ## Ports and operands -/

def Revision.ofBit (b : BitVec 1) : Revision := if b = 0#1 then .revisionOne else .revisionTwo

def Revision.bit : Revision → BitVec 1
  | .revisionOne => 0#1
  | .revisionTwo => 1#1

def HdrPorts.counts (p : HdrPorts) : Counts where
  countA := p.countA.toNat
  countB := p.countB.toNat
  countC := p.countC.toNat
  countD := p.countD.toNat
  numDataWords := p.numDataWords.toNat
  mode := p.mode.toNat
  hasSpecialHeader := p.hasSpecialHeader

def HdrPorts.fields (p : HdrPorts) : HdrFields := { toCounts := p.counts, type := p.type.toNat }

def SphPorts.fields (p : SphPorts) : SphFields :=
  ⟨p.sendPid, p.numCopyHandles.toNat, p.numMoveHandles.toNat⟩

def InPtrPorts.fields (p : InPtrPorts) : InPtr := ⟨p.index.toNat, p.address.toNat, p.size.toNat⟩

def MapAliasPorts.fields (p : MapAliasPorts) : MapAlias := ⟨p.address.toNat, p.size.toNat, p.mmode.toNat⟩

def OutPtrPorts.fields (p : OutPtrPorts) : OutPtr := ⟨p.address.toNat, p.size.toNat⟩

def MessagePorts.fields (p : MessagePorts) : Message where
  hdr := p.hdr.fields
  sph := p.sph.fields
  copyHandle := p.copyHandle
  moveHandle := p.moveHandle
  inptr := p.inptr.map InPtrPorts.fields
  inmap := p.inmap.map MapAliasPorts.fields
  outmap := p.outmap.map MapAliasPorts.fields
  inoutmap := p.inoutmap.map MapAliasPorts.fields
  data := p.data
  outptr := p.outptr.map OutPtrPorts.fields

def Counts.ports (c : Counts) : HdrPorts where
  countA := .ofNat 32 c.countA
  countB := .ofNat 32 c.countB
  countC := .ofNat 32 c.countC
  countD := .ofNat 32 c.countD
  numDataWords := .ofNat 32 c.numDataWords
  mode := .ofNat 32 c.mode
  hasSpecialHeader := c.hasSpecialHeader

def HdrFields.ports (f : HdrFields) : HdrPorts := { f.toCounts.ports with type := .ofNat 32 f.type }

def SphFields.ports (f : SphFields) : SphPorts :=
  ⟨f.sendPid, .ofNat 32 f.numCopyHandles, .ofNat 32 f.numMoveHandles⟩

def InPtr.ports (d : InPtr) : InPtrPorts := ⟨.ofNat 32 d.index, .ofNat 64 d.address, .ofNat 32 d.size⟩

def MapAlias.ports (d : MapAlias) : MapAliasPorts := ⟨.ofNat 64 d.address, .ofNat 64 d.size, .ofNat 32 d.mmode⟩

def OutPtr.ports (d : OutPtr) : OutPtrPorts := ⟨.ofNat 64 d.address, .ofNat 32 d.size⟩

def Message.ports (m : Message) : MessagePorts where
  hdr := m.hdr.ports
  sph := m.sph.ports
  copyHandle := m.copyHandle
  moveHandle := m.moveHandle
  inptr := m.inptr.map InPtr.ports
  inmap := m.inmap.map MapAlias.ports
  outmap := m.outmap.map MapAlias.ports
  inoutmap := m.inoutmap.map MapAlias.ports
  data := m.data
  outptr := m.outptr.map OutPtr.ports

/-! ## Decode -/

/-- The operation that a request selects by `op` (R80, R82), with the operands R24 lists for it. -/
def decode (r : Request) : Instr :=
  if r.op = 0x0#4 then .hdrEnc (.ofBit r.rev) r.hdr.fields
  else if r.op = 0x1#4 then .sphEnc (.ofBit r.rev) r.sph.fields
  else if r.op = 0x2#4 then .inptrEnc (.ofBit r.rev) r.inptr.fields
  else if r.op = 0x3#4 then .mapaEnc (.ofBit r.rev) r.mapa.fields
  else if r.op = 0x4#4 then .outptrEnc (.ofBit r.rev) r.outptr.fields
  else if r.op = 0x5#4 then .layout (.ofBit r.rev) r.hdr.counts r.sph.fields r.cap.toNat
  else if r.op = 0x6#4 then .msgEnc (.ofBit r.rev) r.msg.fields r.cap.toNat
  else if r.op = 0x7#4 then .unassigned7 (.ofBit r.rev)
  else if r.op = 0x8#4 then .hdrDec (.ofBit r.rev) r.w1 r.w2
  else if r.op = 0x9#4 then .sphDec (.ofBit r.rev) r.w1
  else if r.op = 0xA#4 then .inptrDec (.ofBit r.rev) r.w1 r.w2
  else if r.op = 0xB#4 then .mapaDec (.ofBit r.rev) r.w1 r.w2 r.w3
  else if r.op = 0xC#4 then .outptrDec (.ofBit r.rev) r.w1 r.w2
  else if r.op = 0xD#4 then .unassignedD (.ofBit r.rev)
  else if r.op = 0xE#4 then .msgDec (.ofBit r.rev) r.cap.toNat
  else .unassignedF (.ofBit r.rev)

/-! ## Encode -/

/-- The `op` of an operation (R80, R82; opcode_table.json). -/
def Instr.opcode : Instr → BitVec 4
  | .hdrEnc _ _ => 0x0#4
  | .sphEnc _ _ => 0x1#4
  | .inptrEnc _ _ => 0x2#4
  | .mapaEnc _ _ => 0x3#4
  | .outptrEnc _ _ => 0x4#4
  | .layout _ _ _ _ => 0x5#4
  | .msgEnc _ _ _ => 0x6#4
  | .unassigned7 _ => 0x7#4
  | .hdrDec _ _ _ => 0x8#4
  | .sphDec _ _ => 0x9#4
  | .inptrDec _ _ _ => 0xA#4
  | .mapaDec _ _ _ _ => 0xB#4
  | .outptrDec _ _ _ => 0xC#4
  | .unassignedD _ => 0xD#4
  | .msgDec _ _ => 0xE#4
  | .unassignedF _ => 0xF#4

/-- The naming scheme an operation's request carries (R24). -/
def Instr.rev : Instr → Revision
  | .hdrEnc r _ => r
  | .sphEnc r _ => r
  | .inptrEnc r _ => r
  | .mapaEnc r _ => r
  | .outptrEnc r _ => r
  | .layout r _ _ _ => r
  | .msgEnc r _ _ => r
  | .unassigned7 r => r
  | .hdrDec r _ _ => r
  | .sphDec r _ => r
  | .inptrDec r _ _ => r
  | .mapaDec r _ _ _ => r
  | .outptrDec r _ _ => r
  | .unassignedD r => r
  | .msgDec r _ => r
  | .unassignedF r => r

/-- The mnemonic R87 writes an operation with. -/
def Instr.mnemonic : Instr → String
  | .hdrEnc _ _ => "HDR.ENC"
  | .sphEnc _ _ => "SPH.ENC"
  | .inptrEnc _ _ => "INPTR.ENC"
  | .mapaEnc _ _ => "MAPA.ENC"
  | .outptrEnc _ _ => "OUTPTR.ENC"
  | .layout _ _ _ _ => "LAYOUT"
  | .msgEnc _ _ _ => "MSG.ENC"
  | .unassigned7 _ => "UNASSIGNED_0x7"
  | .hdrDec _ _ _ => "HDR.DEC"
  | .sphDec _ _ => "SPH.DEC"
  | .inptrDec _ _ _ => "INPTR.DEC"
  | .mapaDec _ _ _ _ => "MAPA.DEC"
  | .outptrDec _ _ _ => "OUTPTR.DEC"
  | .unassignedD _ => "UNASSIGNED_0xD"
  | .msgDec _ _ => "MSG.DEC"
  | .unassignedF _ => "UNASSIGNED_0xF"

/-- A request with every operand left out, that is, 0 (R87). -/
def Request.blank (op : BitVec 4) (rev : Revision) : Request := { op := op, rev := rev.bit }

/-- The revision of a request written with or without a suffix `@R1`, `@R2` (R87): left out, it is the instance's. -/
def Request.revSuffix (cfg : Cfg) (suffix : Option Revision) : Revision := suffix.getD cfg.rev

/-- The request that presents an operation: its operands on their ports, every other port 0. -/
def encode (i : Instr) : Request :=
  let r := Request.blank i.opcode i.rev
  match i with
  | .hdrEnc _ f => { r with hdr := f.ports }
  | .sphEnc _ f => { r with sph := f.ports }
  | .inptrEnc _ d => { r with inptr := d.ports }
  | .mapaEnc _ d => { r with mapa := d.ports }
  | .outptrEnc _ d => { r with outptr := d.ports }
  | .layout _ c f cap => { r with hdr := c.ports, sph := f.ports, cap := .ofNat 32 cap }
  | .msgEnc _ msg cap => { r with msg := msg.ports, cap := .ofNat 32 cap }
  | .unassigned7 _ => r
  | .hdrDec _ w1 w2 => { r with w1 := w1, w2 := w2 }
  | .sphDec _ w1 => { r with w1 := w1 }
  | .inptrDec _ w1 w2 => { r with w1 := w1, w2 := w2 }
  | .mapaDec _ w1 w2 w3 => { r with w1 := w1, w2 := w2, w3 := w3 }
  | .outptrDec _ w1 w2 => { r with w1 := w1, w2 := w2 }
  | .unassignedD _ => r
  | .msgDec _ cap => { r with cap := .ofNat 32 cap }
  | .unassignedF _ => r

/-! ## One row of the opcode table -/

/-- The request that the bits of an opcode-table row stand for: the table gives a row the four bits of `op` and
nothing else, so every other port (`rev` too) is 0. Bits above the four drive no port. Log entries 1 and 18. -/
def requestOfTableWord (w : Nat) : Request := { op := BitVec.ofNat 4 w }

def decodeTableWord (nbits w : Nat) : Option Instr :=
  if nbits < 4 then none else some (decode (requestOfTableWord w))

end Sys2Proof
end

