-- ==== Sys2Proof/Machine/Environment.lean ====
section
/-! DEFINITION. What the outside world does between operations: its writes to the buffer, reset, and the launch of an
operation on a buffer that another agent uses. -/

namespace Sys2Proof.Machine

/-- The first input is taken. -/
def State.withInbox (s : State) (inbox : List Input) : State := { s with inbox := inbox }

/-- A position is a word of some buffer: a buffer has at most 2^32 - 1 words (R40). -/
def isWordPos (pos : Nat) : Bool := decide (pos < 2 ^ 32 - 1)

/-- The environment's free move on the buffer (R14, R29), such as the kernel's overwriting of the pid word (R207). -/
def environmentWrite (pos : Nat) (w : Word) (s : State) : Host.Outcome State Fault Refusal :=
  if isWordPos pos then .next (s.setMem (s.mem.writeWord pos w)) else .fault .noSuchWord

/-- Reset (R30, R200): the straps are sampled, no response exists, the three configuration functions and the buffer
stay. -/
def State.applyReset (s : State) (rev : Revision) (tol : Bool) : State :=
  { s with cfg := { s.cfg with rev := rev, tolSphPad := tol }, rsp := none }

/-- Reset that cuts an operation short (R201): after a MSG.ENC the buffer is undefined; no response is given. -/
def resetCuttingShort (i : Instr) (rev : Revision) (tol : Bool) (s : State) : State :=
  match i with
  | .msgEnc _ _ cap =>
    { (s.setMem (s.mem.havoc s.draws cap)).applyReset rev tol with draws := s.draws + 1 }
  | _ => s.applyReset rev tol

/-- Whether the use of an operation's buffer by another leaves the operation without a defined result. Two operations
on overlapping buffers at once never have one, two MSG.DEC neither (R55, R186, U4). Any other agent must neither read
nor write during MSG.ENC, and not write during MSG.DEC (R203). The other operations reach no buffer (R48). -/
def sharingForbidden (i : Instr) (other : Sharer) : Bool :=
  match i, other with
  | .msgEnc _ _ _, _ => true
  | .msgDec _ _, .operation => true
  | .msgDec _ _, .writer => true
  | .msgDec _ _, .reader => false
  | _, _ => false

end Sys2Proof.Machine
end

