-- ==== Sys2Proof/Machine/Step.lean ====
section
/-! DEFINITION. One step: the first waiting input is taken and answered (00_scope.md R14). -/

namespace Sys2Proof.Machine

/-- A step takes one input. A request is decoded and run to its response as one indivisible operation. With no input
waiting the block is idle and nothing changes (R30; log entry 2). -/
def step (s : State) : Host.Outcome State Fault Refusal :=
  match s.inbox with
  | [] => .next s
  | .request r :: rest => exec (decode r) (s.withInbox rest)
  | .sharedRequest r other :: rest =>
    if sharingForbidden (decode r) other then .refused .bufferShared else exec (decode r) (s.withInbox rest)
  | .bufWrite pos w :: rest => environmentWrite pos w (s.withInbox rest)
  | .reset rev tol :: rest => .next ((s.withInbox rest).applyReset rev tol)
  | .resetDuring r rev tol :: rest => .next (resetCuttingShort (decode r) rev tol (s.withInbox rest))

/-- The request of an opcode-table word is presented as the next input (log entry 18). -/
def State.withFetchWord (s : State) (nbits w : Nat) : State :=
  if nbits < 4 then s else s.withInbox (.request (requestOfTableWord w) :: s.inbox)

end Sys2Proof.Machine
end

