-- ==== Sys2Proof/Machine/Pseudo.lean ====
section
/-! DEFINITION. The two shorthands of 30_encoding.md R89: ROUNDTRIP.<unit> and MSG.RT. -/

namespace Sys2Proof.Machine

/-- The decode request that ROUNDTRIP and MSG.RT make from the response of an encode: on the words it returned, or on
the same buffer. -/
def decodeOf (i : Instr) (r : Response) : Option Instr :=
  match r.status, r.results, i with
  | .ok, .hdrEnc w1 w2, .hdrEnc rev _ => some (.hdrDec rev w1 w2)
  | .ok, .sphEnc w1, .sphEnc rev _ => some (.sphDec rev w1)
  | .ok, .inptrEnc w1 w2, .inptrEnc rev _ => some (.inptrDec rev w1 w2)
  | .ok, .mapaEnc w1 w2 w3, .mapaEnc rev _ => some (.mapaDec rev w1 w2 w3)
  | .ok, .outptrEnc w1 w2, .outptrEnc rev _ => some (.outptrDec rev w1 w2)
  | .ok, .msgEnc _, .msgEnc rev _ cap => some (.msgDec rev cap)
  | _, _, _ => none

/-- An encode followed by the decode of what it returned; the encode alone where it returned an error (R89). -/
def roundTrip (i : Instr) (s : State) : Host.Outcome State Fault Refusal :=
  match exec i s with
  | .next t =>
    match t.rsp.bind (decodeOf i) with
    | some j => exec j t
    | none => .next t
  | .fault r => .fault r
  | .refused r => .refused r

end Sys2Proof.Machine
end

