-- ==== Sys2Proof/Machine/Revision.lean ====
section
/-! DEFINITION. The revision names of the header fields (30_encoding.md R86): one header layout and a revision-tagged
reading of it. No operation uses these: a name changes no bit. -/

namespace Sys2Proof.Machine

/-- The reading of a header's counts under a revision's names. -/
def headerView (rev : Revision) (c : Counts) : HeaderView :=
  match rev with
  | .revisionOne => .revisionOne ⟨c.countA, c.countB, c.countC, c.countD, c.mode⟩
  | .revisionTwo => .revisionTwo ⟨c.countA, c.countB, c.countC, c.countD, c.mode⟩

/-- The header fields that a caller states under a revision's names; the fields with one name only are given apart. -/
def HeaderView.fields (v : HeaderView) (type numDataWords : Nat) (hasSpecialHeader : Bool) : HdrFields :=
  match v with
  | .revisionOne v =>
    { type := type, countA := v.numSendStatics, countB := v.numSendBuffers, countC := v.numRecvBuffers,
      countD := v.numExchBuffers, numDataWords := numDataWords, mode := v.recvStaticMode,
      hasSpecialHeader := hasSpecialHeader }
  | .revisionTwo v =>
    { type := type, countA := v.numInPointers, countB := v.numInMapAliases, countC := v.numOutMapAliases,
      countD := v.numInoutMapAliases, numDataWords := numDataWords, mode := v.outPointerMode,
      hasSpecialHeader := hasSpecialHeader }

/-- The same request made under the names of a revision (R24, R155). -/
def withRev (rev : Revision) : Instr → Instr
  | .hdrEnc _ f => .hdrEnc rev f
  | .sphEnc _ f => .sphEnc rev f
  | .inptrEnc _ d => .inptrEnc rev d
  | .mapaEnc _ d => .mapaEnc rev d
  | .outptrEnc _ d => .outptrEnc rev d
  | .layout _ c f cap => .layout rev c f cap
  | .msgEnc _ msg cap => .msgEnc rev msg cap
  | .unassigned7 _ => .unassigned7 rev
  | .hdrDec _ w1 w2 => .hdrDec rev w1 w2
  | .sphDec _ w1 => .sphDec rev w1
  | .inptrDec _ w1 w2 => .inptrDec rev w1 w2
  | .mapaDec _ w1 w2 w3 => .mapaDec rev w1 w2 w3
  | .outptrDec _ w1 w2 => .outptrDec rev w1 w2
  | .unassignedD _ => .unassignedD rev
  | .msgDec _ cap => .msgDec rev cap
  | .unassignedF _ => .unassignedF rev

/-- The name of a field in the table of R86. -/
def fieldName : Revision → NamedField → String
  | .revisionOne, .countA => "num_send_statics"
  | .revisionOne, .countB => "num_send_buffers"
  | .revisionOne, .countC => "num_recv_buffers"
  | .revisionOne, .countD => "num_exch_buffers"
  | .revisionOne, .mode => "recv_static_mode"
  | .revisionTwo, .countA => "num_in_pointers"
  | .revisionTwo, .countB => "num_in_map_aliases"
  | .revisionTwo, .countC => "num_out_map_aliases"
  | .revisionTwo, .countD => "num_inout_map_aliases"
  | .revisionTwo, .mode => "out_pointer_mode"

end Sys2Proof.Machine
end

