-- ==== Sys2Proof/Safety.lean ====
section
/-! DEFINITION. The terms the claims use: which operands fit their fields, how an operation ends, and what every state
that a run reaches keeps. -/

namespace Sys2Proof

/-! ## Operands that fit the fields they feed (60_exceptions.md R171, R172) -/

abbrev Counts.Fits (c : Counts) : Prop :=
  c.countA < 16 ∧ c.countB < 16 ∧ c.countC < 16 ∧ c.countD < 16 ∧ c.numDataWords < 1024 ∧ c.mode < 16

abbrev HdrFields.Fits (f : HdrFields) : Prop := f.type < 2 ^ 16 ∧ f.toCounts.Fits

abbrev SphFields.Fits (f : SphFields) : Prop := f.numCopyHandles < 16 ∧ f.numMoveHandles < 16

abbrev InPtr.Fits (d : InPtr) : Prop := d.address < 2 ^ 42 ∧ d.size < 2 ^ 16 ∧ d.index < 64

abbrev MapAlias.Fits (d : MapAlias) : Prop := d.address < 2 ^ 58 ∧ d.size < 2 ^ 36 ∧ d.mmode < 4

abbrev OutPtr.Fits (d : OutPtr) : Prop := d.address < 2 ^ 48 ∧ d.size < 2 ^ 16

end Sys2Proof

namespace Sys2Proof.Machine

/-- Every part of a message that MSG.ENC reads fits its field: the parts of an absent special header and the table
entries at or beyond their count are not read (R11, R150). -/
abbrev MessageFits (cfg : Cfg) (m : Message) : Prop :=
  m.hdr.Fits ∧ (m.hdr.hasSpecialHeader = true → m.sph.Fits)
    ∧ (∀ d ∈ entries m.inptr m.hdr.countA, d.Fits)
    ∧ (∀ d ∈ entries m.inmap m.hdr.countB, d.Fits)
    ∧ (∀ d ∈ entries m.outmap m.hdr.countC, d.Fits)
    ∧ (∀ d ∈ entries m.inoutmap m.hdr.countD, d.Fits)
    ∧ (∀ d ∈ entries m.outptr (outCnt cfg m.hdr.mode), d.Fits)

/-- The offset record of a message (R146). -/
def messageOffsets (cfg : Cfg) (m : Message) : OffsetRecord := offsets cfg m.hdr.toCounts m.sph

/-- The part of a message record that a message carries: what MSG.ENC reads of it and MSG.DEC returns (R31, R154). -/
def carried (cfg : Cfg) (m : Message) : Message where
  hdr := m.hdr
  sph := if m.hdr.hasSpecialHeader then m.sph else {}
  copyHandle := if m.hdr.hasSpecialHeader then entries m.copyHandle m.sph.numCopyHandles else []
  moveHandle := if m.hdr.hasSpecialHeader then entries m.moveHandle m.sph.numMoveHandles else []
  inptr := entries m.inptr m.hdr.countA
  inmap := entries m.inmap m.hdr.countB
  outmap := entries m.outmap m.hdr.countC
  inoutmap := entries m.inoutmap m.hdr.countD
  data := entries m.data m.hdr.numDataWords
  outptr := entries m.outptr (outCnt cfg m.hdr.mode)

/-! ## The elements of a message, in the order MSG.ENC takes them (60_exceptions.md R179) -/

/-- One element: the error of its validation, if it does not fit its fields, and its length in words. -/
structure Element where
  misfit : Option Err
  words : Nat
  deriving DecidableEq, Repr

def hdrElement (f : HdrFields) : Element := ⟨if f.Fits then none else some .fieldOverflow, 2⟩

def sphElement (f : SphFields) : Element := ⟨if f.Fits then none else some .fieldOverflow, 1⟩

/-- The address comes before the size and the index (R179). -/
def inPtrElement (d : InPtr) : Element :=
  ⟨if 2 ^ 42 ≤ d.address then some .addressOutOfRange else if d.Fits then none else some .fieldOverflow, 2⟩

def mapAliasElement (d : MapAlias) : Element :=
  ⟨if 2 ^ 58 ≤ d.address then some .addressOutOfRange else if d.Fits then none else some .fieldOverflow, 3⟩

def outPtrElement (d : OutPtr) : Element :=
  ⟨if 2 ^ 48 ≤ d.address then some .addressOutOfRange else if d.Fits then none else some .fieldOverflow, 2⟩

/-- Handle, data, pid and padding words: every value fits. -/
def wordElements (n : Nat) : List Element := List.replicate n ⟨none, 1⟩

def specialElements (m : Message) : List Element :=
  if m.hdr.hasSpecialHeader then
    [sphElement m.sph] ++ wordElements m.sph.sendPid.toNat ++ wordElements m.sph.numCopyHandles
      ++ wordElements m.sph.numMoveHandles
  else []

/-- The elements in section order, the padding lengths taken at the offsets of the offset record (R140, R150). -/
def messageElements (cfg : Cfg) (m : Message) : List Element :=
  [hdrElement m.hdr] ++ specialElements m
    ++ (entries m.inptr m.hdr.countA).map inPtrElement
    ++ (entries m.inmap m.hdr.countB).map mapAliasElement
    ++ (entries m.outmap m.hdr.countC).map mapAliasElement
    ++ (entries m.inoutmap m.hdr.countD).map mapAliasElement
    ++ wordElements (prePad cfg m.hdr.mode (messageOffsets cfg m).offPrepad)
    ++ wordElements m.hdr.numDataWords
    ++ wordElements (postPad cfg m.hdr.mode (messageOffsets cfg m).offPostpad)
    ++ (entries m.outptr (outCnt cfg m.hdr.mode)).map outPtrElement

/-- The first error met from position `pos` on: an element's validation comes before its room check, and no element
after the first error is looked at (R179). -/
def firstError (cap : Nat) : Nat → List Element → Option Err
  | _, [] => none
  | pos, x :: xs =>
    match x.misfit with
    | some e => some e
    | none => if pos + x.words ≤ cap then firstError cap (pos + x.words) xs else some .bufferTooSmall

/-! ## How an operation ends -/

/-- The status of the response a state holds. -/
def State.status (s : State) : Option Status := s.rsp.map Response.status

/-- The operation ends in an error return that leaves the buffer and everything but the response as it was (R177). -/
def EndsInError (i : Instr) (e : Err) (s : State) : Prop :=
  ∃ t, exec i s = .next t ∧ t.status = some (.error e) ∧ t.cfg = s.cfg ∧ t.mem = s.mem ∧ t.inbox = s.inbox

/-- MSG.ENC ends in an error return: nothing but the response and the words below `cap` may change (R51, R176). -/
def EncodeEndsInError (rev : Revision) (m : Message) (cap : Nat) (e : Err) (s : State) : Prop :=
  ∃ t, exec (.msgEnc rev m cap) s = .next t ∧ t.status = some (.error e) ∧ t.cfg = s.cfg ∧ t.inbox = s.inbox
    ∧ ∀ a, 4 * cap ≤ a → t.mem.readByte a = s.mem.readByte a

/-- An operation that a request can select: not one of the three unassigned values of `op` (R80). -/
def Assigned : Instr → Bool
  | .unassigned7 _ => false
  | .unassignedD _ => false
  | .unassignedF _ => false
  | _ => true

def isMsgEnc : Instr → Bool
  | .msgEnc _ _ _ => true
  | _ => false

/-- The errors that the opcode table lists for an operation (R170). -/
def mayRaise : Instr → List Err
  | .hdrEnc _ _ => [.revisionMismatch, .fieldOverflow]
  | .sphEnc _ _ => [.revisionMismatch, .fieldOverflow]
  | .inptrEnc _ _ => [.revisionMismatch, .addressOutOfRange, .fieldOverflow]
  | .mapaEnc _ _ => [.revisionMismatch, .addressOutOfRange, .fieldOverflow]
  | .outptrEnc _ _ => [.revisionMismatch, .addressOutOfRange, .fieldOverflow]
  | .layout _ _ _ _ => [.revisionMismatch, .fieldOverflow, .bufferTooSmall]
  | .msgEnc _ _ _ => [.revisionMismatch, .fieldOverflow, .addressOutOfRange, .bufferTooSmall]
  | .hdrDec _ _ _ => [.revisionMismatch]
  | .sphDec _ _ => [.revisionMismatch, .malformedSpecialHeader]
  | .inptrDec _ _ _ => [.revisionMismatch]
  | .mapaDec _ _ _ _ => [.revisionMismatch]
  | .outptrDec _ _ _ => [.revisionMismatch]
  | .msgDec _ _ => [.revisionMismatch, .bufferTooSmall, .malformedSpecialHeader]
  | .unassigned7 _ => [.badRequest]
  | .unassignedD _ => [.badRequest]
  | .unassignedF _ => [.badRequest]

/-- The instance of `s` with another revision strap. -/
def State.withRevStrap (s : State) (rev : Revision) : State := { s with cfg := { s.cfg with rev := rev } }

/-- Two configurations have the same three functions and may differ in their straps (R206). -/
def SameFunctions (c d : Cfg) : Prop :=
  c.outCntTable = d.outCntTable ∧ c.prePadTable = d.prePadTable ∧ c.postPadTable = d.postPadTable

/-! ## What every reached state keeps -/

/-- The byte addresses of the words a buffer can have (R40, R42). -/
def addressLimit : Nat := 4 * (2 ^ 32 - 1)

/-- Every listed address is a byte of a word that a buffer can have. -/
def Memory.inSpace (m : Memory) : Bool := m.all (fun c => decide (c.1 < addressLimit))

/-- The invariant of every reached state: the buffer is in canonical form and lies in its address space. -/
abbrev State.Inv (s : State) : Prop := s.mem.wf = true ∧ s.mem.inSpace = true

/-- A safe run never stops: the next step answers a next state. -/
def SafeStep (s : State) : Prop := ∃ t, step s = .next t

end Sys2Proof.Machine
end

