-- ==== Sys2Proof/Certificates/Slice0/Obligations.lean ====
section
/-! DEFINITION. What is claimed of the block. Each docstring names the rule or section of spec/ it formalises; where a
clause rests on a decision of the spec (92_eei_decisions.md D<n>) or of the model (log entry <n>), it says so. -/

open Sys2Proof Sys2Proof.Machine

/-! ## Field split and join -/

/-- R70 to R75: each split gives the slices of its number, each join puts the fields at their positions (OR and sum
agree) and stays in its width. -/
def Obligations.SplitGivesSlicesAndJoinPlacesFields : Prop :=
  (∀ a < 2 ^ 42, split42 a = (a % 2 ^ 32, a / 2 ^ 32 % 2 ^ 4, a / 2 ^ 36))
  ∧ (∀ low < 2 ^ 32, ∀ mid < 2 ^ 4, ∀ high < 2 ^ 6,
      join42 low mid high = low ||| (mid <<< 32) ||| (high <<< 36)
      ∧ join42 low mid high = low + mid * 2 ^ 32 + high * 2 ^ 36 ∧ join42 low mid high < 2 ^ 42)
  ∧ (∀ a < 2 ^ 58, split58 a = (a % 2 ^ 32, a / 2 ^ 32 % 2 ^ 4, a / 2 ^ 36))
  ∧ (∀ low < 2 ^ 32, ∀ mid < 2 ^ 4, ∀ high < 2 ^ 22,
      join58 low mid high = low ||| (mid <<< 32) ||| (high <<< 36)
      ∧ join58 low mid high = low + mid * 2 ^ 32 + high * 2 ^ 36 ∧ join58 low mid high < 2 ^ 58)
  ∧ (∀ z < 2 ^ 36, split36 z = (z % 2 ^ 32, z / 2 ^ 32))
  ∧ (∀ low < 2 ^ 32, ∀ high < 2 ^ 4,
      join36 low high = low ||| (high <<< 32) ∧ join36 low high = low + high * 2 ^ 32 ∧ join36 low high < 2 ^ 36)
  ∧ (∀ a < 2 ^ 48, split48 a = (a % 2 ^ 32, a / 2 ^ 32))
  ∧ (∀ low < 2 ^ 32, ∀ high < 2 ^ 16,
      join48 low high = low ||| (high <<< 32) ∧ join48 low high = low + high * 2 ^ 32 ∧ join48 low high < 2 ^ 48)

/-- 30_encoding.md section 2, the inverse law: join after split and split after join are the identity, for each of the
four widths. -/
def Obligations.SplitAndJoinAreInverse : Prop :=
  (∀ a < 2 ^ 42, join42 (split42 a).1 (split42 a).2.1 (split42 a).2.2 = a)
  ∧ (∀ low < 2 ^ 32, ∀ mid < 2 ^ 4, ∀ high < 2 ^ 6, split42 (join42 low mid high) = (low, mid, high))
  ∧ (∀ a < 2 ^ 58, join58 (split58 a).1 (split58 a).2.1 (split58 a).2.2 = a)
  ∧ (∀ low < 2 ^ 32, ∀ mid < 2 ^ 4, ∀ high < 2 ^ 22, split58 (join58 low mid high) = (low, mid, high))
  ∧ (∀ z < 2 ^ 36, join36 (split36 z).1 (split36 z).2 = z)
  ∧ (∀ low < 2 ^ 32, ∀ high < 2 ^ 4, split36 (join36 low high) = (low, high))
  ∧ (∀ a < 2 ^ 48, join48 (split48 a).1 (split48 a).2 = a)
  ∧ (∀ low < 2 ^ 32, ∀ high < 2 ^ 16, split48 (join48 low high) = (low, high))

/-! ## bitfield_encoder -/

/-- R110, by HDR.ENC with the instance's revision: fields that fit give the two words with every field at its position
and every other bit 0, and nothing but the response changes; a field that does not fit gives FieldOverflow. -/
def Obligations.HdrEncPacksTheHeader : Prop :=
  ∀ (s : State) (f : HdrFields),
    (f.Fits → ∃ w1 w2 : Word,
      exec (.hdrEnc s.cfg.rev f) s = .next { s with rsp := some ⟨.ok, .hdrEnc w1 w2⟩ }
      ∧ w1.toNat = f.type + f.countA * 2 ^ 16 + f.countB * 2 ^ 20 + f.countC * 2 ^ 24 + f.countD * 2 ^ 28
      ∧ w2.toNat = f.numDataWords + f.mode * 2 ^ 10 + f.hasSpecialHeader.toNat * 2 ^ 31)
    ∧ (¬ f.Fits → EndsInError (.hdrEnc s.cfg.rev f) .fieldOverflow s)

/-- R111, by SPH.ENC with the instance's revision. -/
def Obligations.SphEncPacksTheSpecialHeader : Prop :=
  ∀ (s : State) (f : SphFields),
    (f.Fits → ∃ w1 : Word,
      exec (.sphEnc s.cfg.rev f) s = .next { s with rsp := some ⟨.ok, .sphEnc w1⟩ }
      ∧ w1.toNat = f.sendPid.toNat + f.numCopyHandles * 2 + f.numMoveHandles * 2 ^ 5)
    ∧ (¬ f.Fits → EndsInError (.sphEnc s.cfg.rev f) .fieldOverflow s)

/-- 41_bitfield_encoder.md section 2, PACK_INPTR, by INPTR.ENC. That an index of 64 or more is FieldOverflow is the
spec's decision D8, that the address is tested first its decision D9. -/
def Obligations.InptrEncPacksTheDescriptor : Prop :=
  ∀ (s : State) (d : InPtr),
    (d.Fits → ∃ w1 w2 : Word,
      exec (.inptrEnc s.cfg.rev d) s = .next { s with rsp := some ⟨.ok, .inptrEnc w1 w2⟩ }
      ∧ w1.toNat = d.index + d.address / 2 ^ 36 * 2 ^ 6 + d.address / 2 ^ 32 % 2 ^ 4 * 2 ^ 12 + d.size * 2 ^ 16
      ∧ w2.toNat = d.address % 2 ^ 32)
    ∧ (2 ^ 42 ≤ d.address → EndsInError (.inptrEnc s.cfg.rev d) .addressOutOfRange s)
    ∧ (d.address < 2 ^ 42 → ¬ d.Fits → EndsInError (.inptrEnc s.cfg.rev d) .fieldOverflow s)

/-- 41_bitfield_encoder.md section 2, PACK_MAPA, by MAPA.ENC. That an mmode of 4 or more is FieldOverflow is the spec's
decision D8, that the address is tested first its decision D9. -/
def Obligations.MapaEncPacksTheDescriptor : Prop :=
  ∀ (s : State) (d : MapAlias),
    (d.Fits → ∃ w1 w2 w3 : Word,
      exec (.mapaEnc s.cfg.rev d) s = .next { s with rsp := some ⟨.ok, .mapaEnc w1 w2 w3⟩ }
      ∧ w1.toNat = d.size % 2 ^ 32 ∧ w2.toNat = d.address % 2 ^ 32
      ∧ w3.toNat = d.mmode + d.address / 2 ^ 36 * 2 ^ 2 + d.size / 2 ^ 32 * 2 ^ 24
          + d.address / 2 ^ 32 % 2 ^ 4 * 2 ^ 28)
    ∧ (2 ^ 58 ≤ d.address → EndsInError (.mapaEnc s.cfg.rev d) .addressOutOfRange s)
    ∧ (d.address < 2 ^ 58 → ¬ d.Fits → EndsInError (.mapaEnc s.cfg.rev d) .fieldOverflow s)

/-- 41_bitfield_encoder.md section 2, PACK_OUTPTR, by OUTPTR.ENC. That the address is tested before the size is the
spec's decision D9. -/
def Obligations.OutptrEncPacksTheDescriptor : Prop :=
  ∀ (s : State) (d : OutPtr),
    (d.Fits → ∃ w1 w2 : Word,
      exec (.outptrEnc s.cfg.rev d) s = .next { s with rsp := some ⟨.ok, .outptrEnc w1 w2⟩ }
      ∧ w1.toNat = d.address % 2 ^ 32 ∧ w2.toNat = d.address / 2 ^ 32 + d.size * 2 ^ 16)
    ∧ (2 ^ 48 ≤ d.address → EndsInError (.outptrEnc s.cfg.rev d) .addressOutOfRange s)
    ∧ (d.address < 2 ^ 48 → ¬ d.Fits → EndsInError (.outptrEnc s.cfg.rev d) .fieldOverflow s)

/-! ## bitfield_decoder -/

/-- 42_bitfield_decoder.md section 2, UNPACK_HDR, by HDR.DEC, for every two words. That the padding bits 19 to 14 of
word 2 are ignored is the spec's decision D10. -/
def Obligations.HdrDecUnpacksTheHeader : Prop :=
  ∀ (s : State) (w1 w2 : Word),
    exec (.hdrDec s.cfg.rev w1 w2) s = .next { s with rsp := some ⟨.ok, .hdrDec
      { type := w1.toNat % 2 ^ 16
        countA := w1.toNat / 2 ^ 16 % 2 ^ 4
        countB := w1.toNat / 2 ^ 20 % 2 ^ 4
        countC := w1.toNat / 2 ^ 24 % 2 ^ 4
        countD := w1.toNat / 2 ^ 28
        numDataWords := w2.toNat % 2 ^ 10
        mode := w2.toNat / 2 ^ 10 % 2 ^ 4
        hasSpecialHeader := decide (2 ^ 31 ≤ w2.toNat) }⟩ }

/-- R131, by SPH.DEC with the instance's revision: under the strict policy a padding bit that is set gives
MalformedSpecialHeader; otherwise the three fields come back and the padding is dropped. -/
def Obligations.SphDecUnpacksTheSpecialHeader : Prop :=
  ∀ (s : State) (w : Word),
    (s.cfg.tolSphPad = false → 2 ^ 9 ≤ w.toNat → EndsInError (.sphDec s.cfg.rev w) .malformedSpecialHeader s)
    ∧ (s.cfg.tolSphPad = true ∨ w.toNat < 2 ^ 9 →
        exec (.sphDec s.cfg.rev w) s = .next { s with rsp := some ⟨.ok, .sphDec
          { sendPid := decide (w.toNat % 2 = 1)
            numCopyHandles := w.toNat / 2 % 2 ^ 4
            numMoveHandles := w.toNat / 2 ^ 5 % 2 ^ 4 }⟩ })

/-- R132, by INPTR.DEC with the instance's revision, for every two words. -/
def Obligations.InptrDecUnpacksTheDescriptor : Prop :=
  ∀ (s : State) (w1 w2 : Word),
    exec (.inptrDec s.cfg.rev w1 w2) s = .next { s with rsp := some ⟨.ok, .inptrDec
      { index := w1.toNat % 2 ^ 6
        address := w2.toNat + w1.toNat / 2 ^ 12 % 2 ^ 4 * 2 ^ 32 + w1.toNat / 2 ^ 6 % 2 ^ 6 * 2 ^ 36
        size := w1.toNat / 2 ^ 16 }⟩ }

/-- R133, by MAPA.DEC with the instance's revision, for every three words. -/
def Obligations.MapaDecUnpacksTheDescriptor : Prop :=
  ∀ (s : State) (w1 w2 w3 : Word),
    exec (.mapaDec s.cfg.rev w1 w2 w3) s = .next { s with rsp := some ⟨.ok, .mapaDec
      { address := w2.toNat + w3.toNat / 2 ^ 28 * 2 ^ 32 + w3.toNat / 2 ^ 2 % 2 ^ 22 * 2 ^ 36
        size := w1.toNat + w3.toNat / 2 ^ 24 % 2 ^ 4 * 2 ^ 32
        mmode := w3.toNat % 2 ^ 2 }⟩ }

/-- R134, by OUTPTR.DEC with the instance's revision, for every two words. -/
def Obligations.OutptrDecUnpacksTheDescriptor : Prop :=
  ∀ (s : State) (w1 w2 : Word),
    exec (.outptrDec s.cfg.rev w1 w2) s = .next { s with rsp := some ⟨.ok, .outptrDec
      { address := w1.toNat + w2.toNat % 2 ^ 16 * 2 ^ 32
        size := w2.toNat / 2 ^ 16 }⟩ }

/-- 42_bitfield_decoder.md section 4, the word-form round trip, by the shorthand ROUNDTRIP of 30_encoding.md section 6:
decoding the words an encode returned gives its operands back. -/
def Obligations.WordFormRoundTripReturnsTheOperands : Prop :=
  ∀ s : State,
    (∀ f : HdrFields, f.Fits →
      roundTrip (.hdrEnc s.cfg.rev f) s = .next { s with rsp := some ⟨.ok, .hdrDec f⟩ })
    ∧ (∀ f : SphFields, f.Fits →
      roundTrip (.sphEnc s.cfg.rev f) s = .next { s with rsp := some ⟨.ok, .sphDec f⟩ })
    ∧ (∀ d : InPtr, d.Fits →
      roundTrip (.inptrEnc s.cfg.rev d) s = .next { s with rsp := some ⟨.ok, .inptrDec d⟩ })
    ∧ (∀ d : MapAlias, d.Fits →
      roundTrip (.mapaEnc s.cfg.rev d) s = .next { s with rsp := some ⟨.ok, .mapaDec d⟩ })
    ∧ (∀ d : OutPtr, d.Fits →
      roundTrip (.outptrEnc s.cfg.rev d) s = .next { s with rsp := some ⟨.ok, .outptrDec d⟩ })

/-- 42_bitfield_decoder.md section 4, the other direction: packing what was unpacked never fails and gives the words
back, less the bits that no field holds (w2[30:14] of the header, w[31:9] of the special header). -/
def Obligations.PackingUnpackedWordsGivesThemBack : Prop :=
  ∀ s : State,
    (∀ w1 w2 : Word, ∃ w2' : Word,
      exec (.hdrEnc s.cfg.rev (unpackHdr w1 w2)) s = .next { s with rsp := some ⟨.ok, .hdrEnc w1 w2'⟩ }
      ∧ w2'.toNat = w2.toNat % 2 ^ 14 + w2.toNat / 2 ^ 31 * 2 ^ 31)
    ∧ (∀ (w : Word) (f : SphFields), unpackSph s.cfg w = .ok f → ∃ w' : Word,
      exec (.sphEnc s.cfg.rev f) s = .next { s with rsp := some ⟨.ok, .sphEnc w'⟩ } ∧ w'.toNat = w.toNat % 2 ^ 9)
    ∧ (∀ w1 w2 : Word, exec (.inptrEnc s.cfg.rev (unpackInPtr w1 w2)) s
        = .next { s with rsp := some ⟨.ok, .inptrEnc w1 w2⟩ })
    ∧ (∀ w1 w2 w3 : Word, exec (.mapaEnc s.cfg.rev (unpackMapAlias w1 w2 w3)) s
        = .next { s with rsp := some ⟨.ok, .mapaEnc w1 w2 w3⟩ })
    ∧ (∀ w1 w2 : Word, exec (.outptrEnc s.cfg.rev (unpackOutPtr w1 w2)) s
        = .next { s with rsp := some ⟨.ok, .outptrEnc w1 w2⟩ })

/-! ## offset_calculator: LAYOUT -/

/-- 43_offset_calculator.md sections 1 and 2: with fields that fit and room for the message, LAYOUT returns the offset
record, each offset from the one before it, and changes nothing else. That LAYOUT validates its counts is the spec's
decision D22; the three configuration functions are open (D12, D13). -/
def Obligations.LayoutReturnsTheOffsets : Prop :=
  ∀ (s : State) (c : Counts) (f : SphFields) (cap : Nat),
    c.Fits → (c.hasSpecialHeader = true → f.Fits) → (offsets s.cfg c f).total ≤ cap →
    ∃ o : OffsetRecord, exec (.layout s.cfg.rev c f cap) s = .next { s with rsp := some ⟨.ok, .layout o⟩ }
      ∧ o.offHeader = 0 ∧ o.offSpecial = 2 ∧ o.offPid = 3
      ∧ o.offCopy = (if c.hasSpecialHeader then 3 + f.sendPid.toNat else 2)
      ∧ o.offMove = o.offCopy + (if c.hasSpecialHeader then f.numCopyHandles else 0)
      ∧ o.offInptr = o.offMove + (if c.hasSpecialHeader then f.numMoveHandles else 0)
      ∧ o.offInmap = o.offInptr + 2 * c.countA
      ∧ o.offOutmap = o.offInmap + 3 * c.countB
      ∧ o.offInoutmap = o.offOutmap + 3 * c.countC
      ∧ o.offPrepad = o.offInoutmap + 3 * c.countD
      ∧ o.offData = o.offPrepad + prePad s.cfg c.mode o.offPrepad
      ∧ o.offPostpad = o.offData + c.numDataWords
      ∧ o.offOutptr = o.offPostpad + postPad s.cfg c.mode o.offPostpad
      ∧ o.nOutptr = outCnt s.cfg c.mode
      ∧ o.total = o.offOutptr + 2 * o.nOutptr

/-- 43_offset_calculator.md section 2: LAYOUT's errors, FieldOverflow before BufferTooSmall (decisions D9, D22); the
special-header operands are not looked at without a special header. Where both LAYOUTs of the last clause end in an
error, that their undefined results agree is the model's choice and no rule of the spec: log entries 4 and 6,
`Config.undefinedResults` takes the draw number and nothing else. It holds whatever values that constant has. -/
def Obligations.LayoutErrors : Prop :=
  ∀ (s : State) (c : Counts) (f : SphFields) (cap : Nat),
    (¬ c.Fits → EndsInError (.layout s.cfg.rev c f cap) .fieldOverflow s)
    ∧ (c.hasSpecialHeader = true → ¬ f.Fits → EndsInError (.layout s.cfg.rev c f cap) .fieldOverflow s)
    ∧ (c.Fits → (c.hasSpecialHeader = true → f.Fits) → cap < (offsets s.cfg c f).total →
        EndsInError (.layout s.cfg.rev c f cap) .bufferTooSmall s)
    ∧ (c.hasSpecialHeader = false → ∀ g : SphFields,
        exec (.layout s.cfg.rev c f cap) s = exec (.layout s.cfg.rev c g cap) s)

/-- 43_offset_calculator.md section 1, the bounds on total: 2 to 1282 for any instance, at most 1248 for the reference
instance, and both bounds of the reference instance are reached. -/
def Obligations.TotalIsBounded : Prop :=
  (∀ (cfg : Cfg) (c : Counts) (f : SphFields), c.Fits → (c.hasSpecialHeader = true → f.Fits) →
    2 ≤ (offsets cfg c f).total ∧ (offsets cfg c f).total ≤ 1282)
  ∧ (∀ (rev : Revision) (tol : Bool) (c : Counts) (f : SphFields), c.Fits → (c.hasSpecialHeader = true → f.Fits) →
    (offsets (Config.ref rev tol) c f).total ≤ 1248)
  ∧ (∀ (rev : Revision) (tol : Bool),
    (offsets (Config.ref rev tol) {} {}).total = 2
    ∧ (offsets (Config.ref rev tol)
        { countA := 15, countB := 15, countC := 15, countD := 15, numDataWords := 1023, mode := 15,
          hasSpecialHeader := true } ⟨true, 15, 15⟩).total = 1248)

/-! ## offset_calculator: MSG.ENC -/

/-- 43_offset_calculator.md section 3: with the instance's revision, a message whose every part fits and room for all
of it, MSG.ENC answers OK with the total, and changes nothing but the response and the words below the total. That the
words at and after the total stay is the spec's decision D18. -/
def Obligations.MsgEncCompletes : Prop :=
  ∀ (s : State) (m : Message) (cap : Nat),
    MessageFits s.cfg m → (messageOffsets s.cfg m).total ≤ cap →
    ∃ t, exec (.msgEnc s.cfg.rev m cap) s = .next t
      ∧ t.rsp = some ⟨.ok, .msgEnc (messageOffsets s.cfg m).total⟩
      ∧ t.cfg = s.cfg ∧ t.inbox = s.inbox ∧ t.draws = s.draws
      ∧ ∀ a, 4 * (messageOffsets s.cfg m).total ≤ a → t.mem.readByte a = s.mem.readByte a

/-- 43_offset_calculator.md section 3: what MSG.ENC writes in the header and the special header: the two header words,
and, only with a special header, its word, a pid word of 0 if a pid is sent, and the handles in order. -/
def Obligations.MsgEncWritesHeaderAndSpecialHeader : Prop :=
  ∀ (s : State) (m : Message) (cap : Nat), s.mem.wf = true →
    MessageFits s.cfg m → (messageOffsets s.cfg m).total ≤ cap →
    ∃ t, exec (.msgEnc s.cfg.rev m cap) s = .next t
      ∧ (t.mem.readWord 0).toNat = m.hdr.type + m.hdr.countA * 2 ^ 16 + m.hdr.countB * 2 ^ 20
          + m.hdr.countC * 2 ^ 24 + m.hdr.countD * 2 ^ 28
      ∧ (t.mem.readWord 1).toNat = m.hdr.numDataWords + m.hdr.mode * 2 ^ 10
          + m.hdr.hasSpecialHeader.toNat * 2 ^ 31
      ∧ (m.hdr.hasSpecialHeader = true →
          (t.mem.readWord 2).toNat = m.sph.sendPid.toNat + m.sph.numCopyHandles * 2 + m.sph.numMoveHandles * 2 ^ 5
          ∧ (m.sph.sendPid = true → t.mem.readWord 3 = 0)
          ∧ (∀ i < m.sph.numCopyHandles,
              t.mem.readWord ((messageOffsets s.cfg m).offCopy + i) = m.copyHandle.getD i 0)
          ∧ (∀ i < m.sph.numMoveHandles,
              t.mem.readWord ((messageOffsets s.cfg m).offMove + i) = m.moveHandle.getD i 0))

/-- 43_offset_calculator.md section 3: what MSG.ENC writes in sections 3 to 8, each entry at the offset of the offset
record and each padding word 0 (decision D13). -/
def Obligations.MsgEncWritesDescriptorsAndData : Prop :=
  ∀ (s : State) (m : Message) (cap : Nat), s.mem.wf = true →
    MessageFits s.cfg m → (messageOffsets s.cfg m).total ≤ cap →
    ∃ t, exec (.msgEnc s.cfg.rev m cap) s = .next t
      ∧ (∀ i < m.hdr.countA,
          t.mem.readWord ((messageOffsets s.cfg m).offInptr + 2 * i)
              = BitVec.ofNat 32 ((m.inptr.getD i {}).index + (m.inptr.getD i {}).address / 2 ^ 36 * 2 ^ 6
                  + (m.inptr.getD i {}).address / 2 ^ 32 % 2 ^ 4 * 2 ^ 12 + (m.inptr.getD i {}).size * 2 ^ 16)
          ∧ t.mem.readWord ((messageOffsets s.cfg m).offInptr + 2 * i + 1)
              = BitVec.ofNat 32 (m.inptr.getD i {}).address)
      ∧ (∀ (group : List MapAlias) (n off : Nat),
          (group, n, off) ∈ [(m.inmap, m.hdr.countB, (messageOffsets s.cfg m).offInmap),
            (m.outmap, m.hdr.countC, (messageOffsets s.cfg m).offOutmap),
            (m.inoutmap, m.hdr.countD, (messageOffsets s.cfg m).offInoutmap)] →
          ∀ i < n,
            t.mem.readWord (off + 3 * i) = BitVec.ofNat 32 (group.getD i {}).size
            ∧ t.mem.readWord (off + 3 * i + 1) = BitVec.ofNat 32 (group.getD i {}).address
            ∧ t.mem.readWord (off + 3 * i + 2)
                = BitVec.ofNat 32 ((group.getD i {}).mmode + (group.getD i {}).address / 2 ^ 36 * 2 ^ 2
                    + (group.getD i {}).size / 2 ^ 32 * 2 ^ 24
                    + (group.getD i {}).address / 2 ^ 32 % 2 ^ 4 * 2 ^ 28))
      ∧ (∀ i, (messageOffsets s.cfg m).offPrepad ≤ i → i < (messageOffsets s.cfg m).offData →
          t.mem.readWord i = 0)
      ∧ (∀ i < m.hdr.numDataWords,
          t.mem.readWord ((messageOffsets s.cfg m).offData + i) = m.data.getD i 0)
      ∧ (∀ i, (messageOffsets s.cfg m).offPostpad ≤ i → i < (messageOffsets s.cfg m).offOutptr →
          t.mem.readWord i = 0)
      ∧ (∀ i < outCnt s.cfg m.hdr.mode,
          t.mem.readWord ((messageOffsets s.cfg m).offOutptr + 2 * i)
              = BitVec.ofNat 32 (m.outptr.getD i {}).address
          ∧ t.mem.readWord ((messageOffsets s.cfg m).offOutptr + 2 * i + 1)
              = BitVec.ofNat 32 ((m.outptr.getD i {}).address / 2 ^ 32 + (m.outptr.getD i {}).size * 2 ^ 16))

/-- 43_offset_calculator.md section 6: for a message whose every part fits, MSG.ENC and LAYOUT give one verdict: OK
with one total when the message fits the room, BufferTooSmall otherwise. -/
def Obligations.MsgEncAndLayoutAgree : Prop :=
  ∀ (s : State) (m : Message) (cap : Nat), MessageFits s.cfg m →
    ((messageOffsets s.cfg m).total ≤ cap →
      ∃ t u o, exec (.msgEnc s.cfg.rev m cap) s = .next t
        ∧ exec (.layout s.cfg.rev m.hdr.toCounts m.sph cap) s = .next u
        ∧ u.rsp = some ⟨.ok, .layout o⟩ ∧ t.rsp = some ⟨.ok, .msgEnc o.total⟩)
    ∧ (cap < (messageOffsets s.cfg m).total →
      EncodeEndsInError s.cfg.rev m cap .bufferTooSmall s
      ∧ EndsInError (.layout s.cfg.rev m.hdr.toCounts m.sph cap) .bufferTooSmall s)

/-- 43_offset_calculator.md section 3: MSG.ENC answers OK only when the revision is the instance's, every part it reads
fits its field and the message fits the room. -/
def Obligations.MsgEncSucceedsOnlyWhenEverythingFits : Prop :=
  ∀ (s t : State) (rev : Revision) (m : Message) (cap : Nat),
    exec (.msgEnc rev m cap) s = .next t → t.status = some .ok →
    rev = s.cfg.rev ∧ MessageFits s.cfg m ∧ (messageOffsets s.cfg m).total ≤ cap

/-- 60_exceptions.md section 3, for MSG.ENC: the first error is the one reported, over ALL elements of the message in
section order, each element's validation before its room check, and no error means OK; then the same spelled out for
the header, the special header and each descriptor section, and for a descriptor that has no room although a later
one may not fit. The order is the spec's decision D9; that an index of 64 or more and an mmode of 4 or more are
FieldOverflow is its decision D8. -/
def Obligations.MsgEncReportsTheFirstError : Prop :=
  ∀ (s : State) (m : Message) (cap : Nat),
    (firstError cap 0 (messageElements s.cfg m) = none →
      ∃ t, exec (.msgEnc s.cfg.rev m cap) s = .next t ∧ t.status = some .ok)
    ∧ (∀ e, firstError cap 0 (messageElements s.cfg m) = some e → EncodeEndsInError s.cfg.rev m cap e s)
    ∧ (¬ m.hdr.Fits → EncodeEndsInError s.cfg.rev m cap .fieldOverflow s)
    ∧ (m.hdr.Fits → cap < 2 → EncodeEndsInError s.cfg.rev m cap .bufferTooSmall s)
    ∧ (m.hdr.Fits → 2 ≤ cap → m.hdr.hasSpecialHeader = true → ¬ m.sph.Fits →
        EncodeEndsInError s.cfg.rev m cap .fieldOverflow s)
    ∧ (m.hdr.Fits → (m.hdr.hasSpecialHeader = true → m.sph.Fits) →
        (∀ j < m.hdr.countA, (∀ i < j, (m.inptr.getD i {}).Fits) →
          (messageOffsets s.cfg m).offInptr + 2 * j ≤ cap →
          (2 ^ 42 ≤ (m.inptr.getD j {}).address → EncodeEndsInError s.cfg.rev m cap .addressOutOfRange s)
          ∧ ((m.inptr.getD j {}).address < 2 ^ 42 → ¬ (m.inptr.getD j {}).Fits →
              EncodeEndsInError s.cfg.rev m cap .fieldOverflow s)
          ∧ ((m.inptr.getD j {}).Fits → cap < (messageOffsets s.cfg m).offInptr + 2 * j + 2 →
              EncodeEndsInError s.cfg.rev m cap .bufferTooSmall s))
        ∧ ((∀ i < m.hdr.countA, (m.inptr.getD i {}).Fits) →
          (∀ (before group : List MapAlias) (n off : Nat),
            (before, group, n, off) ∈ [([], m.inmap, m.hdr.countB, (messageOffsets s.cfg m).offInmap),
              (entries m.inmap m.hdr.countB, m.outmap, m.hdr.countC, (messageOffsets s.cfg m).offOutmap),
              (entries m.inmap m.hdr.countB ++ entries m.outmap m.hdr.countC, m.inoutmap, m.hdr.countD,
                (messageOffsets s.cfg m).offInoutmap)] →
            (∀ d ∈ before, d.Fits) →
            ∀ j < n, (∀ i < j, (group.getD i {}).Fits) → off + 3 * j ≤ cap →
              (2 ^ 58 ≤ (group.getD j {}).address → EncodeEndsInError s.cfg.rev m cap .addressOutOfRange s)
              ∧ ((group.getD j {}).address < 2 ^ 58 → ¬ (group.getD j {}).Fits →
                  EncodeEndsInError s.cfg.rev m cap .fieldOverflow s)
              ∧ ((group.getD j {}).Fits → cap < off + 3 * j + 3 →
                  EncodeEndsInError s.cfg.rev m cap .bufferTooSmall s))
          ∧ ((∀ d ∈ entries m.inmap m.hdr.countB ++ entries m.outmap m.hdr.countC ++ entries m.inoutmap m.hdr.countD,
              d.Fits) →
            ∀ j < outCnt s.cfg m.hdr.mode, (∀ i < j, (m.outptr.getD i {}).Fits) →
              (messageOffsets s.cfg m).offOutptr + 2 * j ≤ cap →
              (2 ^ 48 ≤ (m.outptr.getD j {}).address → EncodeEndsInError s.cfg.rev m cap .addressOutOfRange s)
              ∧ ((m.outptr.getD j {}).address < 2 ^ 48 → ¬ (m.outptr.getD j {}).Fits →
                  EncodeEndsInError s.cfg.rev m cap .fieldOverflow s)
              ∧ ((m.outptr.getD j {}).Fits → cap < (messageOffsets s.cfg m).offOutptr + 2 * j + 2 →
                  EncodeEndsInError s.cfg.rev m cap .bufferTooSmall s))))

/-- 20_memory.md section 5: a MSG.ENC that returned an error leaves nothing of what the buffer held below `cap`. The
status is the same whatever the buffer held. That two runs with one draw number leave buffers that AGREE below `cap` is
the model's choice and no rule of the spec, which makes each word a draw under no law (R51, R182): log entries 5 and 6,
`Config.havocWord` takes the draw number and the position and nothing else. It holds whatever values that constant has.
The extent of "undefined" is the spec's decision D17. -/
def Obligations.FailedMsgEncForgetsTheBuffer : Prop :=
  ∀ (s t : State) (rev : Revision) (m : Message) (cap : Nat) (e : Err) (mem : Memory),
    s.mem.wf = true → mem.wf = true →
    exec (.msgEnc rev m cap) s = .next t → t.status = some (.error e) →
    ∃ u, exec (.msgEnc rev m cap) (s.setMem mem) = .next u ∧ u.status = some (.error e)
      ∧ ∀ i < cap, u.mem.readWord i = t.mem.readWord i

/-! ## offset_calculator: MSG.DEC -/

/-- 43_offset_calculator.md section 4: with the instance's revision, MSG.DEC on a buffer whose header and special
header can be read and unpacked and whose message fits `cap` returns every part read at its offset, and changes
nothing but the response. That the pid word comes back as it is, and 0 without one, is the spec's decision D11; that
the special-header results are 0 without a special header its decision D24. -/
def Obligations.MsgDecCompletes : Prop :=
  ∀ (s : State) (cap : Nat) (hdr : HdrFields) (sph : SphFields),
    hdr = unpackHdr (s.mem.readWord 0) (s.mem.readWord 1) → 2 ≤ cap →
    (hdr.hasSpecialHeader = true → unpackSph s.cfg (s.mem.readWord 2) = .ok sph) →
    (hdr.hasSpecialHeader = false → sph = {}) →
    (offsets s.cfg hdr.toCounts sph).total ≤ cap →
    ∃ m : Message,
      exec (.msgDec s.cfg.rev cap) s = .next { s with rsp := some ⟨.ok,
        .msgDec m (if sph.sendPid then s.mem.readWord 3 else 0) (offsets s.cfg hdr.toCounts sph).total⟩ }
      ∧ m.hdr = hdr ∧ m.sph = sph
      ∧ m.copyHandle = (List.range sph.numCopyHandles).map (fun i =>
          s.mem.readWord ((offsets s.cfg hdr.toCounts sph).offCopy + i))
      ∧ m.moveHandle = (List.range sph.numMoveHandles).map (fun i =>
          s.mem.readWord ((offsets s.cfg hdr.toCounts sph).offMove + i))
      ∧ m.inptr = (List.range hdr.countA).map (fun i =>
          unpackInPtr (s.mem.readWord ((offsets s.cfg hdr.toCounts sph).offInptr + 2 * i))
            (s.mem.readWord ((offsets s.cfg hdr.toCounts sph).offInptr + 2 * i + 1)))
      ∧ m.inmap = (List.range hdr.countB).map (fun i =>
          unpackMapAlias (s.mem.readWord ((offsets s.cfg hdr.toCounts sph).offInmap + 3 * i))
            (s.mem.readWord ((offsets s.cfg hdr.toCounts sph).offInmap + 3 * i + 1))
            (s.mem.readWord ((offsets s.cfg hdr.toCounts sph).offInmap + 3 * i + 2)))
      ∧ m.outmap = (List.range hdr.countC).map (fun i =>
          unpackMapAlias (s.mem.readWord ((offsets s.cfg hdr.toCounts sph).offOutmap + 3 * i))
            (s.mem.readWord ((offsets s.cfg hdr.toCounts sph).offOutmap + 3 * i + 1))
            (s.mem.readWord ((offsets s.cfg hdr.toCounts sph).offOutmap + 3 * i + 2)))
      ∧ m.inoutmap = (List.range hdr.countD).map (fun i =>
          unpackMapAlias (s.mem.readWord ((offsets s.cfg hdr.toCounts sph).offInoutmap + 3 * i))
            (s.mem.readWord ((offsets s.cfg hdr.toCounts sph).offInoutmap + 3 * i + 1))
            (s.mem.readWord ((offsets s.cfg hdr.toCounts sph).offInoutmap + 3 * i + 2)))
      ∧ m.data = (List.range hdr.numDataWords).map (fun i =>
          s.mem.readWord ((offsets s.cfg hdr.toCounts sph).offData + i))
      ∧ m.outptr = (List.range (outCnt s.cfg hdr.mode)).map (fun i =>
          unpackOutPtr (s.mem.readWord ((offsets s.cfg hdr.toCounts sph).offOutptr + 2 * i))
            (s.mem.readWord ((offsets s.cfg hdr.toCounts sph).offOutptr + 2 * i + 1)))

/-- 43_offset_calculator.md section 4: when MSG.DEC, with the instance's revision, ends in an error: no room for the
header, none for the special-header word, a special-header word that does not unpack, or a message that the counts
make longer than `cap`. Where a malformed special-header word stands in a message that is also longer than `cap`, the
third clause depends on which of the two errors is reported: the spec's decision D9. -/
def Obligations.MsgDecErrors : Prop :=
  ∀ (s : State) (cap : Nat) (hdr : HdrFields), hdr = unpackHdr (s.mem.readWord 0) (s.mem.readWord 1) →
    (cap < 2 → EndsInError (.msgDec s.cfg.rev cap) .bufferTooSmall s)
    ∧ (hdr.hasSpecialHeader = true → cap < 3 → EndsInError (.msgDec s.cfg.rev cap) .bufferTooSmall s)
    ∧ (hdr.hasSpecialHeader = true → 3 ≤ cap → s.cfg.tolSphPad = false →
        2 ^ 9 ≤ (s.mem.readWord 2).toNat → EndsInError (.msgDec s.cfg.rev cap) .malformedSpecialHeader s)
    ∧ (hdr.hasSpecialHeader = true → ∀ sph, unpackSph s.cfg (s.mem.readWord 2) = .ok sph →
        cap < (offsets s.cfg hdr.toCounts sph).total → EndsInError (.msgDec s.cfg.rev cap) .bufferTooSmall s)
    ∧ (hdr.hasSpecialHeader = false → cap < (offsets s.cfg hdr.toCounts {}).total →
        EndsInError (.msgDec s.cfg.rev cap) .bufferTooSmall s)

/-- 43_offset_calculator.md section 6, the message round trip: after MSG.ENC returned OK, MSG.DEC on the same buffer,
on any instance with the same three functions and any straps, with any `cap` that holds the message, returns OK, the
same total, a pid word of 0 and every part of the message that it carries. -/
def Obligations.MessageRoundTrip : Prop :=
  ∀ (s t u : State) (m : Message) (cap cap' total : Nat), s.mem.wf = true →
    exec (.msgEnc s.cfg.rev m cap) s = .next t → t.rsp = some ⟨.ok, .msgEnc total⟩ →
    u.mem = t.mem → SameFunctions u.cfg s.cfg → total ≤ cap' →
    exec (.msgDec u.cfg.rev cap') u
      = .next { u with rsp := some ⟨.ok, .msgDec (carried s.cfg m) 0 total⟩ }

/-- 43_offset_calculator.md section 6, the canonical form: encoding what MSG.DEC returned succeeds with the same total,
and the buffer it writes equals the decoded one but for the header bits w2[30:14], the special-header padding, the pid
word and the padding words, which are 0. -/
def Obligations.EncodingADecodedMessageIsCanonical : Prop :=
  ∀ (s t : State) (cap : Nat) (m : Message) (pid : Word) (total : Nat), s.mem.wf = true →
    exec (.msgDec s.cfg.rev cap) s = .next t → t.rsp = some ⟨.ok, .msgDec m pid total⟩ →
    ∃ u, exec (.msgEnc s.cfg.rev m cap) s = .next u ∧ u.rsp = some ⟨.ok, .msgEnc total⟩
      ∧ total = (messageOffsets s.cfg m).total
      ∧ u.mem.readWord 0 = s.mem.readWord 0
      ∧ (u.mem.readWord 1).toNat
          = (s.mem.readWord 1).toNat % 2 ^ 14 + (s.mem.readWord 1).toNat / 2 ^ 31 * 2 ^ 31
      ∧ (m.hdr.hasSpecialHeader = true →
          (u.mem.readWord 2).toNat = (s.mem.readWord 2).toNat % 2 ^ 9
          ∧ (m.sph.sendPid = true → u.mem.readWord 3 = 0))
      ∧ (∀ i, (messageOffsets s.cfg m).offCopy ≤ i → i < (messageOffsets s.cfg m).offPrepad →
          u.mem.readWord i = s.mem.readWord i)
      ∧ (∀ i, (messageOffsets s.cfg m).offPrepad ≤ i → i < (messageOffsets s.cfg m).offData → u.mem.readWord i = 0)
      ∧ (∀ i, (messageOffsets s.cfg m).offData ≤ i → i < (messageOffsets s.cfg m).offPostpad →
          u.mem.readWord i = s.mem.readWord i)
      ∧ (∀ i, (messageOffsets s.cfg m).offPostpad ≤ i → i < (messageOffsets s.cfg m).offOutptr →
          u.mem.readWord i = 0)
      ∧ (∀ i, (messageOffsets s.cfg m).offOutptr ≤ i → i < total → u.mem.readWord i = s.mem.readWord i)

/-! ## Errors -/

/-- 60_exceptions.md section 1, the revision check: a request under the other revision's names ends in
RevisionMismatch, whatever its operands. The check is the spec's decision D7, that it comes before every other error its
decision D9; that MSG.ENC leaves the buffer undefined in this case too is log entry 12. -/
def Obligations.WrongRevisionIsRevisionMismatch : Prop :=
  ∀ (s : State) (i : Instr), Assigned i = true → i.rev ≠ s.cfg.rev →
    ∃ t, exec i s = .next t ∧ t.status = some (.error .revisionMismatch) ∧ t.cfg = s.cfg ∧ t.inbox = s.inbox
      ∧ (isMsgEnc i = false → t.mem = s.mem)

/-- 30_encoding.md section 4: each unassigned `op` ends in BadRequest, under either revision, with the buffer
unchanged (the spec's decision D5; that it comes before the revision check is its decision D9). -/
def Obligations.UnassignedOpIsBadRequest : Prop :=
  ∀ (s : State) (rev : Revision),
    EndsInError (.unassigned7 rev) .badRequest s ∧ EndsInError (.unassignedD rev) .badRequest s
    ∧ EndsInError (.unassignedF rev) .badRequest s

/-- 60_exceptions.md section 1, when the status is raised: with the instance's revision, MalformedSpecialHeader is raised
exactly when the policy is strict and a special-header word being decoded has a padding bit set; never by an encode,
never without a special header. Where such a word stands in a message that is also longer than `cap`, that MSG.DEC
reports this error and not BufferTooSmall, and that it reports BufferTooSmall where there is no room for the word, is
the spec's decision D9. -/
def Obligations.MalformedSpecialHeaderExactlyWhenStrictPaddingIsSet : Prop :=
  ∀ (s t : State) (i : Instr), i.rev = s.cfg.rev → exec i s = .next t →
    (t.status = some (.error .malformedSpecialHeader) ↔
      s.cfg.tolSphPad = false
      ∧ ((∃ w : Word, i = .sphDec s.cfg.rev w ∧ 2 ^ 9 ≤ w.toNat)
        ∨ (∃ cap, i = .msgDec s.cfg.rev cap ∧ 3 ≤ cap
            ∧ (unpackHdr (s.mem.readWord 0) (s.mem.readWord 1)).hasSpecialHeader = true
            ∧ 2 ^ 9 ≤ (s.mem.readWord 2).toNat)))

/-- 60_exceptions.md section 1, the last column of the table of statuses, and opcode_table.json: an operation raises no
error that is not listed for it. Which errors exist beyond the document's five is the spec's decision D5. -/
def Obligations.OperationsRaiseOnlyTheirListedErrors : Prop :=
  ∀ (s t : State) (i : Instr) (e : Err), exec i s = .next t → t.status = some (.error e) → e ∈ mayRaise i

/-- 60_exceptions.md section 4: an error return changes no configuration, no waiting input and no byte of the buffer,
but for the words below `cap` after a MSG.ENC (the spec's decision D17). -/
def Obligations.ErrorReturnsChangeNothingElse : Prop :=
  ∀ (s t : State) (i : Instr) (e : Err), exec i s = .next t → t.status = some (.error e) →
    t.cfg = s.cfg ∧ t.inbox = s.inbox
    ∧ (∀ a, (∀ rev m cap, i = .msgEnc rev m cap → 4 * cap ≤ a) → t.mem.readByte a = s.mem.readByte a)

/-! ## Rules of the whole machine -/

/-- 00_scope.md section 7 and 60_exceptions.md section 6: in every state every operation, with any operands, runs to a
response in one step; it changes neither the configuration nor the inputs that wait. -/
def Obligations.EveryOperationAnswers : Prop :=
  ∀ (s : State) (i : Instr), ∃ t, exec i s = .next t ∧ t.cfg = s.cfg ∧ t.inbox = s.inbox ∧ t.rsp.isSome = true

/-- 20_memory.md sections 4 and 5: no operation but MSG.ENC changes the buffer. -/
def Obligations.OnlyMsgEncWritesTheBuffer : Prop :=
  ∀ (s t : State) (i : Instr), isMsgEnc i = false → exec i s = .next t → t.mem = s.mem

/-- R20: the result of an operation is a function of the configuration, the request and the buffer, and of nothing
else: two states that agree in the first and the last give one status, and, when it is OK, one response and buffer. -/
def Obligations.ResultDependsOnConfigurationRequestAndBuffer : Prop :=
  ∀ (s u : State) (i : Instr), s.cfg = u.cfg → s.mem = u.mem →
    ∃ t v, exec i s = .next t ∧ exec i u = .next v ∧ t.status = v.status
      ∧ (t.status = some .ok → t.rsp = v.rsp ∧ t.mem = v.mem)

/-- 43_offset_calculator.md section 6, revision transparency: the same request made under either revision, to
instances of that revision that are otherwise the same, gives one status and, when it is OK, one response and one
buffer; the buffer stays as it was for all but MSG.ENC. And 30_encoding.md section 6, the table of names: each of the
five fields under its RevisionOne and its RevisionTwo name (the pairing is the spec's decision D19), and the fields
stated under either revision's names are the header's fields. -/
def Obligations.RevisionsDifferInNamesOnly : Prop :=
  (∀ (s : State) (i : Instr) (rev rev' : Revision),
    ∃ t u, exec (withRev rev i) (s.withRevStrap rev) = .next t
      ∧ exec (withRev rev' i) (s.withRevStrap rev') = .next u
      ∧ t.status = u.status ∧ (t.status = some .ok → t.rsp = u.rsp ∧ t.mem = u.mem)
      ∧ (isMsgEnc i = false → t.mem = s.mem ∧ u.mem = s.mem))
  ∧ (∀ c : Counts, ∃ v w,
    headerView .revisionOne c = .revisionOne v ∧ headerView .revisionTwo c = .revisionTwo w
      ∧ v.numSendStatics = c.countA ∧ w.numInPointers = c.countA
      ∧ v.numSendBuffers = c.countB ∧ w.numInMapAliases = c.countB
      ∧ v.numRecvBuffers = c.countC ∧ w.numOutMapAliases = c.countC
      ∧ v.numExchBuffers = c.countD ∧ w.numInoutMapAliases = c.countD
      ∧ v.recvStaticMode = c.mode ∧ w.outPointerMode = c.mode)
  ∧ (∀ (rev : Revision) (f : HdrFields),
    HeaderView.fields (headerView rev f.toCounts) f.type f.numDataWords f.hasSpecialHeader = f)

/-! ## Buffer words and bytes -/

/-- 20_memory.md section 2: word `i` is bytes `4 * i` to `4 * i + 3`, least significant byte first. The byte layout is
the spec's decision D15 (log entry 10). -/
def Obligations.WordsAreLittleEndianBytes : Prop :=
  ∀ (m : Memory) (i : Nat),
    (m.readWord i).toNat = (m.readByte (4 * i)).toNat + (m.readByte (4 * i + 1)).toNat * 2 ^ 8
      + (m.readByte (4 * i + 2)).toNat * 2 ^ 16 + (m.readByte (4 * i + 3)).toNat * 2 ^ 24

/-- 20_memory.md section 4, MemWrite and MemRead: reading what was written gives it back, every byte outside stays, and
the canonical form of the buffer is kept (the primitives are the spec's decision D1). -/
def Obligations.MemReadReturnsWhatMemWriteWrote : Prop :=
  ∀ (m : Memory) (pos : Nat) (ws : List Word), m.wf = true →
    (m.writeWords pos ws).readWords pos ws.length = ws
    ∧ (m.writeWords pos ws).wf = true
    ∧ ∀ a, a < 4 * pos ∨ 4 * (pos + ws.length) ≤ a → (m.writeWords pos ws).readByte a = m.readByte a

/-! ## Requests -/

/-- 10_state.md section 3 and 30_encoding.md section 3: presenting a well-formed operation on the ports and decoding
the request gives the operation back, with every operand. The port record is the model's (log entry 1). -/
def Obligations.DecodingAnEncodedOperationGivesItBack : Prop :=
  ∀ i : Instr, i.wellFormed = true → decode (encode i) = i

/-- 10_state.md section 3: whatever stands on the ports, the operation it selects has operands within their port
widths, and is the one that the table of operations gives its `op` (the spec's decisions D2, D3). -/
def Obligations.DecodedOperationsAreWellFormed : Prop :=
  ∀ r : Request, (decode r).wellFormed = true ∧ (decode r).opcode = r.op ∧ (decode r).rev.bit = r.rev

/-- opcode_table.json: a few of its rows, written out bit by bit, decode to their operation (the spec's decision D3). -/
def Obligations.TableWordsDecodeToTheirOperation : Prop :=
  decodeTableWord 8 0b0000 = some (.hdrEnc .revisionOne {})
  ∧ decodeTableWord 8 0b0101 = some (.layout .revisionOne {} {} 0)
  ∧ decodeTableWord 8 0b0111 = some (.unassigned7 .revisionOne)
  ∧ decodeTableWord 8 0b1011 = some (.mapaDec .revisionOne 0 0 0)
  ∧ decodeTableWord 8 0b1110 = some (.msgDec .revisionOne 0)

/-! ## Steps -/

/-- 00_scope.md section 7: a step with a request waiting first runs the operation that the request selects, as one
indivisible step, with the other inputs still waiting; so does a step after a table word was presented. The queue of
inputs is the model's (log entry 2). -/
def Obligations.StepRunsTheRequestedOperation : Prop :=
  (∀ (s : State) (r : Request) (rest : List Input), s.inbox = .request r :: rest →
    step s = exec (decode r) (s.withInbox rest))
  ∧ (∀ (s : State) (i : Instr) (rest : List Input), i.wellFormed = true → s.inbox = .request (encode i) :: rest →
    step s = exec i (s.withInbox rest))
  ∧ (∀ (s : State) (nbits w : Nat) (i : Instr), decodeTableWord nbits w = some i →
    step (s.withFetchWord nbits w) = exec i s)

/-- A step without a waiting input changes nothing: the block is idle (10_state.md section 7; the model's choice, log
entry 2). -/
def Obligations.IdleStepChangesNothing : Prop := ∀ s : State, s.inbox = [] → step s = .next s

/-- 00_scope.md section 7 and 10_state.md section 6: the environment's write changes one word of the buffer and nothing
else; a word that no buffer has is a fault (log entry 14). -/
def Obligations.EnvironmentWritesOneWord : Prop :=
  ∀ (s : State) (pos : Nat) (w : Word) (rest : List Input), s.mem.wf = true → s.inbox = .bufWrite pos w :: rest →
    (pos < 2 ^ 32 - 1 → ∃ mem, step s = .next { s with inbox := rest, mem := mem }
      ∧ mem.readWord pos = w
      ∧ ∀ a, a < 4 * pos ∨ 4 * pos + 4 ≤ a → mem.readByte a = s.mem.readByte a)
    ∧ (2 ^ 32 - 1 ≤ pos → step s = .fault .noSuchWord)

/-- 70_reset_and_hazards.md section 1 and 10_state.md section 7: reset loads the straps, leaves the three functions and
the buffer, and holds no response; a reset that cuts a MSG.ENC short may change the words below its `cap` besides
(decisions D6, D26; log entry 16). -/
def Obligations.ResetLoadsTheStraps : Prop :=
  (∀ (s : State) (rev : Revision) (tol : Bool) (rest : List Input), s.inbox = .reset rev tol :: rest →
    ∃ t, step s = .next t ∧ t.cfg.rev = rev ∧ t.cfg.tolSphPad = tol ∧ SameFunctions t.cfg s.cfg ∧ t.mem = s.mem
      ∧ t.rsp = none ∧ t.inbox = rest)
  ∧ (∀ (s : State) (r : Request) (rev : Revision) (tol : Bool) (rest : List Input),
    s.inbox = .resetDuring r rev tol :: rest →
    ∃ t, step s = .next t ∧ t.cfg.rev = rev ∧ t.cfg.tolSphPad = tol ∧ SameFunctions t.cfg s.cfg ∧ t.rsp = none
      ∧ t.inbox = rest ∧ (isMsgEnc (decode r) = false → t.mem = s.mem)
      ∧ ∀ a, 4 * r.cap.toNat ≤ a → t.mem.readByte a = s.mem.readByte a)

/-- 20_memory.md section 6, 60_exceptions.md section 7 and 70_reset_and_hazards.md section 3: a launch of MSG.ENC on a
buffer that anyone else uses, or of MSG.DEC on one that another instance's operation uses or another agent writes,
gets no meaning; a MSG.DEC beside an agent that is no operation and only reads, and every operation that reaches no
buffer, runs as it would alone (log entry 15). -/
def Obligations.SharedBufferLaunchIsRefused : Prop :=
  ∀ (s : State) (r : Request) (other : Sharer) (rest : List Input),
    s.inbox = .sharedRequest r other :: rest →
    (r.op = 0x6#4 → step s = .refused .bufferShared)
    ∧ (r.op = 0xE#4 → (other = .operation ∨ other = .writer) → step s = .refused .bufferShared)
    ∧ (r.op = 0xE#4 → other = .reader → step s = exec (decode r) (s.withInbox rest))
    ∧ (r.op ≠ 0x6#4 → r.op ≠ 0xE#4 → step s = exec (decode r) (s.withInbox rest))

/-- A step stops only on an environment write to a word that no buffer has, or on a launch that the sharing of the
buffer forbids; no request to a buffer of one's own ever stops (log entries 14 and 15). -/
def Obligations.StepStopsOnlyOnForbiddenInputs : Prop :=
  ∀ s : State, ¬ SafeStep s ↔
    (∃ pos w rest, s.inbox = .bufWrite pos w :: rest ∧ 2 ^ 32 - 1 ≤ pos)
    ∨ (∃ r other rest, s.inbox = .sharedRequest r other :: rest
        ∧ (r.op = 0x6#4 ∨ (r.op = 0xE#4 ∧ other ≠ .reader)))

/-- 10_state.md section 2: the three configuration functions never change, and the straps change by a reset only (the
spec's decision D6). -/
def Obligations.OnlyResetChangesTheConfiguration : Prop :=
  ∀ s t : State, step s = .next t →
    SameFunctions t.cfg s.cfg
    ∧ ((∀ rev tol rest, s.inbox ≠ .reset rev tol :: rest) →
        (∀ r rev tol rest, s.inbox ≠ .resetDuring r rev tol :: rest) → t.cfg = s.cfg)

/-- Every step from a state that meets the invariant gives one that does: the buffer stays in its canonical form (20_memory.md
section 1; log entries 10 and 11) and within the words a buffer can have. -/
def Obligations.StepKeepsTheInvariant : Prop := ∀ s t : State, s.Inv → step s = .next t → t.Inv

/-- The state after reset meets the invariant, whatever the straps; no response exists, nothing waits and, with the
default policy, the special-header padding is strict (10_state.md section 7; log entries 7, 9 and 11). -/
def Obligations.ResetMeetsTheInvariant : Prop :=
  (∀ (rev : Revision) (tol : Bool), (State.resetWith rev tol).Inv ∧ (State.resetWith rev tol).cfg.rev = rev
    ∧ (State.resetWith rev tol).cfg.tolSphPad = tol ∧ (State.resetWith rev tol).rsp = none
    ∧ (State.resetWith rev tol).inbox = [])
  ∧ State.reset.cfg.tolSphPad = false
end

