-- ==== Sys2Proof/Laws/Bits.lean ====
section
/-! SUPPORT. Slices as division and remainder, ORs of disjoint fields as sums (41_bitfield_encoder.md R106), and the
split and join functions. -/

namespace Sys2Proof.Machine

theorem slice_eq (v hi lo : Nat) : slice v hi lo = v / 2 ^ lo % 2 ^ (hi - lo + 1) := by
  unfold slice
  rw [Nat.and_two_pow_sub_one_eq_mod, Nat.shiftRight_eq_div_pow]

/-- OR with a field that starts above a number is addition (R106). -/
theorem or_shiftLeft_eq_add {v k : Nat} (h : v < 2 ^ k) (x : Nat) : v ||| (x <<< k) = v + x * 2 ^ k := by
  rw [Nat.lor_comm, ← Nat.shiftLeft_add_eq_or_of_lt h x, Nat.shiftLeft_eq, Nat.add_comm]

theorem fits_iff (v n : Nat) : fits v n = true ↔ v < 2 ^ n := by simp [fits]

theorem toWord_toNat {v : Nat} (h : v < 2 ^ 32) : (toWord v).toNat = v := by
  rw [toWord, BitVec.toNat_ofNat, Nat.mod_eq_of_lt h]

theorem toWord_of_toNat (w : Word) : toWord w.toNat = w := by simp [toWord]

theorem flag_eq (v bit : Nat) : flag v bit = decide (v / 2 ^ bit % 2 = 1) := by
  unfold flag
  rw [slice_eq]
  simp [Bool.beq_eq_decide_eq]

theorem flag_toNat (v bit : Nat) : (flag v bit).toNat = v / 2 ^ bit % 2 := by
  rw [flag_eq]
  rcases Nat.mod_two_eq_zero_or_one (v / 2 ^ bit) with h | h <;> simp [h]

/-! ## Split and join -/

theorem split42_eq (a : Nat) : split42 a = (a % 2 ^ 32, a / 2 ^ 32 % 2 ^ 4, a / 2 ^ 36 % 2 ^ 6) := by
  simp [split42, slice_eq]

theorem split58_eq (a : Nat) : split58 a = (a % 2 ^ 32, a / 2 ^ 32 % 2 ^ 4, a / 2 ^ 36 % 2 ^ 22) := by
  simp [split58, slice_eq]

theorem split36_eq (s : Nat) : split36 s = (s % 2 ^ 32, s / 2 ^ 32 % 2 ^ 4) := by
  simp [split36, slice_eq]

theorem split48_eq (a : Nat) : split48 a = (a % 2 ^ 32, a / 2 ^ 32 % 2 ^ 16) := by
  simp [split48, slice_eq]

theorem join_two_eq {low high : Nat} (hl : low < 2 ^ 32) : low ||| (high <<< 32) = low + high * 2 ^ 32 :=
  or_shiftLeft_eq_add hl high

theorem join_three_eq {low mid high : Nat} (hl : low < 2 ^ 32) (hm : mid < 2 ^ 4) :
    low ||| (mid <<< 32) ||| (high <<< 36) = low + mid * 2 ^ 32 + high * 2 ^ 36 := by
  rw [or_shiftLeft_eq_add hl, or_shiftLeft_eq_add (by omega)]

theorem join42_eq {low mid : Nat} (hl : low < 2 ^ 32) (hm : mid < 2 ^ 4) (high : Nat) :
    join42 low mid high = low + mid * 2 ^ 32 + high * 2 ^ 36 := join_three_eq hl hm

theorem join58_eq {low mid : Nat} (hl : low < 2 ^ 32) (hm : mid < 2 ^ 4) (high : Nat) :
    join58 low mid high = low + mid * 2 ^ 32 + high * 2 ^ 36 := join_three_eq hl hm

theorem join36_eq {low : Nat} (hl : low < 2 ^ 32) (high : Nat) : join36 low high = low + high * 2 ^ 32 :=
  join_two_eq hl

theorem join48_eq {low : Nat} (hl : low < 2 ^ 32) (high : Nat) : join48 low high = low + high * 2 ^ 32 :=
  join_two_eq hl

end Sys2Proof.Machine
end

