-- ==== Sys2Proof/Laws/Memory.lean ====
section
/-! SUPPORT. The buffer: what a write does to every byte and word, and that every operation keeps the canonical form. -/

namespace Sys2Proof.Machine.Memory

/-! ## One byte -/

theorem readByte_below {lo : Nat} {m : Memory} (h : wfAbove lo m = true) {a : Nat} (ha : a < lo) :
    readByte m a = unlisted := by
  induction m generalizing lo with
  | nil => rfl
  | cons c rest ih =>
    obtain ⟨k, b⟩ := c
    simp only [wfAbove, Bool.and_eq_true, decide_eq_true_eq] at h
    obtain ⟨⟨hk, -⟩, hr⟩ := h
    simp only [readByte]
    rw [if_neg (by omega), ih hr (by omega)]

theorem readByte_writeByte_ne (m : Memory) {a x : Nat} (b : Byte) (h : x ≠ a) :
    readByte (writeByte m a b) x = readByte m x := by
  induction m with
  | nil => simp only [writeByte]; split <;> simp [readByte, h]
  | cons c rest ih =>
    obtain ⟨k, d⟩ := c
    simp only [writeByte]
    split
    · split <;> simp [readByte, h]
    · split
      · subst_vars
        split <;> simp [readByte, h]
      · simp [readByte, ih]

theorem readByte_writeByte_same {lo : Nat} {m : Memory} (h : wfAbove lo m = true) (a : Nat) (b : Byte) :
    readByte (writeByte m a b) a = b := by
  induction m generalizing lo with
  | nil => simp only [writeByte]; split <;> simp_all [readByte]
  | cons c rest ih =>
    obtain ⟨k, d⟩ := c
    simp only [wfAbove, Bool.and_eq_true, decide_eq_true_eq] at h
    obtain ⟨⟨-, -⟩, hr⟩ := h
    simp only [writeByte]
    split
    · split
      · next hak hb =>
        simp only [readByte]
        rw [if_neg (by omega), readByte_below hr (by omega), hb]
      · simp [readByte]
    · split
      · next hak =>
        split
        · next hb => subst hak; rw [readByte_below hr (by omega), hb]
        · simp [readByte]
      · next hne => simp [readByte, hne, ih hr]

theorem wfAbove_writeByte {lo : Nat} {m : Memory} (h : wfAbove lo m = true) {a : Nat} (ha : lo ≤ a) (b : Byte) :
    wfAbove lo (writeByte m a b) = true := by
  induction m generalizing lo with
  | nil => simp only [writeByte]; split <;> simp_all [wfAbove]
  | cons c rest ih =>
    obtain ⟨k, d⟩ := c
    simp only [wfAbove, Bool.and_eq_true, decide_eq_true_eq] at h
    obtain ⟨⟨hk, hd⟩, hr⟩ := h
    have weaken : ∀ {l l' : Nat} {m : Memory}, wfAbove l m = true → l' ≤ l → wfAbove l' m = true := by
      intro l l' m hm hl
      cases m with
      | nil => rfl
      | cons c rest =>
        simp only [wfAbove, Bool.and_eq_true, decide_eq_true_eq] at hm ⊢
        exact ⟨⟨by omega, hm.1.2⟩, hm.2⟩
    simp only [writeByte]
    split
    · split
      · simp only [wfAbove, Bool.and_eq_true, decide_eq_true_eq]; exact ⟨⟨hk, hd⟩, hr⟩
      · simp only [wfAbove, Bool.and_eq_true, decide_eq_true_eq]
        exact ⟨⟨ha, ‹_›⟩, ⟨by omega, hd⟩, hr⟩
    · split
      · split
        · exact weaken hr (by omega)
        · simp only [wfAbove, Bool.and_eq_true, decide_eq_true_eq]
          exact ⟨⟨ha, ‹_›⟩, by subst_vars; exact hr⟩
      · simp only [wfAbove, Bool.and_eq_true, decide_eq_true_eq]
        exact ⟨⟨hk, hd⟩, ih hr (by omega)⟩

theorem wf_nil : wf [] = true := rfl

theorem wf_writeByte {m : Memory} (h : m.wf = true) (a : Nat) (b : Byte) : (m.writeByte a b).wf = true :=
  wfAbove_writeByte h (Nat.zero_le a) b

theorem readByte_writeByte {m : Memory} (h : m.wf = true) (a x : Nat) (b : Byte) :
    (m.writeByte a b).readByte x = if x = a then b else m.readByte x := by
  split
  · next hx => rw [hx]; exact readByte_writeByte_same h a b
  · next hx => exact readByte_writeByte_ne m b hx

theorem mem_writeByte {m : Memory} {a : Nat} {b : Byte} {c : Host.Cell} (h : c ∈ m.writeByte a b) :
    c ∈ m ∨ c = (a, b) := by
  induction m with
  | nil => simp only [writeByte] at h; split at h <;> simp_all
  | cons d rest ih =>
    obtain ⟨k, e⟩ := d
    simp only [writeByte] at h
    split at h
    · split at h
      · exact .inl h
      · rcases List.mem_cons.1 h with h | h
        · exact .inr h
        · exact .inl h
    · split at h
      · split at h
        · exact .inl (List.mem_cons_of_mem _ h)
        · rcases List.mem_cons.1 h with h | h
          · exact .inr h
          · exact .inl (List.mem_cons_of_mem _ h)
      · rcases List.mem_cons.1 h with h | h
        · exact .inl (h ▸ List.mem_cons_self)
        · rcases ih h with h | h
          · exact .inl (List.mem_cons_of_mem _ h)
          · exact .inr h

theorem inSpace_iff {m : Memory} : m.inSpace = true ↔ ∀ c ∈ m, c.1 < addressLimit := by
  simp [inSpace]

theorem inSpace_writeByte {m : Memory} (h : m.inSpace = true) {a : Nat} (ha : a < addressLimit) (b : Byte) :
    (m.writeByte a b).inSpace = true := by
  rw [inSpace_iff] at h ⊢
  intro c hc
  rcases mem_writeByte hc with hc | rfl
  · exact h c hc
  · exact ha

/-! ## One word -/

theorem wordByte_append (w : Word) : wordByte w 3 ++ wordByte w 2 ++ wordByte w 1 ++ wordByte w 0 = w := by
  apply BitVec.eq_of_getLsbD_eq
  intro i hi
  simp only [BitVec.getLsbD_append, wordByte, BitVec.getLsbD_extractLsb']
  by_cases h0 : i < 8
  · simp [h0]
  · by_cases h1 : i < 16
    · simp [h0, show i - 8 < 8 by omega, show 8 + (i - 8) = i by omega]
    · by_cases h2 : i < 24
      · simp [h0, show ¬ i - 8 < 8 by omega, show i - 8 - 8 < 8 by omega, show 16 + (i - 8 - 8) = i by omega]
      · simp [h0, show ¬ i - 8 < 8 by omega, show ¬ i - 8 - 8 < 8 by omega, show i - 8 - 8 - 8 < 8 by omega,
          show 24 + (i - 8 - 8 - 8) = i by omega]

theorem readByte_writeWord_ne (m : Memory) {i a : Nat} (w : Word) (h : a < 4 * i ∨ 4 * i + 4 ≤ a) :
    (m.writeWord i w).readByte a = m.readByte a := by
  unfold writeWord
  rw [readByte_writeByte_ne _ _ (by omega), readByte_writeByte_ne _ _ (by omega),
    readByte_writeByte_ne _ _ (by omega), readByte_writeByte_ne _ _ (by omega)]

theorem readWord_writeWord_ne (m : Memory) {i j : Nat} (w : Word) (h : j ≠ i) :
    (m.writeWord i w).readWord j = m.readWord j := by
  unfold readWord
  rw [readByte_writeWord_ne _ _ (by omega), readByte_writeWord_ne _ _ (by omega),
    readByte_writeWord_ne _ _ (by omega), readByte_writeWord_ne _ _ (by omega)]

theorem wf_writeWord {m : Memory} (h : m.wf = true) (i : Nat) (w : Word) : (m.writeWord i w).wf = true :=
  wf_writeByte (wf_writeByte (wf_writeByte (wf_writeByte h _ _) _ _) _ _) _ _

theorem inSpace_writeWord {m : Memory} (h : m.inSpace = true) {i : Nat} (hi : i < 2 ^ 32 - 1) (w : Word) :
    (m.writeWord i w).inSpace = true := by
  have hl : 4 * i + 3 < addressLimit := by unfold addressLimit; omega
  exact inSpace_writeByte (inSpace_writeByte (inSpace_writeByte (inSpace_writeByte h (by omega) _) (by omega) _)
    (by omega) _) (by omega) _

theorem readWord_writeWord_same {m : Memory} (h : m.wf = true) (i : Nat) (w : Word) :
    (m.writeWord i w).readWord i = w := by
  have h0 := wf_writeByte h (4 * i) (wordByte w 0)
  have h1 := wf_writeByte h0 (4 * i + 1) (wordByte w 1)
  have h2 := wf_writeByte h1 (4 * i + 2) (wordByte w 2)
  unfold readWord writeWord
  rw [readByte_writeByte h2, if_pos rfl, readByte_writeByte h2, if_neg (by omega), readByte_writeByte h1,
    if_pos rfl, readByte_writeByte h2, if_neg (by omega), readByte_writeByte h1, if_neg (by omega),
    readByte_writeByte h0, if_pos rfl, readByte_writeByte h2, if_neg (by omega), readByte_writeByte h1,
    if_neg (by omega), readByte_writeByte h0, if_neg (by omega), readByte_writeByte h, if_pos rfl]
  exact wordByte_append w

/-! ## Many words -/

theorem writeWords_append (m : Memory) (pos : Nat) (us vs : List Word) :
    m.writeWords pos (us ++ vs) = (m.writeWords pos us).writeWords (pos + us.length) vs := by
  induction us generalizing m pos with
  | nil => rfl
  | cons u us ih =>
    simp only [List.cons_append, writeWords, ih, List.length_cons]
    congr 1
    omega

theorem wf_writeWords {m : Memory} (h : m.wf = true) (pos : Nat) (ws : List Word) :
    (m.writeWords pos ws).wf = true := by
  induction ws generalizing m pos with
  | nil => exact h
  | cons w ws ih => exact ih (wf_writeWord h pos w) (pos + 1)

theorem inSpace_writeWords {m : Memory} (h : m.inSpace = true) {pos : Nat} {ws : List Word}
    (hp : pos + ws.length ≤ 2 ^ 32 - 1) : (m.writeWords pos ws).inSpace = true := by
  induction ws generalizing m pos with
  | nil => exact h
  | cons w ws ih =>
    simp only [List.length_cons] at hp
    exact ih (inSpace_writeWord h (by omega) w) (by omega)

theorem readByte_writeWords_ne (m : Memory) {pos a : Nat} (ws : List Word)
    (h : a < 4 * pos ∨ 4 * (pos + ws.length) ≤ a) : (m.writeWords pos ws).readByte a = m.readByte a := by
  induction ws generalizing m pos with
  | nil => rfl
  | cons w ws ih =>
    simp only [List.length_cons] at h
    simp only [writeWords]
    rw [ih _ (by omega), readByte_writeWord_ne _ _ (by omega)]

theorem readWord_writeWords_ne (m : Memory) {pos i : Nat} (ws : List Word)
    (h : i < pos ∨ pos + ws.length ≤ i) : (m.writeWords pos ws).readWord i = m.readWord i := by
  unfold readWord
  rw [readByte_writeWords_ne _ _ (by omega), readByte_writeWords_ne _ _ (by omega),
    readByte_writeWords_ne _ _ (by omega), readByte_writeWords_ne _ _ (by omega)]

/-- Reading back inside what was written (R46, R49). -/
theorem readWord_writeWords {m : Memory} (h : m.wf = true) (pos : Nat) {ws : List Word} {k : Nat}
    (hk : k < ws.length) : (m.writeWords pos ws).readWord (pos + k) = ws[k] := by
  induction ws generalizing m pos k with
  | nil => exact absurd hk (Nat.not_lt_zero k)
  | cons w ws ih =>
    simp only [writeWords]
    cases k with
    | zero =>
      rw [readWord_writeWords_ne _ _ (by omega)]
      exact readWord_writeWord_same h pos w
    | succ k =>
      simp only [List.length_cons] at hk
      have := ih (wf_writeWord h pos w) (pos + 1) (k := k) (by omega)
      rw [show pos + (k + 1) = pos + 1 + k by omega, this]
      rfl

theorem readWords_length (m : Memory) (pos n : Nat) : (m.readWords pos n).length = n := by
  induction n generalizing pos with
  | zero => rfl
  | succ n ih => simp [readWords, ih]

theorem readWords_getElem (m : Memory) (pos n : Nat) {k : Nat} (hk : k < (m.readWords pos n).length) :
    (m.readWords pos n)[k] = m.readWord (pos + k) := by
  induction n generalizing pos k with
  | zero => simp [readWords] at hk
  | succ n ih =>
    cases k with
    | zero => rfl
    | succ k =>
      simp only [readWords, List.getElem_cons_succ]
      rw [ih]
      congr 1
      omega

/-! ## havoc -/

theorem wf_havoc {m : Memory} (h : m.wf = true) (draw n : Nat) : (m.havoc draw n).wf = true := by
  induction n with
  | zero => exact h
  | succ n ih => exact wf_writeWord ih _ _

theorem inSpace_havoc {m : Memory} (h : m.inSpace = true) (draw : Nat) {n : Nat} (hn : n ≤ 2 ^ 32 - 1) :
    (m.havoc draw n).inSpace = true := by
  induction n with
  | zero => exact h
  | succ n ih => exact inSpace_writeWord (ih (by omega)) (by omega) _

theorem readByte_havoc_ne (m : Memory) (draw : Nat) {n a : Nat} (h : 4 * n ≤ a) :
    (m.havoc draw n).readByte a = m.readByte a := by
  induction n with
  | zero => rfl
  | succ n ih =>
    simp only [havoc]
    rw [readByte_writeWord_ne _ _ (by omega), ih (by omega)]

theorem readWord_havoc {m : Memory} (h : m.wf = true) (draw : Nat) {n i : Nat} (hi : i < n) :
    (m.havoc draw n).readWord i = Config.havocWord draw i := by
  induction n with
  | zero => exact absurd hi (Nat.not_lt_zero i)
  | succ n ih =>
    simp only [havoc]
    by_cases hin : i = n
    · subst hin; exact readWord_writeWord_same (wf_havoc h draw i) i _
    · rw [readWord_writeWord_ne _ _ hin, ih (by omega)]

end Sys2Proof.Machine.Memory
end

