-- ==== Sys2Proof/Laws/Pack.lean ====
section
/-! SUPPORT. The pack and unpack functions in arithmetic: what each answers, once for every operand. -/

namespace Sys2Proof.Machine

theorem requireFits_of_lt {v n : Nat} (h : v < 2 ^ n) (e : Err) : requireFits v n e = .ok () := by
  simp [requireFits, fits, h]

theorem requireFits_of_ge {v n : Nat} (h : 2 ^ n ≤ v) (e : Err) : requireFits v n e = .error e := by
  simp [requireFits, fits, Nat.not_lt.2 h]

@[simp] theorem ok_bind {α β : Type} (a : α) (f : α → Except Err β) : (Except.ok a >>= f) = f a := rfl

@[simp] theorem error_bind {α β : Type} (e : Err) (f : α → Except Err β) : (Except.error e >>= f) = .error e := rfl

theorem requireFits_bind {β : Type} (v n : Nat) (e : Err) (k : Unit → Except Err β) :
    (requireFits v n e >>= k) = if v < 2 ^ n then k () else .error e := by
  by_cases h : v < 2 ^ n
  · rw [requireFits_of_lt h, if_pos h, ok_bind]
  · rw [requireFits_of_ge (Nat.not_lt.1 h), if_neg h, error_bind]

/-- The room check as a guard (R45). -/
theorem need_bind {β : Type} (cap pos n : Nat) (k : Unit → Except Err β) :
    (need cap pos n >>= k) = if pos + n ≤ cap then k () else .error .bufferTooSmall := by
  unfold need
  by_cases h : pos + n ≤ cap
  · rw [if_neg (by omega), if_pos h, ok_bind]
  · rw [if_pos (by omega), if_neg h, error_bind]

/-! ## Packed words as numbers -/

/-- Header word 1 (R60). -/
def hdrWord1 (f : HdrFields) : Nat :=
  f.type + f.countA * 2 ^ 16 + f.countB * 2 ^ 20 + f.countC * 2 ^ 24 + f.countD * 2 ^ 28

/-- Header word 2 (R61). -/
def hdrWord2 (c : Counts) : Nat := c.numDataWords + c.mode * 2 ^ 10 + c.hasSpecialHeader.toNat * 2 ^ 31

/-- The special-header word (R62). -/
def sphWord (f : SphFields) : Nat := f.sendPid.toNat + f.numCopyHandles * 2 + f.numMoveHandles * 2 ^ 5

/-- In-pointer word 1 (R64). -/
def inPtrWord1 (d : InPtr) : Nat :=
  d.index + d.address / 2 ^ 36 * 2 ^ 6 + d.address / 2 ^ 32 % 2 ^ 4 * 2 ^ 12 + d.size * 2 ^ 16

/-- Map-alias word 3 (R65). -/
def mapAliasWord3 (d : MapAlias) : Nat :=
  d.mmode + d.address / 2 ^ 36 * 2 ^ 2 + d.size / 2 ^ 32 * 2 ^ 24 + d.address / 2 ^ 32 % 2 ^ 4 * 2 ^ 28

/-- Out-pointer word 2 (R66). -/
def outPtrWord2 (d : OutPtr) : Nat := d.address / 2 ^ 32 + d.size * 2 ^ 16

theorem hdrWord1_lt {f : HdrFields} (h : f.Fits) : hdrWord1 f < 2 ^ 32 := by
  obtain ⟨h0, h1, h2, h3, h4, -, -⟩ := h
  unfold hdrWord1; omega

theorem hdrWord2_lt {c : Counts} (h : c.Fits) : hdrWord2 c < 2 ^ 32 := by
  obtain ⟨-, -, -, -, h5, h6⟩ := h
  have := Bool.toNat_lt c.hasSpecialHeader
  unfold hdrWord2; omega

theorem sphWord_lt {f : SphFields} (h : f.Fits) : sphWord f < 2 ^ 9 := by
  obtain ⟨h0, h1⟩ := h
  have := Bool.toNat_lt f.sendPid
  unfold sphWord; omega

theorem inPtrWord1_lt {d : InPtr} (h : d.Fits) : inPtrWord1 d < 2 ^ 32 := by
  obtain ⟨h0, h1, h2⟩ := h
  unfold inPtrWord1; omega

theorem mapAliasWord3_lt {d : MapAlias} (h : d.Fits) : mapAliasWord3 d < 2 ^ 32 := by
  obtain ⟨h0, h1, h2⟩ := h
  unfold mapAliasWord3; omega

theorem outPtrWord2_lt {d : OutPtr} (h : d.Fits) : outPtrWord2 d < 2 ^ 32 := by
  obtain ⟨h0, h1⟩ := h
  unfold outPtrWord2; omega

/-! ## Pack -/

theorem packHdr_ok {f : HdrFields} (h : f.Fits) :
    packHdr f = .ok (toWord (hdrWord1 f), toWord (hdrWord2 f.toCounts)) := by
  obtain ⟨h0, h1, h2, h3, h4, h5, h6⟩ := h
  have e1 : f.type ||| (f.countA <<< 16) ||| (f.countB <<< 20) ||| (f.countC <<< 24) ||| (f.countD <<< 28)
      = hdrWord1 f := by
    rw [or_shiftLeft_eq_add (k := 16) (by omega), or_shiftLeft_eq_add (k := 20) (by omega),
      or_shiftLeft_eq_add (k := 24) (by omega), or_shiftLeft_eq_add (k := 28) (by omega), hdrWord1]
  have e2 : f.numDataWords ||| (f.mode <<< 10) ||| (f.hasSpecialHeader.toNat <<< 31) = hdrWord2 f.toCounts := by
    rw [or_shiftLeft_eq_add (k := 10) (by omega), or_shiftLeft_eq_add (k := 31) (by omega), hdrWord2]
  simp only [packHdr, requireFits_of_lt h0, requireFits_of_lt (n := 4) h1, requireFits_of_lt (n := 4) h2,
    requireFits_of_lt (n := 4) h3, requireFits_of_lt (n := 4) h4, requireFits_of_lt (n := 10) h5,
    requireFits_of_lt (n := 4) h6, ok_bind, e1, e2]

theorem packHdr_error {f : HdrFields} (h : ¬ f.Fits) : packHdr f = .error .fieldOverflow := by
  simp only [HdrFields.Fits, Counts.Fits] at h
  simp only [packHdr, requireFits_bind]
  repeat' split
  all_goals first
    | rfl
    | (exfalso; omega)

theorem packSph_ok {f : SphFields} (h : f.Fits) : packSph f = .ok (toWord (sphWord f)) := by
  obtain ⟨h0, h1⟩ := h
  have hb := Bool.toNat_lt f.sendPid
  have e : f.sendPid.toNat ||| (f.numCopyHandles <<< 1) ||| (f.numMoveHandles <<< 5) = sphWord f := by
    rw [or_shiftLeft_eq_add (k := 1) (by omega), or_shiftLeft_eq_add (k := 5) (by omega), sphWord, Nat.pow_one]
  simp only [packSph, requireFits_of_lt (n := 4) h0, requireFits_of_lt (n := 4) h1, ok_bind, e]

theorem packSph_error {f : SphFields} (h : ¬ f.Fits) : packSph f = .error .fieldOverflow := by
  simp only [SphFields.Fits] at h
  simp only [packSph, requireFits_bind]
  repeat' split
  all_goals first
    | rfl
    | (exfalso; omega)

theorem packInPtr_ok {d : InPtr} (h : d.Fits) :
    packInPtr d = .ok (toWord (inPtrWord1 d), toWord (d.address % 2 ^ 32)) := by
  obtain ⟨h0, h1, h2⟩ := h
  have e : d.index ||| ((d.address / 2 ^ 36 % 2 ^ 6) <<< 6) ||| ((d.address / 2 ^ 32 % 2 ^ 4) <<< 12)
      ||| (d.size <<< 16) = inPtrWord1 d := by
    rw [or_shiftLeft_eq_add (k := 6) (by omega), or_shiftLeft_eq_add (k := 12) (by omega),
      or_shiftLeft_eq_add (k := 16) (by omega), inPtrWord1,
      Nat.mod_eq_of_lt (a := d.address / 2 ^ 36) (by omega)]
  simp only [packInPtr, requireFits_of_lt h0, requireFits_of_lt h1, requireFits_of_lt (n := 6) h2, ok_bind,
    split42_eq, e]

theorem packInPtr_addressOutOfRange {d : InPtr} (h : 2 ^ 42 ≤ d.address) :
    packInPtr d = .error .addressOutOfRange := by
  simp only [packInPtr, requireFits_of_ge h, error_bind]

theorem packInPtr_fieldOverflow {d : InPtr} (h : d.address < 2 ^ 42) (h' : ¬ (d.size < 2 ^ 16 ∧ d.index < 64)) :
    packInPtr d = .error .fieldOverflow := by
  simp only [packInPtr, requireFits_of_lt h, ok_bind]
  by_cases hs : d.size < 2 ^ 16
  · have hi : 2 ^ 6 ≤ d.index := by simp only [hs, true_and] at h'; omega
    simp only [requireFits_of_lt hs, requireFits_of_ge hi, ok_bind, error_bind]
  · simp only [requireFits_of_ge (Nat.not_lt.1 hs), error_bind]

theorem packMapAlias_ok {d : MapAlias} (h : d.Fits) :
    packMapAlias d
      = .ok (toWord (d.size % 2 ^ 32), toWord (d.address % 2 ^ 32), toWord (mapAliasWord3 d)) := by
  obtain ⟨h0, h1, h2⟩ := h
  have e : d.mmode ||| ((d.address / 2 ^ 36 % 2 ^ 22) <<< 2) ||| ((d.size / 2 ^ 32 % 2 ^ 4) <<< 24)
      ||| ((d.address / 2 ^ 32 % 2 ^ 4) <<< 28) = mapAliasWord3 d := by
    rw [or_shiftLeft_eq_add (k := 2) (by omega), or_shiftLeft_eq_add (k := 24) (by omega),
      or_shiftLeft_eq_add (k := 28) (by omega), mapAliasWord3, Nat.mod_eq_of_lt (a := d.address / 2 ^ 36) (by omega),
      Nat.mod_eq_of_lt (a := d.size / 2 ^ 32) (by omega)]
  simp only [packMapAlias, requireFits_of_lt h0, requireFits_of_lt h1, requireFits_of_lt (n := 2) h2, ok_bind,
    split58_eq, split36_eq, e]

theorem packMapAlias_addressOutOfRange {d : MapAlias} (h : 2 ^ 58 ≤ d.address) :
    packMapAlias d = .error .addressOutOfRange := by
  simp only [packMapAlias, requireFits_of_ge h, error_bind]

theorem packMapAlias_fieldOverflow {d : MapAlias} (h : d.address < 2 ^ 58)
    (h' : ¬ (d.size < 2 ^ 36 ∧ d.mmode < 4)) : packMapAlias d = .error .fieldOverflow := by
  simp only [packMapAlias, requireFits_of_lt h, ok_bind]
  by_cases hs : d.size < 2 ^ 36
  · have hi : 2 ^ 2 ≤ d.mmode := by simp only [hs, true_and] at h'; omega
    simp only [requireFits_of_lt hs, requireFits_of_ge hi, ok_bind, error_bind]
  · simp only [requireFits_of_ge (Nat.not_lt.1 hs), error_bind]

theorem packOutPtr_ok {d : OutPtr} (h : d.Fits) :
    packOutPtr d = .ok (toWord (d.address % 2 ^ 32), toWord (outPtrWord2 d)) := by
  obtain ⟨h0, h1⟩ := h
  have e : (d.address / 2 ^ 32 % 2 ^ 16) ||| (d.size <<< 16) = outPtrWord2 d := by
    rw [or_shiftLeft_eq_add (by omega), outPtrWord2, Nat.mod_eq_of_lt (a := d.address / 2 ^ 32) (by omega)]
  simp only [packOutPtr, requireFits_of_lt h0, requireFits_of_lt h1, ok_bind, split48_eq, e]

theorem packOutPtr_addressOutOfRange {d : OutPtr} (h : 2 ^ 48 ≤ d.address) :
    packOutPtr d = .error .addressOutOfRange := by
  simp only [packOutPtr, requireFits_of_ge h, error_bind]

theorem packOutPtr_fieldOverflow {d : OutPtr} (h : d.address < 2 ^ 48) (h' : 2 ^ 16 ≤ d.size) :
    packOutPtr d = .error .fieldOverflow := by
  simp only [packOutPtr, requireFits_of_lt h, requireFits_of_ge h', ok_bind, error_bind]

/-! ## Unpack -/

theorem unpackHdr_eq (w1 w2 : Word) :
    unpackHdr w1 w2 =
      { type := w1.toNat % 2 ^ 16, countA := w1.toNat / 2 ^ 16 % 16, countB := w1.toNat / 2 ^ 20 % 16,
        countC := w1.toNat / 2 ^ 24 % 16, countD := w1.toNat / 2 ^ 28 % 16, numDataWords := w2.toNat % 1024,
        mode := w2.toNat / 2 ^ 10 % 16, hasSpecialHeader := decide (w2.toNat / 2 ^ 31 % 2 = 1) } := by
  simp [unpackHdr, slice_eq, flag_eq]

theorem unpackInPtr_eq (w1 w2 : Word) :
    unpackInPtr w1 w2 =
      { index := w1.toNat % 64, size := w1.toNat / 2 ^ 16,
        address := w2.toNat + w1.toNat / 2 ^ 12 % 16 * 2 ^ 32 + w1.toNat / 2 ^ 6 % 64 * 2 ^ 36 } := by
  have h1 := w1.isLt
  have h2 := w2.isLt
  simp only [unpackInPtr, slice_eq]
  rw [join42_eq h2 (by omega)]
  simp only [InPtr.mk.injEq]
  omega

theorem unpackMapAlias_eq (w1 w2 w3 : Word) :
    unpackMapAlias w1 w2 w3 =
      { address := w2.toNat + w3.toNat / 2 ^ 28 * 2 ^ 32 + w3.toNat / 4 % 2 ^ 22 * 2 ^ 36,
        size := w1.toNat + w3.toNat / 2 ^ 24 % 16 * 2 ^ 32, mmode := w3.toNat % 4 } := by
  have h1 := w1.isLt
  have h2 := w2.isLt
  have h3 := w3.isLt
  simp only [unpackMapAlias, slice_eq]
  rw [join58_eq h2 (by omega), join36_eq h1]
  simp only [MapAlias.mk.injEq]
  omega

theorem unpackOutPtr_eq (w1 w2 : Word) :
    unpackOutPtr w1 w2 =
      { address := w1.toNat + w2.toNat % 2 ^ 16 * 2 ^ 32, size := w2.toNat / 2 ^ 16 } := by
  have h1 := w1.isLt
  have h2 := w2.isLt
  simp only [unpackOutPtr, slice_eq]
  rw [join48_eq h1]
  simp only [OutPtr.mk.injEq]
  omega

theorem unpackSph_eq (cfg : Cfg) (w : Word) :
    unpackSph cfg w =
      if cfg.tolSphPad = false ∧ w.toNat / 2 ^ 9 ≠ 0 then .error .malformedSpecialHeader
      else .ok ⟨decide (w.toNat % 2 = 1), w.toNat / 2 % 16, w.toNat / 2 ^ 5 % 16⟩ := by
  have h := w.isLt
  have e : w.toNat / 2 ^ 9 % 2 ^ (31 - 9 + 1) = w.toNat / 2 ^ 9 := by omega
  simp only [unpackSph, slice_eq, flag_eq, e]
  simp

/-! ## Unpack after pack (R127) -/

theorem unpackHdr_pack {f : HdrFields} (h : f.Fits) :
    unpackHdr (toWord (hdrWord1 f)) (toWord (hdrWord2 f.toCounts)) = f := by
  rw [unpackHdr_eq, toWord_toNat (hdrWord1_lt h), toWord_toNat (hdrWord2_lt h.2)]
  obtain ⟨⟨a, b, c, d, n, m, sp⟩, t⟩ := f
  obtain ⟨h0, h1, h2, h3, h4, h5, h6⟩ := h
  simp only at h0 h1 h2 h3 h4 h5 h6
  simp only [hdrWord1, hdrWord2, HdrFields.mk.injEq, Counts.mk.injEq]
  have hb := Bool.toNat_lt sp
  refine ⟨⟨by omega, by omega, by omega, by omega, by omega, by omega, ?_⟩, by omega⟩
  cases sp <;> simp <;> omega

theorem unpackSph_pack {f : SphFields} (h : f.Fits) (cfg : Cfg) :
    unpackSph cfg (toWord (sphWord f)) = .ok f := by
  have hl := sphWord_lt h
  rw [unpackSph_eq, toWord_toNat (by omega), if_neg (by omega)]
  obtain ⟨p, c, m⟩ := f
  obtain ⟨h0, h1⟩ := h
  simp only at h0 h1
  clear hl
  have hb := Bool.toNat_lt p
  have e : sphWord ⟨p, c, m⟩ % 2 = p.toNat := by simp only [sphWord]; omega
  simp only [Except.ok.injEq, SphFields.mk.injEq]
  refine ⟨?_, by simp only [sphWord]; omega, by simp only [sphWord]; omega⟩
  rw [e]
  cases p <;> rfl

theorem unpackInPtr_pack {d : InPtr} (h : d.Fits) :
    unpackInPtr (toWord (inPtrWord1 d)) (toWord (d.address % 2 ^ 32)) = d := by
  rw [unpackInPtr_eq, toWord_toNat (inPtrWord1_lt h), toWord_toNat (by omega)]
  obtain ⟨i, a, z⟩ := d
  obtain ⟨h0, h1, h2⟩ := h
  simp only at h0 h1 h2
  have key : ∀ high mid, high < 64 → mid < 16 →
      (i + high * 2 ^ 6 + mid * 2 ^ 12 + z * 2 ^ 16) % 64 = i
      ∧ (i + high * 2 ^ 6 + mid * 2 ^ 12 + z * 2 ^ 16) / 2 ^ 12 % 16 = mid
      ∧ (i + high * 2 ^ 6 + mid * 2 ^ 12 + z * 2 ^ 16) / 2 ^ 6 % 64 = high
      ∧ (i + high * 2 ^ 6 + mid * 2 ^ 12 + z * 2 ^ 16) / 2 ^ 16 = z := by
    intro high mid hh hm
    clear h0
    refine ⟨?_, ?_, ?_, ?_⟩ <;> omega
  obtain ⟨k1, k2, k3, k4⟩ := key (a / 2 ^ 36) (a / 2 ^ 32 % 2 ^ 4) (by omega) (by omega)
  simp only [inPtrWord1, InPtr.mk.injEq]
  refine ⟨k1, ?_, k4⟩
  rw [k2, k3]
  omega

theorem unpackMapAlias_pack {d : MapAlias} (h : d.Fits) :
    unpackMapAlias (toWord (d.size % 2 ^ 32)) (toWord (d.address % 2 ^ 32)) (toWord (mapAliasWord3 d)) = d := by
  rw [unpackMapAlias_eq, toWord_toNat (mapAliasWord3_lt h), toWord_toNat (by omega), toWord_toNat (by omega)]
  obtain ⟨a, z, m⟩ := d
  obtain ⟨h0, h1, h2⟩ := h
  simp only at h0 h1 h2
  have key : ∀ high mid sizeHigh, high < 2 ^ 22 → mid < 16 → sizeHigh < 16 →
      (m + high * 2 ^ 2 + sizeHigh * 2 ^ 24 + mid * 2 ^ 28) / 2 ^ 28 = mid
      ∧ (m + high * 2 ^ 2 + sizeHigh * 2 ^ 24 + mid * 2 ^ 28) / 4 % 2 ^ 22 = high
      ∧ (m + high * 2 ^ 2 + sizeHigh * 2 ^ 24 + mid * 2 ^ 28) / 2 ^ 24 % 16 = sizeHigh
      ∧ (m + high * 2 ^ 2 + sizeHigh * 2 ^ 24 + mid * 2 ^ 28) % 4 = m := by
    intro high mid sizeHigh hh hm hs
    clear h0 h1
    refine ⟨?_, ?_, ?_, ?_⟩ <;> omega
  obtain ⟨k1, k2, k3, k4⟩ :=
    key (a / 2 ^ 36) (a / 2 ^ 32 % 2 ^ 4) (z / 2 ^ 32) (by omega) (by omega) (by omega)
  simp only [mapAliasWord3, MapAlias.mk.injEq]
  refine ⟨?_, ?_, k4⟩
  · rw [k1, k2]
    omega
  · rw [k3]
    omega

theorem unpackOutPtr_pack {d : OutPtr} (h : d.Fits) :
    unpackOutPtr (toWord (d.address % 2 ^ 32)) (toWord (outPtrWord2 d)) = d := by
  rw [unpackOutPtr_eq, toWord_toNat (outPtrWord2_lt h), toWord_toNat (by omega)]
  obtain ⟨a, z⟩ := d
  obtain ⟨h0, h1⟩ := h
  simp only at h0 h1
  simp only [outPtrWord2, OutPtr.mk.injEq]
  omega

/-! ## Every unpacked field fits (R126) -/

theorem unpackHdr_fits (w1 w2 : Word) : (unpackHdr w1 w2).Fits := by
  rw [unpackHdr_eq]
  simp only [HdrFields.Fits, Counts.Fits]
  omega

theorem unpackSph_fits {cfg : Cfg} {w : Word} {f : SphFields} (h : unpackSph cfg w = .ok f) : f.Fits := by
  rw [unpackSph_eq] at h
  split at h
  · cases h
  · cases h
    simp only [SphFields.Fits]
    omega

theorem unpackInPtr_fits (w1 w2 : Word) : (unpackInPtr w1 w2).Fits := by
  have h1 := w1.isLt
  have h2 := w2.isLt
  rw [unpackInPtr_eq]
  simp only [InPtr.Fits]
  omega

theorem unpackMapAlias_fits (w1 w2 w3 : Word) : (unpackMapAlias w1 w2 w3).Fits := by
  have h1 := w1.isLt
  have h2 := w2.isLt
  have h3 := w3.isLt
  rw [unpackMapAlias_eq]
  simp only [MapAlias.Fits]
  omega

theorem unpackOutPtr_fits (w1 w2 : Word) : (unpackOutPtr w1 w2).Fits := by
  have h1 := w1.isLt
  have h2 := w2.isLt
  rw [unpackOutPtr_eq]
  simp only [OutPtr.Fits]
  omega

/-! ## Pack of unpack -/

/-- The fields of a number made of three. -/
theorem three_fields {low mid : Nat} (hl : low < 2 ^ 32) (hm : mid < 2 ^ 4) (high : Nat) :
    (low + mid * 2 ^ 32 + high * 2 ^ 36) / 2 ^ 36 = high
    ∧ (low + mid * 2 ^ 32 + high * 2 ^ 36) / 2 ^ 32 % 2 ^ 4 = mid
    ∧ (low + mid * 2 ^ 32 + high * 2 ^ 36) % 2 ^ 32 = low := by omega

theorem packed_unpackInPtr (w1 w2 : Word) :
    toWord (inPtrWord1 (unpackInPtr w1 w2)) = w1 ∧ toWord ((unpackInPtr w1 w2).address % 2 ^ 32) = w2 := by
  have h1 := w1.isLt
  obtain ⟨e1, e2, e3⟩ := three_fields w2.isLt (mid := w1.toNat / 2 ^ 12 % 16) (by omega) (w1.toNat / 2 ^ 6 % 64)
  have e : inPtrWord1 (unpackInPtr w1 w2) = w1.toNat := by
    rw [unpackInPtr_eq, inPtrWord1]
    simp only [e1, e2]
    clear e1 e2 e3
    omega
  have e' : (unpackInPtr w1 w2).address % 2 ^ 32 = w2.toNat := by rw [unpackInPtr_eq]; exact e3
  rw [e, e', toWord_of_toNat, toWord_of_toNat]
  exact ⟨rfl, rfl⟩

theorem packed_unpackMapAlias (w1 w2 w3 : Word) :
    toWord ((unpackMapAlias w1 w2 w3).size % 2 ^ 32) = w1
    ∧ toWord ((unpackMapAlias w1 w2 w3).address % 2 ^ 32) = w2
    ∧ toWord (mapAliasWord3 (unpackMapAlias w1 w2 w3)) = w3 := by
  have h1 := w1.isLt
  have h3 := w3.isLt
  obtain ⟨e1, e2, e3⟩ := three_fields w2.isLt (mid := w3.toNat / 2 ^ 28) (by omega) (w3.toNat / 4 % 2 ^ 22)
  have ez : (w1.toNat + w3.toNat / 2 ^ 24 % 16 * 2 ^ 32) / 2 ^ 32 = w3.toNat / 2 ^ 24 % 16 := by omega
  have e : mapAliasWord3 (unpackMapAlias w1 w2 w3) = w3.toNat := by
    rw [unpackMapAlias_eq, mapAliasWord3]
    simp only [e1, e2, ez]
    clear e1 e2 e3 ez
    omega
  have e' : (unpackMapAlias w1 w2 w3).address % 2 ^ 32 = w2.toNat := by rw [unpackMapAlias_eq]; exact e3
  have e'' : (unpackMapAlias w1 w2 w3).size % 2 ^ 32 = w1.toNat := by
    rw [unpackMapAlias_eq]
    simp only
    omega
  rw [e, e', e'', toWord_of_toNat, toWord_of_toNat, toWord_of_toNat]
  exact ⟨rfl, rfl, rfl⟩

theorem packed_unpackOutPtr (w1 w2 : Word) :
    toWord ((unpackOutPtr w1 w2).address % 2 ^ 32) = w1 ∧ toWord (outPtrWord2 (unpackOutPtr w1 w2)) = w2 := by
  have h1 := w1.isLt
  have h2 := w2.isLt
  have e : (unpackOutPtr w1 w2).address % 2 ^ 32 = w1.toNat := by
    rw [unpackOutPtr_eq]
    simp only
    omega
  have e' : outPtrWord2 (unpackOutPtr w1 w2) = w2.toNat := by
    rw [unpackOutPtr_eq, outPtrWord2]
    simp only
    omega
  rw [e, e', toWord_of_toNat, toWord_of_toNat]
  exact ⟨rfl, rfl⟩

/-- Bits 19 to 14 of word 2 are in no field (R83). -/
theorem packed_unpackHdr (w1 w2 : Word) :
    toWord (hdrWord1 (unpackHdr w1 w2)) = w1
    ∧ (toWord (hdrWord2 (unpackHdr w1 w2).toCounts)).toNat
        = w2.toNat % 2 ^ 14 + w2.toNat / 2 ^ 31 * 2 ^ 31 := by
  have h1 := w1.isLt
  have h2 := w2.isLt
  have e : hdrWord1 (unpackHdr w1 w2) = w1.toNat := by
    rw [unpackHdr_eq, hdrWord1]
    simp only
    omega
  refine ⟨by rw [e, toWord_of_toNat], ?_⟩
  rw [toWord_toNat (hdrWord2_lt (unpackHdr_fits w1 w2).2), unpackHdr_eq, hdrWord2]
  by_cases hb : w2.toNat / 2 ^ 31 % 2 = 1
  · simp only [hb, decide_true, Bool.toNat_true]
    omega
  · simp only [hb, decide_false, Bool.toNat_false]
    omega

theorem packed_unpackSph {cfg : Cfg} {w : Word} {f : SphFields} (h : unpackSph cfg w = .ok f) :
    (toWord (sphWord f)).toNat = w.toNat % 2 ^ 9 := by
  have hl := sphWord_lt (unpackSph_fits h)
  rw [toWord_toNat (by omega)]
  rw [unpackSph_eq] at h
  split at h
  · cases h
  · cases h
    by_cases hb : w.toNat % 2 = 1
    · simp only [sphWord, hb, decide_true, Bool.toNat_true]
      omega
    · simp only [sphWord, hb, decide_false, Bool.toNat_false]
      omega

end Sys2Proof.Machine
end

