-- ==== Sys2Proof/Laws/DecodeWalk.lean ====
section
/-! SUPPORT. MSG.DEC's walk in closed form: where every element is read, and when there is no room
(43_offset_calculator.md R152, R153). -/

namespace Sys2Proof.Machine

/-- The entries of a section: entry `i` is read at `pos + k * i`. -/
def tabulate {α : Type} (n pos k : Nat) (read : Nat → α) : List α := (List.range n).map fun i => read (pos + k * i)

@[simp] theorem tabulate_length {α : Type} (n pos k : Nat) (read : Nat → α) :
    (tabulate n pos k read).length = n := by simp [tabulate]

theorem tabulate_getElem {α : Type} (n pos k : Nat) (read : Nat → α) {i : Nat}
    (h : i < (tabulate n pos k read).length) : (tabulate n pos k read)[i] = read (pos + k * i) := by
  simp [tabulate]

theorem tabulate_succ {α : Type} (n pos k : Nat) (read : Nat → α) :
    tabulate (n + 1) pos k read = read pos :: tabulate n (pos + k) k read := by
  simp only [tabulate, List.range_succ_eq_map, List.map_cons, List.map_map, Nat.mul_zero, Nat.add_zero]
  congr 1
  apply List.map_congr_left
  intro i _
  simp only [Function.comp_apply]
  congr 1
  rw [Nat.mul_succ]
  omega

/-- A getter that reads `k` words at the cursor if there is room for them. -/
def Reads {α : Type} (get : Nat → Except Err (α × Nat)) (cap k : Nat) (read : Nat → α) : Prop :=
  ∀ pos, get pos = if pos + k ≤ cap then .ok (read pos, pos + k) else .error .bufferTooSmall

theorem getWord_reads (m : Memory) (cap : Nat) : Reads (getWord m cap) cap 1 m.readWord := fun _ => need_bind _ _ _ _

theorem getInPtr_reads (m : Memory) (cap : Nat) :
    Reads (getInPtr m cap) cap 2 (fun p => unpackInPtr (m.readWord p) (m.readWord (p + 1))) :=
  fun _ => need_bind _ _ _ _

theorem getMapAlias_reads (m : Memory) (cap : Nat) :
    Reads (getMapAlias m cap) cap 3
      (fun p => unpackMapAlias (m.readWord p) (m.readWord (p + 1)) (m.readWord (p + 2))) :=
  fun _ => need_bind _ _ _ _

theorem getOutPtr_reads (m : Memory) (cap : Nat) :
    Reads (getOutPtr m cap) cap 2 (fun p => unpackOutPtr (m.readWord p) (m.readWord (p + 1))) :=
  fun _ => need_bind _ _ _ _

theorem getEach_eq {α : Type} {get : Nat → Except Err (α × Nat)} {cap k : Nat} {read : Nat → α}
    (hr : Reads get cap k read) (n : Nat) {pos : Nat} (hp : pos ≤ cap) :
    getEach get n pos
      = if pos + k * n ≤ cap then .ok (tabulate n pos k read, pos + k * n) else .error .bufferTooSmall := by
  induction n generalizing pos with
  | zero => simp [getEach, hp, tabulate]
  | succ n ih =>
    rw [getEach, hr pos]
    by_cases h1 : pos + k ≤ cap
    · rw [if_pos h1, ok_bind]
      simp only
      rw [ih h1]
      have e : pos + k + k * n = pos + k * (n + 1) := by ring
      rw [e]
      split
      · rw [ok_bind, tabulate_succ]
      · rw [error_bind]
    · rw [if_neg h1, error_bind, if_neg]
      rw [Nat.mul_succ]
      omega

theorem getEach_bind {α β : Type} {get : Nat → Except Err (α × Nat)} {cap k : Nat} {read : Nat → α}
    (hr : Reads get cap k read) (n : Nat) {pos : Nat} (hp : pos ≤ cap) (next : List α × Nat → Except Err β) :
    (getEach get n pos >>= next)
      = if pos + k * n ≤ cap then next (tabulate n pos k read, pos + k * n) else .error .bufferTooSmall := by
  rw [getEach_eq hr n hp]
  split <;> rfl

theorem skip_bind {β : Type} (cap pos n : Nat) (next : Nat → Except Err β) :
    (skip cap pos n >>= next) = if pos + n ≤ cap then next (pos + n) else .error .bufferTooSmall := by
  rw [skip, need_bind]
  split <;> rfl

/-! ## Section 2 -/

/-- The fields that section 2 yields: those of word 2 where there is a special header, 0 otherwise (R31, R152). -/
def SpecialFields (cfg : Cfg) (m : Memory) (hasSpecialHeader : Bool) (sph : SphFields) : Prop :=
  if hasSpecialHeader then unpackSph cfg (m.readWord 2) = .ok sph else sph = {}

theorem specialFields_of {cfg : Cfg} {m : Memory} {h : Bool} {sph : SphFields}
    (h1 : h = true → unpackSph cfg (m.readWord 2) = .ok sph) (h2 : h = false → sph = {}) :
    SpecialFields cfg m h sph := by
  cases h with
  | true => exact h1 rfl
  | false => exact h2 rfl

def decodedSpecial (m : Memory) (sph : SphFields) : SpecialSection where
  sph := sph
  pidRaw := if sph.sendPid then m.readWord 3 else 0
  copyHandle := tabulate sph.numCopyHandles (3 + sph.sendPid.toNat) 1 m.readWord
  moveHandle := tabulate sph.numMoveHandles (3 + sph.sendPid.toNat + sph.numCopyHandles) 1 m.readWord

theorem getPid_bind {β : Type} (m : Memory) {cap : Nat} (h : 3 ≤ cap) (p : Bool)
    (next : Word × Nat → Except Err β) :
    (getPid m cap 3 p >>= next)
      = if 3 + p.toNat ≤ cap then next (if p then m.readWord 3 else 0, 3 + p.toNat)
        else .error .bufferTooSmall := by
  cases p
  · simp [getPid, h]
  · simp only [getPid, if_true, getWord_reads m cap 3, Bool.toNat_true]
    split <;> rfl

theorem getSpecial_bind {β : Type} {cfg : Cfg} {m : Memory} {cap : Nat} {h : Bool} {sph : SphFields}
    (h2 : 2 ≤ cap) (h3 : h = true → 3 ≤ cap) (hs : SpecialFields cfg m h sph)
    (next : SpecialSection × Nat → Except Err β) :
    (getSpecial cfg m cap 2 h >>= next)
      = if 2 + sphLen h sph ≤ cap then next (decodedSpecial m sph, 2 + sphLen h sph)
        else .error .bufferTooSmall := by
  unfold SpecialFields at hs
  cases h
  · simp only [Bool.false_eq_true, if_false] at hs
    subst hs
    simp [getSpecial, sphLen, h2, decodedSpecial, tabulate]
  · have h3 := h3 rfl
    simp only [if_true] at hs
    simp only [getSpecial, if_true, sphLen]
    rw [getWord_reads m cap 2, if_pos h3, ok_bind]
    simp only [hs, ok_bind, Nat.reduceAdd]
    rw [getPid_bind m h3]
    split
    · next h4 =>
      rw [getEach_bind (getWord_reads m cap) _ h4]
      split
      · next h5 =>
        rw [getEach_bind (getWord_reads m cap) _ h5]
        simp only [Nat.one_mul]
        have e : 2 + (1 + sph.sendPid.toNat + sph.numCopyHandles + sph.numMoveHandles)
            = 3 + sph.sendPid.toNat + sph.numCopyHandles + sph.numMoveHandles := by omega
        rw [e]
        split <;> rfl
      · next h5 =>
        rw [error_bind, if_neg]
        omega
    · next h4 =>
      rw [error_bind, if_neg]
      omega

/-! ## The whole walk -/

/-- The message record that MSG.DEC returns, every entry read at the offset of R146. -/
def decodedMessage (m : Memory) (hdr : HdrFields) (sph : SphFields) (o : OffsetRecord) : Message where
  hdr := hdr
  sph := sph
  copyHandle := (decodedSpecial m sph).copyHandle
  moveHandle := (decodedSpecial m sph).moveHandle
  inptr := tabulate hdr.countA o.offInptr 2 fun p => unpackInPtr (m.readWord p) (m.readWord (p + 1))
  inmap := tabulate hdr.countB o.offInmap 3 fun p =>
    unpackMapAlias (m.readWord p) (m.readWord (p + 1)) (m.readWord (p + 2))
  outmap := tabulate hdr.countC o.offOutmap 3 fun p =>
    unpackMapAlias (m.readWord p) (m.readWord (p + 1)) (m.readWord (p + 2))
  inoutmap := tabulate hdr.countD o.offInoutmap 3 fun p =>
    unpackMapAlias (m.readWord p) (m.readWord (p + 1)) (m.readWord (p + 2))
  data := tabulate hdr.numDataWords o.offData 1 m.readWord
  outptr := tabulate o.nOutptr o.offOutptr 2 fun p => unpackOutPtr (m.readWord p) (m.readWord (p + 1))

/-- MSG.DEC's walk once the header and the special-header word could be read and unpacked (R152). -/
theorem decodeMessage_eq {cfg : Cfg} {m : Memory} {cap : Nat} {hdr : HdrFields} {sph : SphFields}
    (h2 : 2 ≤ cap) (hh : hdr = unpackHdr (m.readWord 0) (m.readWord 1))
    (h3 : hdr.hasSpecialHeader = true → 3 ≤ cap) (hs : SpecialFields cfg m hdr.hasSpecialHeader sph) :
    decodeMessage cfg m cap
      = if (offsets cfg hdr.toCounts sph).total ≤ cap then
          .ok (.msgDec (decodedMessage m hdr sph (offsets cfg hdr.toCounts sph)) (decodedSpecial m sph).pidRaw
            (offsets cfg hdr.toCounts sph).total)
        else .error .bufferTooSmall := by
  have g : getHdr m cap 0 = .ok (hdr, 2) := by
    rw [getHdr, need_bind, if_pos (by omega), hh]
  rw [decodeMessage, g, ok_bind]
  simp only
  rw [getSpecial_bind h2 h3 hs]
  have e4 : ∀ p, p + 3 * hdr.countB + 3 * hdr.countC + 3 * hdr.countD
      = p + 3 * (hdr.countB + hdr.countC + hdr.countD) := fun p => by ring
  by_cases ht : (offsets cfg hdr.toCounts sph).total ≤ cap
  · rw [if_pos ht]
    have ht' := ht
    simp only [offsets] at ht'
    rw [if_pos (by omega)]
    simp only
    rw [getEach_bind (getInPtr_reads m cap) _ (by omega), if_pos (by omega)]
    simp only
    rw [getEach_bind (getMapAlias_reads m cap) _ (by omega), if_pos (by omega)]
    simp only
    rw [getEach_bind (getMapAlias_reads m cap) _ (by omega), if_pos (by omega)]
    simp only
    rw [getEach_bind (getMapAlias_reads m cap) _ (by omega), if_pos (by omega)]
    simp only [e4]
    rw [skip_bind, if_pos (by omega), getEach_bind (getWord_reads m cap) _ (by omega), if_pos (by omega)]
    simp only [Nat.one_mul]
    rw [skip_bind, if_pos (by omega), getEach_bind (getOutPtr_reads m cap) _ (by omega), if_pos (by omega)]
    simp only [decodedMessage, offsets, decodedSpecial]
  · rw [if_neg ht]
    simp only [offsets] at ht
    split
    · simp only
      rw [getEach_bind (getInPtr_reads m cap) _ (by assumption)]
      split
      · simp only
        rw [getEach_bind (getMapAlias_reads m cap) _ (by assumption)]
        split
        · simp only
          rw [getEach_bind (getMapAlias_reads m cap) _ (by assumption)]
          split
          · simp only
            rw [getEach_bind (getMapAlias_reads m cap) _ (by assumption)]
            split
            · simp only [e4] at *
              rw [skip_bind]
              split
              · rw [getEach_bind (getWord_reads m cap) _ (by assumption)]
                simp only [Nat.one_mul]
                split
                · rw [skip_bind]
                  split
                  · rw [getEach_bind (getOutPtr_reads m cap) _ (by assumption), if_neg ht]
                  · rfl
                · rfl
              · rfl
            · rfl
          · rfl
        · rfl
      · rfl
    · rfl

theorem decodeMessage_noHeader {cfg : Cfg} {m : Memory} {cap : Nat} (h : cap < 2) :
    decodeMessage cfg m cap = .error .bufferTooSmall := by
  rw [decodeMessage, getHdr, need_bind, if_neg (by omega), error_bind]

theorem decodeMessage_noSpecialWord {cfg : Cfg} {m : Memory}
    (h : (unpackHdr (m.readWord 0) (m.readWord 1)).hasSpecialHeader = true) :
    decodeMessage cfg m 2 = .error .bufferTooSmall := by
  rw [decodeMessage, getHdr, need_bind, if_pos (by omega), ok_bind]
  simp only [Nat.reduceAdd, h, getSpecial, if_true]
  rw [getWord_reads m 2 2, if_neg (by omega), error_bind, error_bind]

theorem decodeMessage_malformed {cfg : Cfg} {m : Memory} {cap : Nat} (h3 : 3 ≤ cap)
    (h : (unpackHdr (m.readWord 0) (m.readWord 1)).hasSpecialHeader = true) {e : Err}
    (he : unpackSph cfg (m.readWord 2) = .error e) : decodeMessage cfg m cap = .error e := by
  rw [decodeMessage, getHdr, need_bind, if_pos (by omega), ok_bind]
  simp only [Nat.reduceAdd, h, getSpecial, if_true]
  rw [getWord_reads m cap 2, if_pos h3, ok_bind]
  simp only [he, error_bind]

/-- The errors of the walk, and when the special header is the cause (R152, R178). -/
theorem decodeMessage_err {cfg : Cfg} {m : Memory} {cap : Nat} {e : Err} (h : decodeMessage cfg m cap = .error e) :
    e = .bufferTooSmall
    ∨ (e = .malformedSpecialHeader ∧ cfg.tolSphPad = false ∧ 3 ≤ cap
      ∧ (unpackHdr (m.readWord 0) (m.readWord 1)).hasSpecialHeader = true ∧ 2 ^ 9 ≤ (m.readWord 2).toNat) := by
  by_cases h2 : cap < 2
  · rw [decodeMessage_noHeader h2] at h
    cases h
    simp
  · cases hb : (unpackHdr (m.readWord 0) (m.readWord 1)).hasSpecialHeader with
    | false =>
      rw [decodeMessage_eq (by omega) rfl (by simp [hb]) (specialFields_of (sph := {}) (by simp [hb]) (by simp))] at h
      split at h <;> cases h
      simp
    | true =>
      by_cases h3 : 3 ≤ cap
      · cases hu : unpackSph cfg (m.readWord 2) with
        | ok sph =>
          rw [decodeMessage_eq (by omega) rfl (by simp [h3])
            (specialFields_of (sph := sph) (by simp [hu]) (by simp [hb]))] at h
          split at h <;> cases h
          simp
        | error e' =>
          rw [decodeMessage_malformed h3 hb hu] at h
          cases h
          rw [unpackSph_eq] at hu
          split at hu
          · next hc =>
            cases hu
            have := hc.2
            exact .inr ⟨rfl, hc.1, h3, rfl, by omega⟩
          · cases hu
      · have : cap = 2 := by omega
        subst this
        rw [decodeMessage_noSpecialWord hb] at h
        cases h
        simp

end Sys2Proof.Machine
end

