-- ==== Sys2Proof/Laws/Encode.lean ====
section
/-! SUPPORT. MSG.ENC's walk: a message that fits its fields is one list of words, written from word 0 on if there is
room for all of it (43_offset_calculator.md R150, R156). -/

namespace Sys2Proof.Machine

/-! ## One section -/

/-- The walk after the words `ws` have been written from the start of the buffer. -/
def walkOf (mem : Memory) (ws : List Word) : EncWalk := ⟨ws.length, mem.writeWords 0 ws⟩

@[simp] theorem walkOf_pos (mem : Memory) (ws : List Word) : (walkOf mem ws).pos = ws.length := rfl

@[simp] theorem walkOf_mem (mem : Memory) (ws : List Word) : (walkOf mem ws).mem = mem.writeWords 0 ws := rfl

theorem put_walkOf (cap : Nat) (mem : Memory) (ws us : List Word) :
    put cap us (walkOf mem ws)
      = if (ws ++ us).length ≤ cap then .ok (walkOf mem (ws ++ us)) else .error .bufferTooSmall := by
  simp only [put, need_bind, walkOf, List.length_append, Memory.writeWords_append, Nat.zero_add]

/-- A section whose elements all pack: written whole if there is room for it, refused for room otherwise. -/
theorem putEach_walkOf {α : Type} {cap : Nat} {pack : α → Except Err (List Word)} {f : α → List Word} (mem : Memory)
    {ws : List Word} (hw : ws.length ≤ cap) {xs : List α} (hp : ∀ x ∈ xs, pack x = .ok (f x)) :
    putEach cap pack xs (walkOf mem ws)
      = if (ws ++ xs.flatMap f).length ≤ cap then .ok (walkOf mem (ws ++ xs.flatMap f))
        else .error .bufferTooSmall := by
  induction xs generalizing ws with
  | nil => simp [putEach, hw]
  | cons x xs ih =>
    rw [putEach, hp x List.mem_cons_self, ok_bind, put_walkOf]
    split
    · next hl =>
      rw [ok_bind, ih hl fun y hy => hp y (List.mem_cons_of_mem _ hy)]
      simp only [List.flatMap_cons, List.append_assoc]
    · next hl =>
      rw [error_bind, if_neg]
      simp only [List.flatMap_cons, List.length_append] at hl ⊢
      omega

/-- An element that does not pack ends the walk with its error, if there was room for the elements before it (R179). -/
theorem putEach_walkOf_error {α : Type} {cap : Nat} {pack : α → Except Err (List Word)} {f : α → List Word}
    (mem : Memory) {ws : List Word} {xs : List α} {y : α} {ys : List α} {e : Err}
    (hp : ∀ x ∈ xs, pack x = .ok (f x)) (hy : pack y = .error e) (hl : (ws ++ xs.flatMap f).length ≤ cap) :
    putEach cap pack (xs ++ y :: ys) (walkOf mem ws) = .error e := by
  induction xs generalizing ws with
  | nil => simp [putEach, hy]
  | cons x xs ih =>
    simp only [List.flatMap_cons, List.length_append] at hl
    rw [List.cons_append, putEach, hp x List.mem_cons_self, ok_bind, put_walkOf, if_pos, ok_bind]
    · refine ih (fun z hz => hp z (List.mem_cons_of_mem _ hz)) ?_
      simp only [List.length_append]
      omega
    · simp only [List.length_append]
      omega

/-! ## The words of each element -/

def hdrList (f : HdrFields) : List Word := [toWord (hdrWord1 f), toWord (hdrWord2 f.toCounts)]
def sphList (f : SphFields) : List Word := [toWord (sphWord f)]
def inPtrList (d : InPtr) : List Word := [toWord (inPtrWord1 d), toWord (d.address % 2 ^ 32)]
def mapAliasList (d : MapAlias) : List Word :=
  [toWord (d.size % 2 ^ 32), toWord (d.address % 2 ^ 32), toWord (mapAliasWord3 d)]
def outPtrList (d : OutPtr) : List Word := [toWord (d.address % 2 ^ 32), toWord (outPtrWord2 d)]

theorem hdrWords_ok {f : HdrFields} (h : f.Fits) : hdrWords f = .ok (hdrList f) := by
  simp only [hdrWords, packHdr_ok h, ok_bind, hdrList]

theorem sphWords_ok {f : SphFields} (h : f.Fits) : sphWords f = .ok (sphList f) := by
  simp only [sphWords, packSph_ok h, ok_bind, sphList]

theorem inPtrWords_ok {d : InPtr} (h : d.Fits) : inPtrWords d = .ok (inPtrList d) := by
  simp only [inPtrWords, packInPtr_ok h, ok_bind, inPtrList]

theorem mapAliasWords_ok {d : MapAlias} (h : d.Fits) : mapAliasWords d = .ok (mapAliasList d) := by
  simp only [mapAliasWords, packMapAlias_ok h, ok_bind, mapAliasList]

theorem outPtrWords_ok {d : OutPtr} (h : d.Fits) : outPtrWords d = .ok (outPtrList d) := by
  simp only [outPtrWords, packOutPtr_ok h, ok_bind, outPtrList]

theorem flatMap_singleton_id (ws : List Word) : ws.flatMap (fun w => [w]) = ws := by
  induction ws with
  | nil => rfl
  | cons w ws ih => simp [List.flatMap_cons, ih]

theorem length_flatMap_of_const {α : Type} {f : α → List Word} {k : Nat} (hf : ∀ x, (f x).length = k) (xs : List α) :
    (xs.flatMap f).length = k * xs.length := by
  induction xs with
  | nil => simp
  | cons x xs ih => simp only [List.flatMap_cons, List.length_append, hf, ih, List.length_cons]; ring

theorem getElem_flatMap_of_const {α : Type} {f : α → List Word} {k : Nat} (hf : ∀ x, (f x).length = k)
    (xs : List α) {i j : Nat} (hi : i < xs.length) (hj : j < k) :
    (xs.flatMap f)[k * i + j]? = (f xs[i])[j]? := by
  induction xs generalizing i with
  | nil => exact absurd hi (Nat.not_lt_zero i)
  | cons x xs ih =>
    rw [List.flatMap_cons]
    cases i with
    | zero => rw [List.getElem?_append_left (by rw [hf]; omega)]; simp
    | succ i =>
      have hk : k * (i + 1) + j = k + (k * i + j) := by ring
      rw [List.getElem?_append_right (by rw [hf]; omega), hf, hk, Nat.add_sub_cancel_left,
        ih (by simpa using hi)]
      simp

@[simp] theorem entries_length {α : Type} [Inhabited α] (t : List α) (n : Nat) : (entries t n).length = n := by
  simp [entries]

/-! ## The words of a message -/

/-- The words of section 2 (R63, R141). -/
def specialList (m : Message) : List Word :=
  if m.hdr.hasSpecialHeader then
    sphList m.sph ++ List.replicate m.sph.sendPid.toNat 0 ++ entries m.copyHandle m.sph.numCopyHandles
      ++ entries m.moveHandle m.sph.numMoveHandles
  else []

/-- The words of a message up to the data section's padding (R140). -/
def frontList (m : Message) : List Word :=
  hdrList m.hdr ++ specialList m ++ (entries m.inptr m.hdr.countA).flatMap inPtrList
    ++ (entries m.inmap m.hdr.countB).flatMap mapAliasList ++ (entries m.outmap m.hdr.countC).flatMap mapAliasList
    ++ (entries m.inoutmap m.hdr.countD).flatMap mapAliasList

/-- The words of a whole message, in the order of R140. -/
def messageWords (cfg : Cfg) (m : Message) : List Word :=
  frontList m ++ List.replicate (prePad cfg m.hdr.mode (messageOffsets cfg m).offPrepad) 0
    ++ entries m.data m.hdr.numDataWords
    ++ List.replicate (postPad cfg m.hdr.mode (messageOffsets cfg m).offPostpad) 0
    ++ (entries m.outptr (outCnt cfg m.hdr.mode)).flatMap outPtrList

theorem hdrList_length (f : HdrFields) : (hdrList f).length = 2 := rfl
theorem inPtrList_length (d : InPtr) : (inPtrList d).length = 2 := rfl
theorem mapAliasList_length (d : MapAlias) : (mapAliasList d).length = 3 := rfl
theorem outPtrList_length (d : OutPtr) : (outPtrList d).length = 2 := rfl

theorem specialList_length (m : Message) : (specialList m).length = sphLen m.hdr.hasSpecialHeader m.sph := by
  unfold specialList sphLen
  split
  · simp only [List.length_append, List.length_replicate, entries_length, sphList, List.length_cons, List.length_nil]
  · rfl

theorem frontList_length (cfg : Cfg) (m : Message) : (frontList m).length = (messageOffsets cfg m).offPrepad := by
  simp only [frontList, List.length_append, hdrList_length, specialList_length,
    length_flatMap_of_const inPtrList_length, length_flatMap_of_const mapAliasList_length, entries_length,
    messageOffsets, offsets]
  ring

theorem messageWords_length (cfg : Cfg) (m : Message) :
    (messageWords cfg m).length = (messageOffsets cfg m).total := by
  simp only [messageWords, List.length_append, frontList_length cfg, List.length_replicate, entries_length,
    length_flatMap_of_const outPtrList_length]
  simp only [messageOffsets, offsets]

/-! ## The whole walk -/

theorem putSpecial_walkOf {cap : Nat} (mem : Memory) {ws : List Word} (hw : ws.length ≤ cap) {m : Message}
    (hf : m.hdr.hasSpecialHeader = true → m.sph.Fits) :
    putSpecial cap m (walkOf mem ws)
      = if (ws ++ specialList m).length ≤ cap then .ok (walkOf mem (ws ++ specialList m))
        else .error .bufferTooSmall := by
  unfold putSpecial specialList
  split
  · next h =>
    have hone : ∀ us : List Word, ∀ x ∈ us, oneWord x = .ok [x] := fun _ _ _ => rfl
    rw [putEach_walkOf mem hw (f := sphList) (by simpa using sphWords_ok (hf h))]
    simp only [List.flatMap_cons, List.flatMap_nil, List.append_nil]
    split
    · next h1 =>
      rw [ok_bind, putEach_walkOf mem h1 (f := fun w => [w]) (hone _), flatMap_singleton_id]
      split
      · next h2 =>
        rw [ok_bind, putEach_walkOf mem h2 (f := fun w => [w]) (hone _), flatMap_singleton_id]
        split
        · next h3 =>
          rw [ok_bind, putEach_walkOf mem h3 (f := fun w => [w]) (hone _), flatMap_singleton_id]
          simp only [List.append_assoc]
        · next h3 =>
          rw [error_bind, if_neg]
          simp only [List.length_append] at h3 ⊢
          omega
      · next h2 =>
        rw [error_bind, if_neg]
        simp only [List.length_append] at h2 ⊢
        omega
    · next h1 =>
      rw [error_bind, if_neg]
      simp only [List.length_append] at h1 ⊢
      omega
  · simp [hw]

/-- MSG.ENC's walk on a message whose every part fits (R150, R156). -/
theorem encodeMessage_of_fits {cfg : Cfg} {m : Message} (h : MessageFits cfg m) (cap : Nat) (mem : Memory) :
    encodeMessage cfg m cap mem
      = if (messageOffsets cfg m).total ≤ cap then .ok (walkOf mem (messageWords cfg m))
        else .error .bufferTooSmall := by
  obtain ⟨hh, hs, ha, hb, hc, hd, ho⟩ := h
  have hone : ∀ us : List Word, ∀ x ∈ us, oneWord x = .ok [x] := fun _ _ _ => rfl
  rw [← messageWords_length, encodeMessage]
  show (putEach cap hdrWords [m.hdr] (walkOf mem []) >>= _) = _
  rw [putEach_walkOf mem (Nat.zero_le cap) (f := hdrList) (by simpa using hdrWords_ok hh)]
  simp only [List.flatMap_cons, List.flatMap_nil, List.append_nil, List.nil_append]
  -- a section that has no room for itself leaves none for the message
  have hno : ∀ {us : List Word}, us <+: messageWords cfg m → ¬ us.length ≤ cap →
      (Except.error .bufferTooSmall : Except Err EncWalk)
        = if (messageWords cfg m).length ≤ cap then .ok (walkOf mem (messageWords cfg m))
          else .error .bufferTooSmall := by
    intro us hpre hl
    rw [if_neg]
    have := hpre.length_le
    omega
  have hfront := frontList_length cfg m
  split
  · next h1 =>
    rw [ok_bind, putSpecial_walkOf mem h1 hs]
    split
    · next h2 =>
      rw [ok_bind, putEach_walkOf mem h2 (f := inPtrList) fun d hd => inPtrWords_ok (ha d hd)]
      split
      · next h3 =>
        rw [ok_bind, putEach_walkOf mem h3 (f := mapAliasList) fun d hd => mapAliasWords_ok (hb d hd)]
        split
        · next h4 =>
          rw [ok_bind, putEach_walkOf mem h4 (f := mapAliasList) fun d hd => mapAliasWords_ok (hc d hd)]
          split
          · next h5 =>
            rw [ok_bind, putEach_walkOf mem h5 (f := mapAliasList) fun d hd' => mapAliasWords_ok (hd d hd')]
            split
            · next h6 =>
              change (frontList m).length ≤ cap at h6
              change (putEach cap oneWord (List.replicate (prePad cfg m.hdr.mode (walkOf mem (frontList m)).pos) 0)
                (walkOf mem (frontList m)) >>= _) = _
              rw [walkOf_pos, hfront, putEach_walkOf mem h6 (f := fun w => [w]) (hone _), flatMap_singleton_id]
              split
              · next h7 =>
                rw [ok_bind, putEach_walkOf mem h7 (f := fun w => [w]) (hone _), flatMap_singleton_id]
                split
                · next h8 =>
                  rw [ok_bind, walkOf_pos]
                  have hp : (frontList m
                      ++ List.replicate (prePad cfg m.hdr.mode (messageOffsets cfg m).offPrepad) 0
                      ++ entries m.data m.hdr.numDataWords).length = (messageOffsets cfg m).offPostpad := by
                    simp only [List.length_append, hfront, List.length_replicate, entries_length]
                    rfl
                  rw [hp, putEach_walkOf mem h8 (f := fun w => [w]) (hone _), flatMap_singleton_id]
                  split
                  · next h9 =>
                    rw [ok_bind, putEach_walkOf mem h9 (f := outPtrList) fun d hd => outPtrWords_ok (ho d hd)]
                    rfl
                  · next h9 => exact hno (List.prefix_append _ _) h9
                · next h8 =>
                  exact hno ((List.prefix_append _ _).trans (List.prefix_append _ _)) h8
              · next h7 =>
                exact hno (((List.prefix_append _ _).trans (List.prefix_append _ _)).trans
                  (List.prefix_append _ _)) h7
            · next h6 =>
              exact hno ((((List.prefix_append (frontList m) _).trans (List.prefix_append _ _)).trans
                (List.prefix_append _ _)).trans (List.prefix_append _ _)) h6
          · next h5 =>
            refine hno (us := _) ?_ h5
            simp only [messageWords, frontList, List.append_assoc]
            simp only [← List.append_assoc]
            simp only [List.append_assoc, List.prefix_append_right_inj, List.prefix_append]
        · next h4 =>
          refine hno (us := _) ?_ h4
          simp only [messageWords, frontList, List.append_assoc, List.prefix_append_right_inj, List.prefix_append]
      · next h3 =>
        refine hno (us := _) ?_ h3
        simp only [messageWords, frontList, List.append_assoc, List.prefix_append_right_inj, List.prefix_append]
    · next h2 =>
      refine hno (us := _) ?_ h2
      simp only [messageWords, frontList, List.append_assoc, List.prefix_append_right_inj, List.prefix_append]
  · next h1 =>
    refine hno (us := _) ?_ h1
    simp only [messageWords, frontList, List.append_assoc, List.prefix_append]

end Sys2Proof.Machine
end

