-- ==== Sys2Proof/Laws/EncodeInversion.lean ====
section
/-! SUPPORT. What a successful and a failed MSG.ENC walk say about the message, for any operands: success means that
every part fits, the error is one of the listed ones, and neither depends on what the buffer holds. -/

namespace Sys2Proof.Machine

theorem bind_eq_ok {α β : Type} {x : Except Err α} {f : α → Except Err β} {b : β} (h : (x >>= f) = .ok b) :
    ∃ a, x = .ok a ∧ f a = .ok b := by
  cases x with
  | ok a => exact ⟨a, rfl, h⟩
  | error e => cases h

theorem bind_eq_error {α β : Type} {x : Except Err α} {f : α → Except Err β} {e : Err}
    (h : (x >>= f) = .error e) : x = .error e ∨ ∃ a, x = .ok a ∧ f a = .error e := by
  cases x with
  | ok a => exact .inr ⟨a, rfl, h⟩
  | error e' => rw [error_bind] at h; cases h; exact .inl rfl

/-! ## Success -/

theorem putEach_ok_packs {α : Type} {cap : Nat} {pack : α → Except Err (List Word)} {xs : List α} {w w' : EncWalk}
    (h : putEach cap pack xs w = .ok w') : ∀ x ∈ xs, ∃ ws, pack x = .ok ws := by
  induction xs generalizing w with
  | nil => intro x hx; cases hx
  | cons x xs ih =>
    obtain ⟨ws, h1, h2⟩ := bind_eq_ok h
    obtain ⟨w1, -, h4⟩ := bind_eq_ok h2
    intro y hy
    rcases List.mem_cons.1 hy with rfl | hy
    · exact ⟨ws, h1⟩
    · exact ih h4 y hy

theorem fits_of_hdrWords {f : HdrFields} {ws : List Word} (h : hdrWords f = .ok ws) : f.Fits := by
  by_contra hf
  simp [hdrWords, packHdr_error hf] at h

theorem fits_of_sphWords {f : SphFields} {ws : List Word} (h : sphWords f = .ok ws) : f.Fits := by
  by_contra hf
  simp [sphWords, packSph_error hf] at h

theorem fits_of_inPtrWords {d : InPtr} {ws : List Word} (h : inPtrWords d = .ok ws) : d.Fits := by
  by_contra hf
  by_cases ha : d.address < 2 ^ 42
  · simp [inPtrWords, packInPtr_fieldOverflow ha fun hs => hf ⟨ha, hs⟩] at h
  · simp [inPtrWords, packInPtr_addressOutOfRange (Nat.not_lt.1 ha)] at h

theorem fits_of_mapAliasWords {d : MapAlias} {ws : List Word} (h : mapAliasWords d = .ok ws) : d.Fits := by
  by_contra hf
  by_cases ha : d.address < 2 ^ 58
  · simp [mapAliasWords, packMapAlias_fieldOverflow ha fun hs => hf ⟨ha, hs⟩] at h
  · simp [mapAliasWords, packMapAlias_addressOutOfRange (Nat.not_lt.1 ha)] at h

theorem fits_of_outPtrWords {d : OutPtr} {ws : List Word} (h : outPtrWords d = .ok ws) : d.Fits := by
  by_contra hf
  by_cases ha : d.address < 2 ^ 48
  · simp [outPtrWords, packOutPtr_fieldOverflow ha (Nat.not_lt.1 fun hs => hf ⟨ha, hs⟩)] at h
  · simp [outPtrWords, packOutPtr_addressOutOfRange (Nat.not_lt.1 ha)] at h

theorem putSpecial_ok_fits {cap : Nat} {m : Message} {w w' : EncWalk} (h : putSpecial cap m w = .ok w') :
    m.hdr.hasSpecialHeader = true → m.sph.Fits := by
  intro hs
  rw [putSpecial, if_pos hs] at h
  obtain ⟨w1, h1, -⟩ := bind_eq_ok h
  obtain ⟨ws, h2⟩ := putEach_ok_packs h1 m.sph (List.mem_singleton.2 rfl)
  exact fits_of_sphWords h2

/-- A walk that succeeds is a walk over a message whose every part fits. -/
theorem encodeMessage_ok_fits {cfg : Cfg} {m : Message} {cap : Nat} {mem : Memory} {w : EncWalk}
    (h : encodeMessage cfg m cap mem = .ok w) : MessageFits cfg m := by
  obtain ⟨w1, h1, h⟩ := bind_eq_ok h
  obtain ⟨w2, h2, h⟩ := bind_eq_ok h
  obtain ⟨w3, h3, h⟩ := bind_eq_ok h
  obtain ⟨w4, h4, h⟩ := bind_eq_ok h
  obtain ⟨w5, h5, h⟩ := bind_eq_ok h
  obtain ⟨w6, h6, h⟩ := bind_eq_ok h
  obtain ⟨w7, h7, h⟩ := bind_eq_ok h
  obtain ⟨w8, h8, h⟩ := bind_eq_ok h
  obtain ⟨w9, h9, h⟩ := bind_eq_ok h
  refine ⟨?_, putSpecial_ok_fits h2, fun d hd => ?_, fun d hd => ?_, fun d hd => ?_, fun d hd => ?_,
    fun d hd => ?_⟩
  · obtain ⟨ws, hw⟩ := putEach_ok_packs h1 m.hdr (List.mem_singleton.2 rfl)
    exact fits_of_hdrWords hw
  · obtain ⟨ws, hw⟩ := putEach_ok_packs h3 d hd
    exact fits_of_inPtrWords hw
  · obtain ⟨ws, hw⟩ := putEach_ok_packs h4 d hd
    exact fits_of_mapAliasWords hw
  · obtain ⟨ws, hw⟩ := putEach_ok_packs h5 d hd
    exact fits_of_mapAliasWords hw
  · obtain ⟨ws, hw⟩ := putEach_ok_packs h6 d hd
    exact fits_of_mapAliasWords hw
  · obtain ⟨ws, hw⟩ := putEach_ok_packs h d hd
    exact fits_of_outPtrWords hw

/-- Everything a successful walk says: the message fits, and its words are written from word 0 on. -/
theorem encodeMessage_ok {cfg : Cfg} {m : Message} {cap : Nat} {mem : Memory} {w : EncWalk}
    (h : encodeMessage cfg m cap mem = .ok w) :
    MessageFits cfg m ∧ (messageOffsets cfg m).total ≤ cap ∧ w = walkOf mem (messageWords cfg m) := by
  have hf := encodeMessage_ok_fits h
  rw [encodeMessage_of_fits hf] at h
  split at h
  · next ht => exact ⟨hf, ht, by cases h; rfl⟩
  · cases h

/-! ## Errors -/

/-- The errors of a walk (R170). -/
def WalkErr (e : Err) : Prop := e = .fieldOverflow ∨ e = .addressOutOfRange ∨ e = .bufferTooSmall

theorem requireFits_error {v n : Nat} {e e' : Err} (h : requireFits v n e = .error e') : e' = e := by
  unfold requireFits at h
  split at h <;> cases h
  rfl

theorem put_error {cap : Nat} {ws : List Word} {w : EncWalk} {e : Err} (h : put cap ws w = .error e) :
    e = .bufferTooSmall := by
  rw [put, need_bind] at h
  split at h <;> cases h
  rfl

theorem putEach_error {α : Type} {cap : Nat} {pack : α → Except Err (List Word)}
    (hp : ∀ x e, pack x = .error e → WalkErr e) {xs : List α} {w : EncWalk} {e : Err}
    (h : putEach cap pack xs w = .error e) : WalkErr e := by
  induction xs generalizing w with
  | nil => cases h
  | cons x xs ih =>
    rcases bind_eq_error h with h | ⟨ws, -, h⟩
    · exact hp x e h
    · rcases bind_eq_error h with h | ⟨w1, -, h⟩
      · exact .inr (.inr (put_error h))
      · exact ih h

theorem packHdr_err {f : HdrFields} {e : Err} (h : packHdr f = .error e) : e = .fieldOverflow := by
  by_cases hf : f.Fits
  · rw [packHdr_ok hf] at h; cases h
  · rw [packHdr_error hf] at h; cases h; rfl

theorem packSph_err {f : SphFields} {e : Err} (h : packSph f = .error e) : e = .fieldOverflow := by
  by_cases hf : f.Fits
  · rw [packSph_ok hf] at h; cases h
  · rw [packSph_error hf] at h; cases h; rfl

theorem packInPtr_err {d : InPtr} {e : Err} (h : packInPtr d = .error e) :
    e = .fieldOverflow ∨ e = .addressOutOfRange := by
  by_cases ha : d.address < 2 ^ 42
  · by_cases hs : d.size < 2 ^ 16 ∧ d.index < 64
    · rw [packInPtr_ok ⟨ha, hs⟩] at h; cases h
    · rw [packInPtr_fieldOverflow ha hs] at h; cases h; exact .inl rfl
  · rw [packInPtr_addressOutOfRange (Nat.not_lt.1 ha)] at h; cases h; exact .inr rfl

theorem packMapAlias_err {d : MapAlias} {e : Err} (h : packMapAlias d = .error e) :
    e = .fieldOverflow ∨ e = .addressOutOfRange := by
  by_cases ha : d.address < 2 ^ 58
  · by_cases hs : d.size < 2 ^ 36 ∧ d.mmode < 4
    · rw [packMapAlias_ok ⟨ha, hs⟩] at h; cases h
    · rw [packMapAlias_fieldOverflow ha hs] at h; cases h; exact .inl rfl
  · rw [packMapAlias_addressOutOfRange (Nat.not_lt.1 ha)] at h; cases h; exact .inr rfl

theorem packOutPtr_err {d : OutPtr} {e : Err} (h : packOutPtr d = .error e) :
    e = .fieldOverflow ∨ e = .addressOutOfRange := by
  by_cases ha : d.address < 2 ^ 48
  · by_cases hs : d.size < 2 ^ 16
    · rw [packOutPtr_ok ⟨ha, hs⟩] at h; cases h
    · rw [packOutPtr_fieldOverflow ha (Nat.not_lt.1 hs)] at h; cases h; exact .inl rfl
  · rw [packOutPtr_addressOutOfRange (Nat.not_lt.1 ha)] at h; cases h; exact .inr rfl

theorem hdrWords_err (f : HdrFields) (e : Err) (h : hdrWords f = .error e) : WalkErr e := by
  rcases bind_eq_error h with h | ⟨_, -, h⟩
  · exact .inl (packHdr_err h)
  · cases h

theorem sphWords_err (f : SphFields) (e : Err) (h : sphWords f = .error e) : WalkErr e := by
  rcases bind_eq_error h with h | ⟨_, -, h⟩
  · exact .inl (packSph_err h)
  · cases h

theorem inPtrWords_err (d : InPtr) (e : Err) (h : inPtrWords d = .error e) : WalkErr e := by
  rcases bind_eq_error h with h | ⟨_, -, h⟩
  · exact (packInPtr_err h).imp_right .inl
  · cases h

theorem mapAliasWords_err (d : MapAlias) (e : Err) (h : mapAliasWords d = .error e) : WalkErr e := by
  rcases bind_eq_error h with h | ⟨_, -, h⟩
  · exact (packMapAlias_err h).imp_right .inl
  · cases h

theorem outPtrWords_err (d : OutPtr) (e : Err) (h : outPtrWords d = .error e) : WalkErr e := by
  rcases bind_eq_error h with h | ⟨_, -, h⟩
  · exact (packOutPtr_err h).imp_right .inl
  · cases h

theorem oneWord_err (w : Word) (e : Err) (h : oneWord w = .error e) : WalkErr e := by cases h

theorem putSpecial_err {cap : Nat} {m : Message} {w : EncWalk} {e : Err} (h : putSpecial cap m w = .error e) :
    WalkErr e := by
  unfold putSpecial at h
  split at h
  · rcases bind_eq_error h with h | ⟨_, -, h⟩
    · exact putEach_error sphWords_err h
    · rcases bind_eq_error h with h | ⟨_, -, h⟩
      · exact putEach_error oneWord_err h
      · rcases bind_eq_error h with h | ⟨_, -, h⟩ <;> exact putEach_error oneWord_err h
  · cases h

theorem encodeMessage_err {cfg : Cfg} {m : Message} {cap : Nat} {mem : Memory} {e : Err}
    (h : encodeMessage cfg m cap mem = .error e) : WalkErr e := by
  rcases bind_eq_error h with h | ⟨_, -, h⟩
  · exact putEach_error hdrWords_err h
  rcases bind_eq_error h with h | ⟨_, -, h⟩
  · exact putSpecial_err h
  rcases bind_eq_error h with h | ⟨_, -, h⟩
  · exact putEach_error inPtrWords_err h
  rcases bind_eq_error h with h | ⟨_, -, h⟩
  · exact putEach_error mapAliasWords_err h
  rcases bind_eq_error h with h | ⟨_, -, h⟩
  · exact putEach_error mapAliasWords_err h
  rcases bind_eq_error h with h | ⟨_, -, h⟩
  · exact putEach_error mapAliasWords_err h
  rcases bind_eq_error h with h | ⟨_, -, h⟩
  · exact putEach_error oneWord_err h
  rcases bind_eq_error h with h | ⟨_, -, h⟩
  · exact putEach_error oneWord_err h
  rcases bind_eq_error h with h | ⟨_, -, h⟩
  · exact putEach_error oneWord_err h
  · exact putEach_error outPtrWords_err h

/-! ## Independence of the buffer -/

/-- Two walks end alike: with one error, or at one cursor. -/
def SameEnd (x y : Except Err EncWalk) : Prop := x.map EncWalk.pos = y.map EncWalk.pos

theorem SameEnd.bind {x y : Except Err EncWalk} (h : SameEnd x y) {f g : EncWalk → Except Err EncWalk}
    (hf : ∀ v w, v.pos = w.pos → SameEnd (f v) (g w)) : SameEnd (x >>= f) (y >>= g) := by
  unfold SameEnd at h
  cases x with
  | ok v =>
    cases y with
    | ok w => exact hf v w (by simpa [Except.map] using h)
    | error e => simp [Except.map] at h
  | error e =>
    cases y with
    | ok w => simp [Except.map] at h
    | error e' => simpa [SameEnd, Except.map] using h

theorem putEach_sameEnd {α : Type} (cap : Nat) (pack : α → Except Err (List Word)) (xs : List α) {v w : EncWalk}
    (h : v.pos = w.pos) : SameEnd (putEach cap pack xs v) (putEach cap pack xs w) := by
  induction xs generalizing v w with
  | nil => simp [SameEnd, putEach, Except.map, h]
  | cons x xs ih =>
    rw [putEach, putEach]
    cases pack x with
    | error e => rfl
    | ok ws =>
      rw [ok_bind, ok_bind]
      refine SameEnd.bind ?_ fun _ _ h => ih h
      simp only [put, need_bind, h, SameEnd]
      split <;> rfl

theorem putSpecial_sameEnd (cap : Nat) (m : Message) {v w : EncWalk} (h : v.pos = w.pos) :
    SameEnd (putSpecial cap m v) (putSpecial cap m w) := by
  unfold putSpecial
  split
  · exact (putEach_sameEnd _ _ _ h).bind fun _ _ h => (putEach_sameEnd _ _ _ h).bind fun _ _ h =>
      (putEach_sameEnd _ _ _ h).bind fun _ _ h => putEach_sameEnd _ _ _ h
  · simp [SameEnd, Except.map, h]

theorem encodeMessage_sameEnd (cfg : Cfg) (m : Message) (cap : Nat) (mem mem' : Memory) :
    SameEnd (encodeMessage cfg m cap mem) (encodeMessage cfg m cap mem') := by
  unfold encodeMessage
  refine (putEach_sameEnd (v := ⟨0, mem⟩) (w := ⟨0, mem'⟩) _ _ _ rfl).bind fun _ _ h => (putSpecial_sameEnd _ _ h).bind fun _ _ h =>
    (putEach_sameEnd _ _ _ h).bind fun _ _ h => (putEach_sameEnd _ _ _ h).bind fun _ _ h =>
    (putEach_sameEnd _ _ _ h).bind fun _ _ h => (putEach_sameEnd _ _ _ h).bind fun v w h => ?_
  rw [h]
  refine (putEach_sameEnd _ _ _ h).bind fun _ _ h => (putEach_sameEnd _ _ _ h).bind fun v w h => ?_
  rw [h]
  exact (putEach_sameEnd _ _ _ h).bind fun _ _ h => putEach_sameEnd _ _ _ h

theorem encodeMessage_error_of_error {cfg : Cfg} {m : Message} {cap : Nat} {mem : Memory} {e : Err}
    (h : encodeMessage cfg m cap mem = .error e) (mem' : Memory) : encodeMessage cfg m cap mem' = .error e := by
  have := encodeMessage_sameEnd cfg m cap mem mem'
  rw [h] at this
  unfold SameEnd at this
  cases h' : encodeMessage cfg m cap mem' with
  | ok w => simp [h', Except.map] at this
  | error e' => simpa [h', Except.map, eq_comm] using this

end Sys2Proof.Machine
end

