-- ==== Sys2Proof/Laws/State.lean ====
section
/-! SUPPORT. The fields of a state after each update. -/

namespace Sys2Proof.Machine

variable (s : State)

section Respond
variable (r : Results)
@[simp] theorem respond_cfg : (s.respond r).cfg = s.cfg := rfl
@[simp] theorem respond_mem : (s.respond r).mem = s.mem := rfl
@[simp] theorem respond_rsp : (s.respond r).rsp = some ⟨.ok, r⟩ := rfl
@[simp] theorem respond_inbox : (s.respond r).inbox = s.inbox := rfl
@[simp] theorem respond_draws : (s.respond r).draws = s.draws := rfl
@[simp] theorem respond_status : (s.respond r).status = some .ok := rfl
end Respond

section SetMem
variable (m : Memory)
@[simp] theorem setMem_cfg : (s.setMem m).cfg = s.cfg := rfl
@[simp] theorem setMem_mem : (s.setMem m).mem = m := rfl
@[simp] theorem setMem_rsp : (s.setMem m).rsp = s.rsp := rfl
@[simp] theorem setMem_inbox : (s.setMem m).inbox = s.inbox := rfl
@[simp] theorem setMem_draws : (s.setMem m).draws = s.draws := rfl
end SetMem

section ErrorReturn
variable (e : Err)
@[simp] theorem errorReturn_cfg : (s.errorReturn e).cfg = s.cfg := rfl
@[simp] theorem errorReturn_mem : (s.errorReturn e).mem = s.mem := rfl
@[simp] theorem errorReturn_status : (s.errorReturn e).status = some (.error e) := rfl
@[simp] theorem errorReturn_inbox : (s.errorReturn e).inbox = s.inbox := rfl
@[simp] theorem errorReturn_draws : (s.errorReturn e).draws = s.draws + 1 := rfl

variable (cap : Nat)
@[simp] theorem encodeErrorReturn_cfg : (s.encodeErrorReturn e cap).cfg = s.cfg := rfl
@[simp] theorem encodeErrorReturn_mem : (s.encodeErrorReturn e cap).mem = s.mem.havoc s.draws cap := rfl
@[simp] theorem encodeErrorReturn_status : (s.encodeErrorReturn e cap).status = some (.error e) := rfl
@[simp] theorem encodeErrorReturn_inbox : (s.encodeErrorReturn e cap).inbox = s.inbox := rfl
@[simp] theorem encodeErrorReturn_draws : (s.encodeErrorReturn e cap).draws = s.draws + 1 := rfl
end ErrorReturn

section WithInbox
variable (q : List Input)
@[simp] theorem withInbox_cfg : (s.withInbox q).cfg = s.cfg := rfl
@[simp] theorem withInbox_mem : (s.withInbox q).mem = s.mem := rfl
@[simp] theorem withInbox_rsp : (s.withInbox q).rsp = s.rsp := rfl
@[simp] theorem withInbox_inbox : (s.withInbox q).inbox = q := rfl
@[simp] theorem withInbox_draws : (s.withInbox q).draws = s.draws := rfl
end WithInbox

section ApplyReset
variable (rev : Revision) (tol : Bool)
@[simp] theorem applyReset_rev : (s.applyReset rev tol).cfg.rev = rev := rfl
@[simp] theorem applyReset_tolSphPad : (s.applyReset rev tol).cfg.tolSphPad = tol := rfl
@[simp] theorem applyReset_outCntTable : (s.applyReset rev tol).cfg.outCntTable = s.cfg.outCntTable := rfl
@[simp] theorem applyReset_prePadTable : (s.applyReset rev tol).cfg.prePadTable = s.cfg.prePadTable := rfl
@[simp] theorem applyReset_postPadTable : (s.applyReset rev tol).cfg.postPadTable = s.cfg.postPadTable := rfl
@[simp] theorem applyReset_mem : (s.applyReset rev tol).mem = s.mem := rfl
@[simp] theorem applyReset_rsp : (s.applyReset rev tol).rsp = none := rfl
@[simp] theorem applyReset_inbox : (s.applyReset rev tol).inbox = s.inbox := rfl
@[simp] theorem applyReset_draws : (s.applyReset rev tol).draws = s.draws := rfl
end ApplyReset

end Sys2Proof.Machine
end

