-- ==== Sys2Proof/Laws/Exec.lean ====
section
/-! SUPPORT. What an operation can do, said once: the spec lemmas of `finish` and of MSG.ENC, and the cases of `exec`
that every claim about all operations goes through. -/

namespace Sys2Proof.Machine

/-! ## finish -/

theorem revCheck_bind {β : Type} (cfg : Cfg) (rev : Revision) (k : Unit → Except Err β) :
    (revCheck cfg rev >>= k) = if rev = cfg.rev then k () else .error .revisionMismatch := by
  unfold revCheck
  split <;> rfl

theorem finish_ok (s : State) (r : Results) : finish s.cfg.rev (.ok r) s = .next (s.respond r) := by
  simp [finish, revCheck_bind]

theorem finish_error (s : State) (e : Err) : finish s.cfg.rev (.error e) s = .next (s.errorReturn e) := by
  simp [finish, revCheck_bind]

theorem finish_wrongRevision {s : State} {rev : Revision} (h : rev ≠ s.cfg.rev) (o : Except Err Results) :
    finish rev o s = .next (s.errorReturn .revisionMismatch) := by
  simp [finish, revCheck_bind, h]

/-- Everything `finish` can do. -/
theorem finish_cases (rev : Revision) (o : Except Err Results) (s : State) :
    (∃ r, rev = s.cfg.rev ∧ o = .ok r ∧ finish rev o s = .next (s.respond r))
    ∨ (∃ e, rev = s.cfg.rev ∧ o = .error e ∧ finish rev o s = .next (s.errorReturn e))
    ∨ (rev ≠ s.cfg.rev ∧ finish rev o s = .next (s.errorReturn .revisionMismatch)) := by
  by_cases h : rev = s.cfg.rev
  · subst h
    cases o with
    | ok r => exact .inl ⟨r, rfl, rfl, finish_ok s r⟩
    | error e => exact .inr (.inl ⟨e, rfl, rfl, finish_error s e⟩)
  · exact .inr (.inr ⟨h, finish_wrongRevision h o⟩)

/-! ## MSG.ENC -/

theorem execMsgEnc_ok {s : State} {m : Message} {cap : Nat} {w : EncWalk}
    (h : encodeMessage s.cfg m cap s.mem = .ok w) :
    execMsgEnc s.cfg.rev m cap s = .next ((s.setMem w.mem).respond (.msgEnc w.pos)) := by
  simp [execMsgEnc, revCheck_bind, h]

theorem execMsgEnc_error {s : State} {m : Message} {cap : Nat} {e : Err}
    (h : encodeMessage s.cfg m cap s.mem = .error e) :
    execMsgEnc s.cfg.rev m cap s = .next (s.encodeErrorReturn e cap) := by
  simp [execMsgEnc, revCheck_bind, h]

theorem execMsgEnc_wrongRevision {s : State} {rev : Revision} (h : rev ≠ s.cfg.rev) (m : Message) (cap : Nat) :
    execMsgEnc rev m cap s = .next (s.encodeErrorReturn .revisionMismatch cap) := by
  simp [execMsgEnc, revCheck_bind, h]

/-- Everything MSG.ENC can do. -/
theorem execMsgEnc_cases (rev : Revision) (m : Message) (cap : Nat) (s : State) :
    (∃ w, rev = s.cfg.rev ∧ encodeMessage s.cfg m cap s.mem = .ok w
      ∧ execMsgEnc rev m cap s = .next ((s.setMem w.mem).respond (.msgEnc w.pos)))
    ∨ (∃ e, rev = s.cfg.rev ∧ encodeMessage s.cfg m cap s.mem = .error e
      ∧ execMsgEnc rev m cap s = .next (s.encodeErrorReturn e cap))
    ∨ (rev ≠ s.cfg.rev ∧ execMsgEnc rev m cap s = .next (s.encodeErrorReturn .revisionMismatch cap)) := by
  by_cases h : rev = s.cfg.rev
  · subst h
    cases hw : encodeMessage s.cfg m cap s.mem with
    | ok w => exact .inl ⟨w, rfl, rfl, execMsgEnc_ok hw⟩
    | error e => exact .inr (.inl ⟨e, rfl, rfl, execMsgEnc_error hw⟩)
  · exact .inr (.inr ⟨h, execMsgEnc_wrongRevision h m cap⟩)

/-- MSG.ENC on a message whose every part fits (R150, R156). -/
theorem execMsgEnc_of_fits {s : State} {m : Message} (h : MessageFits s.cfg m) (cap : Nat) :
    execMsgEnc s.cfg.rev m cap s
      = if (messageOffsets s.cfg m).total ≤ cap then
          .next ((s.setMem (s.mem.writeWords 0 (messageWords s.cfg m))).respond
            (.msgEnc (messageOffsets s.cfg m).total))
        else .next (s.encodeErrorReturn .bufferTooSmall cap) := by
  have he := encodeMessage_of_fits h cap s.mem
  split
  · next ht =>
    rw [if_pos ht] at he
    rw [execMsgEnc_ok he, walkOf_mem, walkOf_pos, messageWords_length]
  · next ht =>
    rw [if_neg ht] at he
    exact execMsgEnc_error he

/-! ## Every operation -/

/-- What an operation other than MSG.ENC answers after the revision check. -/
def body (cfg : Cfg) (mem : Memory) : Instr → Except Err Results
  | .hdrEnc _ f => do let (w1, w2) ← packHdr f; .ok (.hdrEnc w1 w2)
  | .sphEnc _ f => do let w1 ← packSph f; .ok (.sphEnc w1)
  | .inptrEnc _ d => do let (w1, w2) ← packInPtr d; .ok (.inptrEnc w1 w2)
  | .mapaEnc _ d => do let (w1, w2, w3) ← packMapAlias d; .ok (.mapaEnc w1 w2 w3)
  | .outptrEnc _ d => do let (w1, w2) ← packOutPtr d; .ok (.outptrEnc w1 w2)
  | .layout _ c f cap => do let r ← layoutRecord cfg c f cap; .ok (.layout r)
  | .hdrDec _ w1 w2 => .ok (.hdrDec (unpackHdr w1 w2))
  | .sphDec _ w1 => do let f ← unpackSph cfg w1; .ok (.sphDec f)
  | .inptrDec _ w1 w2 => .ok (.inptrDec (unpackInPtr w1 w2))
  | .mapaDec _ w1 w2 w3 => .ok (.mapaDec (unpackMapAlias w1 w2 w3))
  | .outptrDec _ w1 w2 => .ok (.outptrDec (unpackOutPtr w1 w2))
  | .msgDec _ cap => decodeMessage cfg mem cap
  | .msgEnc _ _ _ => .error .badRequest
  | .unassigned7 _ => .error .badRequest
  | .unassignedD _ => .error .badRequest
  | .unassignedF _ => .error .badRequest

theorem exec_of_assigned {i : Instr} (ha : Assigned i = true) (hm : isMsgEnc i = false) (s : State) :
    exec i s = finish i.rev (body s.cfg s.mem i) s := by
  cases i <;> first
    | rfl
    | (simp [isMsgEnc] at hm; done)
    | simp [Assigned] at ha

theorem exec_of_unassigned {i : Instr} (ha : Assigned i = false) (s : State) :
    exec i s = .next (s.errorReturn .badRequest) := by
  cases i <;> first
    | rfl
    | simp [Assigned] at ha

/-- Everything an operation can do to the state. -/
theorem exec_cases (i : Instr) (s : State) :
    (∃ r, isMsgEnc i = false ∧ i.rev = s.cfg.rev ∧ Assigned i = true ∧ body s.cfg s.mem i = .ok r
      ∧ exec i s = .next (s.respond r))
    ∨ (∃ e, isMsgEnc i = false ∧ exec i s = .next (s.errorReturn e)
      ∧ ((i.rev = s.cfg.rev ∧ body s.cfg s.mem i = .error e)
        ∨ (Assigned i = true ∧ i.rev ≠ s.cfg.rev ∧ e = .revisionMismatch)
        ∨ (Assigned i = false ∧ e = .badRequest)))
    ∨ (∃ m cap w, i = .msgEnc s.cfg.rev m cap ∧ encodeMessage s.cfg m cap s.mem = .ok w
      ∧ exec i s = .next ((s.setMem w.mem).respond (.msgEnc w.pos)))
    ∨ (∃ rev m cap e, i = .msgEnc rev m cap ∧ exec i s = .next (s.encodeErrorReturn e cap)
      ∧ ((rev = s.cfg.rev ∧ encodeMessage s.cfg m cap s.mem = .error e)
        ∨ (rev ≠ s.cfg.rev ∧ e = .revisionMismatch))) := by
  by_cases ha : Assigned i = true
  · by_cases hm : isMsgEnc i = false
    · rw [exec_of_assigned ha hm]
      rcases finish_cases i.rev (body s.cfg s.mem i) s with ⟨r, h1, h2, h3⟩ | ⟨e, h1, h2, h3⟩ | ⟨h1, h3⟩
      · exact .inl ⟨r, hm, h1, ha, h2, h3⟩
      · exact .inr (.inl ⟨e, hm, h3, .inl ⟨h1, h2⟩⟩)
      · exact .inr (.inl ⟨_, hm, h3, .inr (.inl ⟨ha, h1, rfl⟩)⟩)
    · cases i with
      | msgEnc rev m cap =>
        rcases execMsgEnc_cases rev m cap s with ⟨w, h1, h2, h3⟩ | ⟨e, h1, h2, h3⟩ | ⟨h1, h3⟩
        · exact .inr (.inr (.inl ⟨m, cap, w, by rw [h1], h2, h3⟩))
        · exact .inr (.inr (.inr ⟨rev, m, cap, e, rfl, h3, .inl ⟨h1, h2⟩⟩))
        · exact .inr (.inr (.inr ⟨rev, m, cap, _, rfl, h3, .inr ⟨h1, rfl⟩⟩))
      | _ => exact absurd rfl hm
  · have hf : Assigned i = false := by simpa using ha
    refine .inr (.inl ⟨.badRequest, ?_, exec_of_unassigned hf s, .inr (.inr ⟨hf, rfl⟩)⟩)
    cases i <;> first
      | rfl
      | simp [Assigned] at hf

/-- The same, read from an answer. -/
theorem exec_next {i : Instr} {s t : State} (h : exec i s = .next t) :
    (∃ r, isMsgEnc i = false ∧ i.rev = s.cfg.rev ∧ Assigned i = true ∧ body s.cfg s.mem i = .ok r
      ∧ t = s.respond r)
    ∨ (∃ e, isMsgEnc i = false ∧ t = s.errorReturn e
      ∧ ((i.rev = s.cfg.rev ∧ body s.cfg s.mem i = .error e)
        ∨ (Assigned i = true ∧ i.rev ≠ s.cfg.rev ∧ e = .revisionMismatch)
        ∨ (Assigned i = false ∧ e = .badRequest)))
    ∨ (∃ m cap w, i = .msgEnc s.cfg.rev m cap ∧ encodeMessage s.cfg m cap s.mem = .ok w
      ∧ t = (s.setMem w.mem).respond (.msgEnc w.pos))
    ∨ (∃ rev m cap e, i = .msgEnc rev m cap ∧ t = s.encodeErrorReturn e cap
      ∧ ((rev = s.cfg.rev ∧ encodeMessage s.cfg m cap s.mem = .error e)
        ∨ (rev ≠ s.cfg.rev ∧ e = .revisionMismatch))) := by
  rcases exec_cases i s with
    ⟨r, h1, h2, h3, h4, h5⟩ | ⟨e, h1, h2, h3⟩ | ⟨m, cap, w, h1, h2, h3⟩ | ⟨rev, m, cap, e, h1, h2, h3⟩
  · rw [h5] at h
    cases h
    exact .inl ⟨r, h1, h2, h3, h4, rfl⟩
  · rw [h2] at h
    cases h
    exact .inr (.inl ⟨e, h1, rfl, h3⟩)
  · rw [h3] at h
    cases h
    exact .inr (.inr (.inl ⟨m, cap, w, h1, h2, rfl⟩))
  · rw [h2] at h
    cases h
    exact .inr (.inr (.inr ⟨rev, m, cap, e, h1, rfl, h3⟩))

end Sys2Proof.Machine
end

