-- ==== Sys2Proof/Laws/ReadBack.lean ====
section
/-! SUPPORT. The words of an encoded message, section by section at the offsets of 43_offset_calculator.md R146, and
what the decoder reads there. -/

namespace Sys2Proof.Machine

theorem entries_getElem {α : Type} [Inhabited α] (t : List α) {n i : Nat} (h : i < (entries t n).length) :
    (entries t n)[i] = t.getD i default := by
  induction n generalizing t i with
  | zero => simp at h
  | succ n ih =>
    cases i with
    | zero => cases t <;> simp [entries, List.takeD]
    | succ i =>
      have h' : i < (entries t.tail n).length := by simpa using h
      cases t with
      | nil => simp [entries, List.takeD]
      | cons x t => simpa [entries, List.takeD] using ih t h'

theorem mem_entries_getD {α : Type} [Inhabited α] (t : List α) {n i : Nat} (h : i < n) :
    t.getD i default ∈ entries t n := by
  have hl : i < (entries t n).length := by simpa using h
  rw [← entries_getElem t hl]
  exact List.getElem_mem hl

theorem entries_split {α : Type} [Inhabited α] (t : List α) {n j : Nat} (h : j < n) :
    entries t n = (entries t n).take j ++ t.getD j default :: (entries t n).drop (j + 1) := by
  have hl : j < (entries t n).length := by simpa using h
  rw [← entries_getElem t hl]
  simp

theorem readWord_of_getElem? {mem : Memory} (hw : mem.wf = true) {ws : List Word} {n : Nat} {v : Word}
    (h : ws[n]? = some v) : (mem.writeWords 0 ws).readWord n = v := by
  obtain ⟨hl, rfl⟩ := List.getElem?_eq_some_iff.1 h
  have := Memory.readWord_writeWords hw 0 hl
  rwa [Nat.zero_add] at this

/-- A section of `k` words an element, with the words before it and after it. -/
theorem section_getElem? {α : Type} {f : α → List Word} {k : Nat} (hf : ∀ x, (f x).length = k)
    {W pre post : List Word} {xs : List α} (hW : W = pre ++ xs.flatMap f ++ post) {off : Nat}
    (hoff : pre.length = off) {i j : Nat} (hi : i < xs.length) (hj : j < k) :
    W[off + k * i + j]? = (f xs[i])[j]? := by
  have hb : k * i + j < (xs.flatMap f).length := by
    rw [length_flatMap_of_const hf]
    have := Nat.mul_le_mul_left k (Nat.succ_le_of_lt hi)
    rw [Nat.mul_succ] at this
    omega
  rw [hW, List.append_assoc, List.getElem?_append_right (by omega), List.getElem?_append_left (by omega),
    show off + k * i + j - pre.length = k * i + j by omega, getElem_flatMap_of_const hf xs hi hj]

/-- A section of whole words. -/
theorem section_word_getElem? {W pre post ws : List Word} (hW : W = pre ++ ws ++ post) {off : Nat}
    (hoff : pre.length = off) {i : Nat} (hi : i < ws.length) : W[off + i]? = some ws[i] := by
  rw [hW, List.append_assoc, List.getElem?_append_right (by omega), List.getElem?_append_left (by omega),
    show off + i - pre.length = i by omega, List.getElem?_eq_getElem hi]

variable (cfg : Cfg) (m : Message)

/-! ## The sections of a message, each between what stands before it and after it -/

theorem messageWords_hdr : ∃ post, messageWords cfg m = [] ++ hdrList m.hdr ++ post :=
  ⟨_, by simp only [messageWords, frontList, List.append_assoc, List.nil_append]; rfl⟩

theorem messageWords_special : ∃ post, messageWords cfg m = hdrList m.hdr ++ specialList m ++ post :=
  ⟨_, by simp only [messageWords, frontList, List.append_assoc]; rfl⟩

theorem messageWords_inptr : ∃ pre post,
    messageWords cfg m = pre ++ (entries m.inptr m.hdr.countA).flatMap inPtrList ++ post
      ∧ pre.length = (messageOffsets cfg m).offInptr :=
  ⟨hdrList m.hdr ++ specialList m, _, by
    simp only [messageWords, frontList, List.append_assoc]; rfl, by
    simp only [List.length_append, hdrList_length, specialList_length]; rfl⟩

theorem messageWords_inmap : ∃ pre post,
    messageWords cfg m = pre ++ (entries m.inmap m.hdr.countB).flatMap mapAliasList ++ post
      ∧ pre.length = (messageOffsets cfg m).offInmap :=
  ⟨hdrList m.hdr ++ specialList m ++ (entries m.inptr m.hdr.countA).flatMap inPtrList, _, by
    simp only [messageWords, frontList, List.append_assoc]; rfl, by
    simp only [List.length_append, hdrList_length, specialList_length, length_flatMap_of_const inPtrList_length,
      entries_length]; rfl⟩

theorem messageWords_outmap : ∃ pre post,
    messageWords cfg m = pre ++ (entries m.outmap m.hdr.countC).flatMap mapAliasList ++ post
      ∧ pre.length = (messageOffsets cfg m).offOutmap :=
  ⟨hdrList m.hdr ++ specialList m ++ (entries m.inptr m.hdr.countA).flatMap inPtrList
      ++ (entries m.inmap m.hdr.countB).flatMap mapAliasList, _, by
    simp only [messageWords, frontList, List.append_assoc]; rfl, by
    simp only [List.length_append, hdrList_length, specialList_length, length_flatMap_of_const inPtrList_length,
      length_flatMap_of_const mapAliasList_length, entries_length]; rfl⟩

theorem messageWords_inoutmap : ∃ pre post,
    messageWords cfg m = pre ++ (entries m.inoutmap m.hdr.countD).flatMap mapAliasList ++ post
      ∧ pre.length = (messageOffsets cfg m).offInoutmap :=
  ⟨hdrList m.hdr ++ specialList m ++ (entries m.inptr m.hdr.countA).flatMap inPtrList
      ++ (entries m.inmap m.hdr.countB).flatMap mapAliasList
      ++ (entries m.outmap m.hdr.countC).flatMap mapAliasList, _, by
    simp only [messageWords, frontList, List.append_assoc]; rfl, by
    simp only [List.length_append, hdrList_length, specialList_length, length_flatMap_of_const inPtrList_length,
      length_flatMap_of_const mapAliasList_length, entries_length]; rfl⟩

theorem messageWords_prepad : ∃ pre post,
    messageWords cfg m
        = pre ++ List.replicate (prePad cfg m.hdr.mode (messageOffsets cfg m).offPrepad) 0 ++ post
      ∧ pre.length = (messageOffsets cfg m).offPrepad :=
  ⟨frontList m, _, by simp only [messageWords, List.append_assoc]; rfl, frontList_length cfg m⟩

theorem messageWords_data : ∃ pre post,
    messageWords cfg m = pre ++ entries m.data m.hdr.numDataWords ++ post
      ∧ pre.length = (messageOffsets cfg m).offData :=
  ⟨frontList m ++ List.replicate (prePad cfg m.hdr.mode (messageOffsets cfg m).offPrepad) 0, _, by
    simp only [messageWords, List.append_assoc]; rfl, by
    simp only [List.length_append, frontList_length cfg, List.length_replicate]; rfl⟩

theorem messageWords_postpad : ∃ pre post,
    messageWords cfg m
        = pre ++ List.replicate (postPad cfg m.hdr.mode (messageOffsets cfg m).offPostpad) 0 ++ post
      ∧ pre.length = (messageOffsets cfg m).offPostpad :=
  ⟨frontList m ++ List.replicate (prePad cfg m.hdr.mode (messageOffsets cfg m).offPrepad) 0
      ++ entries m.data m.hdr.numDataWords, _, by
    simp only [messageWords, List.append_assoc]; rfl, by
    simp only [List.length_append, frontList_length cfg, List.length_replicate, entries_length]; rfl⟩

theorem messageWords_outptr : ∃ pre post,
    messageWords cfg m = pre ++ (entries m.outptr (outCnt cfg m.hdr.mode)).flatMap outPtrList ++ post
      ∧ pre.length = (messageOffsets cfg m).offOutptr :=
  ⟨_, [], by simp only [messageWords, List.append_nil]; rfl, by
    simp only [List.length_append, frontList_length cfg, List.length_replicate, entries_length]; rfl⟩

/-! ## The words of the buffer after the message was written -/

variable {cfg m} {mem : Memory}

theorem written_hdr (hw : mem.wf = true) :
    (mem.writeWords 0 (messageWords cfg m)).readWord 0 = toWord (hdrWord1 m.hdr)
    ∧ (mem.writeWords 0 (messageWords cfg m)).readWord 1 = toWord (hdrWord2 m.hdr.toCounts) := by
  obtain ⟨post, hW⟩ := messageWords_hdr cfg m
  exact ⟨readWord_of_getElem? hw (section_word_getElem? hW (off := 0) rfl (i := 0) (by simp [hdrList])),
    readWord_of_getElem? hw (section_word_getElem? hW (off := 0) rfl (i := 1) (by simp [hdrList]))⟩

theorem specialList_eq (h : m.hdr.hasSpecialHeader = true) :
    specialList m = sphList m.sph ++ List.replicate m.sph.sendPid.toNat 0
      ++ entries m.copyHandle m.sph.numCopyHandles ++ entries m.moveHandle m.sph.numMoveHandles := by
  rw [specialList, if_pos h]

theorem written_sph (hw : mem.wf = true) (h : m.hdr.hasSpecialHeader = true) :
    (mem.writeWords 0 (messageWords cfg m)).readWord 2 = toWord (sphWord m.sph) := by
  obtain ⟨post, hW⟩ := messageWords_special cfg m
  have hl : 0 < (specialList m).length := by rw [specialList_length, sphLen, if_pos h]; omega
  rw [readWord_of_getElem? hw (section_word_getElem? hW (off := 2) rfl (i := 0) hl)]
  simp [specialList_eq h, sphList]

theorem written_pid (hw : mem.wf = true) (h : m.hdr.hasSpecialHeader = true) (hp : m.sph.sendPid = true) :
    (mem.writeWords 0 (messageWords cfg m)).readWord 3 = 0 := by
  obtain ⟨post, hW⟩ := messageWords_special cfg m
  have hl : 1 < (specialList m).length := by
    rw [specialList_length, sphLen, if_pos h, hp, Bool.toNat_true]; omega
  rw [readWord_of_getElem? hw (section_word_getElem? hW (off := 2) rfl (i := 1) hl)]
  simp [specialList_eq h, sphList, hp]

theorem written_copy (hw : mem.wf = true) (h : m.hdr.hasSpecialHeader = true) {i : Nat}
    (hi : i < m.sph.numCopyHandles) :
    (mem.writeWords 0 (messageWords cfg m)).readWord ((messageOffsets cfg m).offCopy + i)
      = m.copyHandle.getD i default := by
  obtain ⟨post, hW⟩ := messageWords_special cfg m
  rw [specialList_eq h] at hW
  have hW' : messageWords cfg m = (hdrList m.hdr ++ (sphList m.sph ++ List.replicate m.sph.sendPid.toNat 0))
      ++ entries m.copyHandle m.sph.numCopyHandles ++ (entries m.moveHandle m.sph.numMoveHandles ++ post) := by
    rw [hW]; simp only [List.append_assoc]
  have hl : (hdrList m.hdr ++ (sphList m.sph ++ List.replicate m.sph.sendPid.toNat 0)).length
      = (messageOffsets cfg m).offCopy := by
    simp only [List.length_append, hdrList_length, sphList, List.length_cons, List.length_nil, List.length_replicate,
      messageOffsets, offsets, h, Bool.toNat_true]
    omega
  rw [readWord_of_getElem? hw (section_word_getElem? hW' hl (i := i) (by simpa using hi)), entries_getElem]

theorem written_move (hw : mem.wf = true) (h : m.hdr.hasSpecialHeader = true) {i : Nat}
    (hi : i < m.sph.numMoveHandles) :
    (mem.writeWords 0 (messageWords cfg m)).readWord ((messageOffsets cfg m).offMove + i)
      = m.moveHandle.getD i default := by
  obtain ⟨post, hW⟩ := messageWords_special cfg m
  rw [specialList_eq h] at hW
  have hW' : messageWords cfg m = (hdrList m.hdr ++ (sphList m.sph ++ List.replicate m.sph.sendPid.toNat 0
      ++ entries m.copyHandle m.sph.numCopyHandles)) ++ entries m.moveHandle m.sph.numMoveHandles ++ post := by
    rw [hW]; simp only [List.append_assoc]
  have hl : (hdrList m.hdr ++ (sphList m.sph ++ List.replicate m.sph.sendPid.toNat 0
      ++ entries m.copyHandle m.sph.numCopyHandles)).length = (messageOffsets cfg m).offMove := by
    simp only [List.length_append, hdrList_length, sphList, List.length_cons, List.length_nil, List.length_replicate,
      entries_length, messageOffsets, offsets, h, Bool.toNat_true]
    omega
  rw [readWord_of_getElem? hw (section_word_getElem? hW' hl (i := i) (by simpa using hi)), entries_getElem]

theorem written_element {α : Type} [Inhabited α] {f : α → List Word} {k : Nat} (hf : ∀ x, (f x).length = k)
    {table : List α} {n off : Nat}
    (hs : ∃ pre post, messageWords cfg m = pre ++ (entries table n).flatMap f ++ post ∧ pre.length = off)
    (hw : mem.wf = true) {i j : Nat} (hi : i < n) (hj : j < k) {v : Word}
    (hv : (f (table.getD i default))[j]? = some v) :
    (mem.writeWords 0 (messageWords cfg m)).readWord (off + k * i + j) = v := by
  obtain ⟨pre, post, hW, hl⟩ := hs
  refine readWord_of_getElem? hw ?_
  rw [section_getElem? hf hW hl (by simpa using hi) hj, entries_getElem, hv]

theorem written_inptr (hw : mem.wf = true) {i : Nat} (hi : i < m.hdr.countA) :
    (mem.writeWords 0 (messageWords cfg m)).readWord ((messageOffsets cfg m).offInptr + 2 * i)
        = toWord (inPtrWord1 (m.inptr.getD i default))
    ∧ (mem.writeWords 0 (messageWords cfg m)).readWord ((messageOffsets cfg m).offInptr + 2 * i + 1)
        = toWord ((m.inptr.getD i default).address % 2 ^ 32) :=
  ⟨written_element inPtrList_length (messageWords_inptr cfg m) hw hi (j := 0) (by omega) rfl,
    written_element inPtrList_length (messageWords_inptr cfg m) hw hi (j := 1) (by omega) rfl⟩

theorem written_mapAlias {table : List MapAlias} {n off : Nat}
    (hs : ∃ pre post, messageWords cfg m = pre ++ (entries table n).flatMap mapAliasList ++ post ∧ pre.length = off)
    (hw : mem.wf = true) {i : Nat} (hi : i < n) :
    (mem.writeWords 0 (messageWords cfg m)).readWord (off + 3 * i) = toWord ((table.getD i default).size % 2 ^ 32)
    ∧ (mem.writeWords 0 (messageWords cfg m)).readWord (off + 3 * i + 1)
        = toWord ((table.getD i default).address % 2 ^ 32)
    ∧ (mem.writeWords 0 (messageWords cfg m)).readWord (off + 3 * i + 2)
        = toWord (mapAliasWord3 (table.getD i default)) :=
  ⟨written_element mapAliasList_length hs hw hi (j := 0) (by omega) rfl,
    written_element mapAliasList_length hs hw hi (j := 1) (by omega) rfl,
    written_element mapAliasList_length hs hw hi (j := 2) (by omega) rfl⟩

theorem written_outptr (hw : mem.wf = true) {i : Nat} (hi : i < outCnt cfg m.hdr.mode) :
    (mem.writeWords 0 (messageWords cfg m)).readWord ((messageOffsets cfg m).offOutptr + 2 * i)
        = toWord ((m.outptr.getD i default).address % 2 ^ 32)
    ∧ (mem.writeWords 0 (messageWords cfg m)).readWord ((messageOffsets cfg m).offOutptr + 2 * i + 1)
        = toWord (outPtrWord2 (m.outptr.getD i default)) :=
  ⟨written_element outPtrList_length (messageWords_outptr cfg m) hw hi (j := 0) (by omega) rfl,
    written_element outPtrList_length (messageWords_outptr cfg m) hw hi (j := 1) (by omega) rfl⟩

theorem written_data (hw : mem.wf = true) {i : Nat} (hi : i < m.hdr.numDataWords) :
    (mem.writeWords 0 (messageWords cfg m)).readWord ((messageOffsets cfg m).offData + i)
      = m.data.getD i default := by
  obtain ⟨pre, post, hW, hl⟩ := messageWords_data cfg m
  rw [readWord_of_getElem? hw (section_word_getElem? hW hl (i := i) (by simpa using hi)), entries_getElem]

theorem written_padding {n off : Nat}
    (hs : ∃ pre post, messageWords cfg m = pre ++ List.replicate n 0 ++ post ∧ pre.length = off)
    (hw : mem.wf = true) {i : Nat} (hi : off ≤ i) (hi' : i < off + n) :
    (mem.writeWords 0 (messageWords cfg m)).readWord i = 0 := by
  obtain ⟨pre, post, hW, hl⟩ := hs
  obtain ⟨j, rfl⟩ : ∃ j, i = off + j := ⟨i - off, by omega⟩
  rw [readWord_of_getElem? hw (section_word_getElem? hW hl (i := j) (by simpa using by omega))]
  simp

end Sys2Proof.Machine
end

