-- ==== Sys2Proof/Laws/FirstError.lean ====
section
/-! SUPPORT. MSG.ENC's walk against the list of a message's elements: where the list has a first error the walk ends in
it, and otherwise the walk reaches the end of the list (43_offset_calculator.md R150, 60_exceptions.md R179). -/

namespace Sys2Proof.Machine

/-! ## The list -/

/-- The length of a run of elements. -/
def lengthOf (xs : List Element) : Nat := (xs.map Element.words).sum

@[simp] theorem lengthOf_nil : lengthOf [] = 0 := rfl

@[simp] theorem lengthOf_cons (x : Element) (xs : List Element) : lengthOf (x :: xs) = x.words + lengthOf xs := by
  simp [lengthOf]

@[simp] theorem lengthOf_append (xs ys : List Element) : lengthOf (xs ++ ys) = lengthOf xs + lengthOf ys := by
  simp [lengthOf]

@[simp] theorem lengthOf_wordElements (n : Nat) : lengthOf (wordElements n) = n := by simp [lengthOf, wordElements]

theorem lengthOf_map {α : Type} {f : α → Element} {k : Nat} (hf : ∀ x, (f x).words = k) (xs : List α) :
    lengthOf (xs.map f) = k * xs.length := by
  induction xs with
  | nil => rfl
  | cons x xs ih => rw [List.map_cons, lengthOf_cons, hf, ih, List.length_cons, Nat.mul_succ, Nat.add_comm]

theorem firstError_append (cap pos : Nat) (xs ys : List Element) :
    firstError cap pos (xs ++ ys) = (firstError cap pos xs).or (firstError cap (pos + lengthOf xs) ys) := by
  induction xs generalizing pos with
  | nil => simp [firstError]
  | cons x xs ih =>
    simp only [List.cons_append, firstError, lengthOf_cons]
    cases x.misfit with
    | some e => rfl
    | none =>
      simp only
      split
      · rw [ih, Nat.add_assoc]
      · rfl

/-- Elements that all fit and have room are no error. -/
theorem firstError_none {cap pos : Nat} {xs : List Element} (hf : ∀ x ∈ xs, x.misfit = none)
    (hr : pos + lengthOf xs ≤ cap) : firstError cap pos xs = none := by
  induction xs generalizing pos with
  | nil => rfl
  | cons x xs ih =>
    rw [lengthOf_cons] at hr
    rw [firstError, hf x List.mem_cons_self]
    simp only
    rw [if_pos (by omega)]
    exact ih (fun y hy => hf y (List.mem_cons_of_mem x hy)) (by omega)

/-- The first element that does not fit, after elements that fit and have room. -/
theorem firstError_misfit {cap pos : Nat} {xs ys : List Element} {x : Element} {e : Err}
    (hf : ∀ y ∈ xs, y.misfit = none) (hr : pos + lengthOf xs ≤ cap) (he : x.misfit = some e) :
    firstError cap pos (xs ++ x :: ys) = some e := by
  rw [firstError_append, firstError_none hf hr, firstError, he]
  rfl

/-- The first element without room, after elements that fit and have room. -/
theorem firstError_noRoom {cap pos : Nat} {xs ys : List Element} {x : Element}
    (hf : ∀ y ∈ xs, y.misfit = none) (hr : pos + lengthOf xs ≤ cap) (he : x.misfit = none)
    (hx : cap < pos + lengthOf xs + x.words) : firstError cap pos (xs ++ x :: ys) = some .bufferTooSmall := by
  rw [firstError_append, firstError_none hf hr, firstError, he]
  simp only
  rw [if_neg (by omega)]
  rfl

/-! ## The walk -/

/-- The walk `x` from position `pos` goes as the elements `xs` say. -/
def Tracks (cap pos : Nat) (xs : List Element) (x : Except Err EncWalk) : Prop :=
  match firstError cap pos xs with
  | some e => x = .error e
  | none => ∃ w, x = .ok w ∧ w.pos = pos + lengthOf xs

theorem Tracks.nil (cap : Nat) (w : EncWalk) : Tracks cap w.pos [] (.ok w) := ⟨w, rfl, rfl⟩

theorem Tracks.bind {cap pos : Nat} {xs ys : List Element} {x : Except Err EncWalk} {f : EncWalk → Except Err EncWalk}
    (hx : Tracks cap pos xs x) (hf : ∀ w, w.pos = pos + lengthOf xs → Tracks cap (pos + lengthOf xs) ys (f w)) :
    Tracks cap pos (xs ++ ys) (x >>= f) := by
  unfold Tracks at hx ⊢
  rw [firstError_append]
  cases h : firstError cap pos xs with
  | some e =>
    rw [h] at hx
    simp only at hx
    subst hx
    rfl
  | none =>
    rw [h] at hx
    obtain ⟨w, rfl, hw⟩ := hx
    have := hf w hw
    unfold Tracks at this
    simpa [Nat.add_assoc] using this

/-- An element packs, into as many words as it has, or fails with the error of its validation. -/
def PacksAs {α : Type} (pack : α → Except Err (List Word)) (el : α → Element) : Prop :=
  ∀ x, match (el x).misfit with
    | some e => pack x = .error e
    | none => ∃ ws, pack x = .ok ws ∧ ws.length = (el x).words

theorem putEach_tracks {α : Type} {pack : α → Except Err (List Word)} {el : α → Element} (hp : PacksAs pack el)
    (cap : Nat) (xs : List α) (w : EncWalk) : Tracks cap w.pos (xs.map el) (putEach cap pack xs w) := by
  induction xs generalizing w with
  | nil => exact Tracks.nil cap w
  | cons x xs ih =>
    have hx := hp x
    unfold Tracks
    rw [putEach, List.map_cons, firstError, lengthOf_cons]
    cases hm : (el x).misfit with
    | some e =>
      rw [hm] at hx
      simp only at hx ⊢
      rw [hx, error_bind]
    | none =>
      rw [hm] at hx
      obtain ⟨ws, hws, hl⟩ := hx
      simp only
      rw [hws, ok_bind, put, need_bind, hl]
      by_cases hr : w.pos + (el x).words ≤ cap
      · rw [if_pos hr, if_pos hr, ok_bind]
        have := ih ⟨w.pos + (el x).words, w.mem.writeWords w.pos ws⟩
        unfold Tracks at this
        simpa only [Nat.add_assoc] using this
      · rw [if_neg hr, if_neg hr, error_bind]

theorem hdrWords_packsAs : PacksAs hdrWords hdrElement := fun f => by
  by_cases h : f.Fits
  · simp only [hdrElement, if_pos h]
    exact ⟨_, hdrWords_ok h, rfl⟩
  · simp only [hdrElement, if_neg h, hdrWords, packHdr_error h, error_bind]

theorem sphWords_packsAs : PacksAs sphWords sphElement := fun f => by
  by_cases h : f.Fits
  · simp only [sphElement, if_pos h]
    exact ⟨_, sphWords_ok h, rfl⟩
  · simp only [sphElement, if_neg h, sphWords, packSph_error h, error_bind]

theorem inPtrWords_packsAs : PacksAs inPtrWords inPtrElement := fun d => by
  by_cases ha : 2 ^ 42 ≤ d.address
  · simp only [inPtrElement, if_pos ha, inPtrWords, packInPtr_addressOutOfRange ha, error_bind]
  · have ha' := Nat.not_le.1 ha
    by_cases h : d.Fits
    · simp only [inPtrElement, if_neg ha, if_pos h]
      exact ⟨_, inPtrWords_ok h, rfl⟩
    · simp only [inPtrElement, if_neg ha, if_neg h, inPtrWords,
        packInPtr_fieldOverflow ha' fun hh => h ⟨ha', hh⟩, error_bind]

theorem mapAliasWords_packsAs : PacksAs mapAliasWords mapAliasElement := fun d => by
  by_cases ha : 2 ^ 58 ≤ d.address
  · simp only [mapAliasElement, if_pos ha, mapAliasWords, packMapAlias_addressOutOfRange ha, error_bind]
  · have ha' := Nat.not_le.1 ha
    by_cases h : d.Fits
    · simp only [mapAliasElement, if_neg ha, if_pos h]
      exact ⟨_, mapAliasWords_ok h, rfl⟩
    · simp only [mapAliasElement, if_neg ha, if_neg h, mapAliasWords,
        packMapAlias_fieldOverflow ha' fun hh => h ⟨ha', hh⟩, error_bind]

theorem outPtrWords_packsAs : PacksAs outPtrWords outPtrElement := fun d => by
  by_cases ha : 2 ^ 48 ≤ d.address
  · simp only [outPtrElement, if_pos ha, outPtrWords, packOutPtr_addressOutOfRange ha, error_bind]
  · have ha' := Nat.not_le.1 ha
    by_cases h : d.Fits
    · simp only [outPtrElement, if_neg ha, if_pos h]
      exact ⟨_, outPtrWords_ok h, rfl⟩
    · simp only [outPtrElement, if_neg ha, if_neg h, outPtrWords,
        packOutPtr_fieldOverflow ha' (Nat.not_lt.1 fun hh => h ⟨ha', hh⟩), error_bind]

/-- A run of whole words. -/
theorem putWords_tracks (cap : Nat) (ws : List Word) {n : Nat} (hn : ws.length = n) (w : EncWalk) :
    Tracks cap w.pos (wordElements n) (putEach cap oneWord ws w) := by
  have h := putEach_tracks (pack := oneWord) (el := fun _ => ⟨none, 1⟩) (fun x => ⟨[x], rfl, rfl⟩) cap ws w
  rwa [List.map_const', hn] at h

theorem putSpecial_tracks (cap : Nat) (m : Message) (w : EncWalk) :
    Tracks cap w.pos (specialElements m) (putSpecial cap m w) := by
  unfold specialElements putSpecial
  split
  · rw [List.append_assoc, List.append_assoc]
    refine (putEach_tracks sphWords_packsAs cap [m.sph] w).bind fun w1 h1 => ?_
    rw [← h1]
    refine (putWords_tracks cap _ (by simp) w1).bind fun w2 h2 => ?_
    rw [← h2]
    refine (putWords_tracks cap _ (by simp) w2).bind fun w3 h3 => ?_
    rw [← h3]
    exact putWords_tracks cap _ (by simp) w3
  · exact Tracks.nil cap w

theorem lengthOf_specialElements (m : Message) :
    lengthOf (specialElements m) = sphLen m.hdr.hasSpecialHeader m.sph := by
  unfold specialElements sphLen
  split
  · simp only [lengthOf_append, lengthOf_wordElements, lengthOf_cons, lengthOf_nil, sphElement]
  · rfl

theorem lengthOf_inPtrElements (xs : List InPtr) : lengthOf (xs.map inPtrElement) = 2 * xs.length :=
  lengthOf_map (f := inPtrElement) (fun _ => rfl) xs

theorem lengthOf_mapAliasElements (xs : List MapAlias) : lengthOf (xs.map mapAliasElement) = 3 * xs.length :=
  lengthOf_map (f := mapAliasElement) (fun _ => rfl) xs

theorem lengthOf_outPtrElements (xs : List OutPtr) : lengthOf (xs.map outPtrElement) = 2 * xs.length :=
  lengthOf_map (f := outPtrElement) (fun _ => rfl) xs

/-- MSG.ENC's whole walk goes as the elements of the message say. -/
theorem encodeMessage_tracks (cfg : Cfg) (m : Message) (cap : Nat) (mem : Memory) :
    Tracks cap 0 (messageElements cfg m) (encodeMessage cfg m cap mem) := by
  unfold messageElements encodeMessage
  simp only [List.append_assoc]
  refine (putEach_tracks hdrWords_packsAs cap [m.hdr] ⟨0, mem⟩).bind fun w1 h1 => ?_
  rw [← h1]
  refine (putSpecial_tracks cap m w1).bind fun w2 h2 => ?_
  rw [← h2]
  refine (putEach_tracks inPtrWords_packsAs cap _ w2).bind fun w3 h3 => ?_
  rw [← h3]
  refine (putEach_tracks mapAliasWords_packsAs cap _ w3).bind fun w4 h4 => ?_
  rw [← h4]
  refine (putEach_tracks mapAliasWords_packsAs cap _ w4).bind fun w5 h5 => ?_
  rw [← h5]
  refine (putEach_tracks mapAliasWords_packsAs cap _ w5).bind fun w6 h6 => ?_
  rw [← h6]
  have e6 : w6.pos = (messageOffsets cfg m).offPrepad := by
    rw [h6, h5, h4, h3, h2, h1, lengthOf_specialElements, lengthOf_inPtrElements, lengthOf_mapAliasElements,
      lengthOf_mapAliasElements, lengthOf_mapAliasElements]
    simp only [entries_length, List.map_cons, List.map_nil, lengthOf_cons, lengthOf_nil, hdrElement, messageOffsets,
      offsets]
    omega
  refine (putWords_tracks cap _ (by rw [List.length_replicate, e6]) w6).bind fun w7 h7 => ?_
  rw [← h7]
  refine (putWords_tracks cap _ (entries_length _ _) w7).bind fun w8 h8 => ?_
  rw [← h8]
  have e8 : w8.pos = (messageOffsets cfg m).offPostpad := by
    rw [h8, h7, e6, lengthOf_wordElements, lengthOf_wordElements]
    rfl
  refine (putWords_tracks cap _ (by rw [List.length_replicate, e8]) w8).bind fun w9 h9 => ?_
  rw [← h9]
  exact putEach_tracks outPtrWords_packsAs cap _ w9

/-! ## Elements that fit -/

theorem hdrElement_fits {f : HdrFields} (h : f.Fits) : (hdrElement f).misfit = none := if_pos h

theorem sphElement_fits {f : SphFields} (h : f.Fits) : (sphElement f).misfit = none := if_pos h

theorem inPtrElement_fits {d : InPtr} (h : d.Fits) : (inPtrElement d).misfit = none :=
  (if_neg (Nat.not_le.2 h.1)).trans (if_pos h)

theorem mapAliasElement_fits {d : MapAlias} (h : d.Fits) : (mapAliasElement d).misfit = none :=
  (if_neg (Nat.not_le.2 h.1)).trans (if_pos h)

theorem outPtrElement_fits {d : OutPtr} (h : d.Fits) : (outPtrElement d).misfit = none :=
  (if_neg (Nat.not_le.2 h.1)).trans (if_pos h)

theorem wordElements_fit {n : Nat} {x : Element} (h : x ∈ wordElements n) : x.misfit = none := by
  rw [List.eq_of_mem_replicate h]

theorem specialElements_fit {m : Message} (h : m.hdr.hasSpecialHeader = true → m.sph.Fits) {x : Element}
    (hx : x ∈ specialElements m) : x.misfit = none := by
  unfold specialElements at hx
  split at hx
  · next hb =>
    simp only [List.mem_append, List.mem_singleton] at hx
    rcases hx with ((rfl | hx) | hx) | hx
    · exact sphElement_fits (h hb)
    all_goals exact wordElements_fit hx
  · simp at hx

/-- The elements of a section, cut before its entry `j`. -/
theorem entries_map_split {α : Type} [Inhabited α] (el : α → Element) (t : List α) {n j : Nat} (h : j < n) :
    (entries t n).map el
      = (entries t j).map el ++ el (t.getD j default) :: ((entries t n).drop (j + 1)).map el := by
  conv_lhs => rw [entries_split t h, List.map_append, List.map_cons]
  congr 2
  apply List.ext_getElem
  · simp
    omega
  · intro i h1 h2
    rw [List.getElem_take, entries_getElem, entries_getElem]

theorem forall_entries {α : Type} [Inhabited α] {P : α → Prop} {t : List α} {n : Nat}
    (h : ∀ i < n, P (t.getD i default)) : ∀ x ∈ entries t n, P x := by
  intro x hx
  obtain ⟨i, hi, rfl⟩ := List.getElem_of_mem hx
  rw [entries_getElem]
  exact h i (by simpa using hi)

end Sys2Proof.Machine
end

