-- ==== Sys2Proof/Laws/Layout.lean ====
section
/-! SUPPORT. The offset record and LAYOUT's checks (43_offset_calculator.md R141 to R147), and the bounds of the three
configuration functions (R143, R144). -/

namespace Sys2Proof.Machine

/-! ## The configuration functions answer 0 to 15 -/

theorem padLookup_lt (mode pos : Nat) (rows : List PadRow) : padLookup mode pos rows < 16 := by
  induction rows with
  | nil => simp [padLookup]
  | cons r rs ih =>
    simp only [padLookup]
    split
    · exact r.words.isLt
    · exact ih

theorem prePad_lt (cfg : Cfg) (mode pos : Nat) : prePad cfg mode pos < 16 := by
  unfold prePad
  split
  · omega
  · exact padLookup_lt _ _ _

theorem postPad_lt (cfg : Cfg) (mode pos : Nat) : postPad cfg mode pos < 16 := by
  unfold postPad
  split
  · omega
  · exact padLookup_lt _ _ _

theorem outCnt_lt (cfg : Cfg) (mode : Nat) : outCnt cfg mode < 16 := by
  cases mode with
  | zero => simp [outCnt]
  | succ m => exact BitVec.isLt _

theorem sphLen_le {h : Bool} {f : SphFields} (hf : h = true → f.Fits) : sphLen h f ≤ 32 := by
  cases h with
  | false => simp [sphLen]
  | true =>
    obtain ⟨h1, h2⟩ := hf rfl
    have := Bool.toNat_lt f.sendPid
    simp only [sphLen, if_true]
    omega

/-! ## LAYOUT's checks -/

theorem layoutRecord_overflow {cfg : Cfg} {c : Counts} {f : SphFields} (cap : Nat)
    (h : ¬ (c.Fits ∧ (c.hasSpecialHeader = true → f.Fits))) : layoutRecord cfg c f cap = .error .fieldOverflow := by
  unfold layoutRecord
  split
  · rfl
  · next hc =>
    rw [if_pos]
    simp only [fits, Bool.or_eq_true, Bool.not_eq_true', decide_eq_false_iff_not, not_or, not_not] at hc
    have hf : c.Fits := by
      simp only [Counts.Fits]
      omega
    have : c.hasSpecialHeader = true ∧ ¬ f.Fits := by
      by_contra h2
      exact h ⟨hf, fun hs => by_contra fun hn => h2 ⟨hs, hn⟩⟩
    obtain ⟨hs, hn⟩ := this
    simp only [SphFields.Fits] at hn
    simp only [hs, fits, Bool.true_and, Bool.or_eq_true, Bool.not_eq_true', decide_eq_false_iff_not]
    omega

theorem layoutRecord_fits {cfg : Cfg} {c : Counts} {f : SphFields} (cap : Nat) (hc : c.Fits)
    (hf : c.hasSpecialHeader = true → f.Fits) :
    layoutRecord cfg c f cap
      = if (offsets cfg c f).total ≤ cap then .ok (offsets cfg c f) else .error .bufferTooSmall := by
  obtain ⟨h1, h2, h3, h4, h5, h6⟩ := hc
  have g1 : (!fits c.countA 4 || !fits c.countB 4 || !fits c.countC 4 || !fits c.countD 4
      || !fits c.numDataWords 10 || !fits c.mode 4) = false := by
    simp [fits]
    omega
  have g2 : (c.hasSpecialHeader && (!fits f.numCopyHandles 4 || !fits f.numMoveHandles 4)) = false := by
    cases hs : c.hasSpecialHeader with
    | false => rfl
    | true => simpa [fits] using hf hs
  simp only [layoutRecord, g1, g2, Bool.false_eq_true, if_false]
  split
  · rw [if_neg (by omega)]
  · rw [if_pos (by omega)]

theorem layoutRecord_err {cfg : Cfg} {c : Counts} {f : SphFields} {cap : Nat} {e : Err}
    (h : layoutRecord cfg c f cap = .error e) : e = .fieldOverflow ∨ e = .bufferTooSmall := by
  unfold layoutRecord at h
  split at h
  · cases h; simp
  · split at h
    · cases h; simp
    · split at h <;> cases h
      simp

end Sys2Proof.Machine
end

