-- ==== Sys2Proof/Laws/PerInstr.lean ====
section
/-! SUPPORT. Statements made operation by operation: each operation's request selects it by the `op` of the opcode table
and carries its naming scheme (30_encoding.md R80). -/

namespace Sys2Proof.Laws.SelectsItself

def Statement (i : Instr) : Prop := (encode i).op = i.opcode ∧ (encode i).rev = i.rev.bit

theorem hdrEnc (rev : Revision) (f : HdrFields) : Statement (.hdrEnc rev f) := ⟨rfl, rfl⟩

theorem sphEnc (rev : Revision) (f : SphFields) : Statement (.sphEnc rev f) := ⟨rfl, rfl⟩

theorem inptrEnc (rev : Revision) (d : InPtr) : Statement (.inptrEnc rev d) := ⟨rfl, rfl⟩

theorem mapaEnc (rev : Revision) (d : MapAlias) : Statement (.mapaEnc rev d) := ⟨rfl, rfl⟩

theorem outptrEnc (rev : Revision) (d : OutPtr) : Statement (.outptrEnc rev d) := ⟨rfl, rfl⟩

theorem layout (rev : Revision) (c : Counts) (f : SphFields) (cap : Nat) : Statement (.layout rev c f cap) := ⟨rfl, rfl⟩

theorem msgEnc (rev : Revision) (msg : Message) (cap : Nat) : Statement (.msgEnc rev msg cap) := ⟨rfl, rfl⟩

theorem unassigned7 (rev : Revision) : Statement (.unassigned7 rev) := ⟨rfl, rfl⟩

theorem hdrDec (rev : Revision) (w1 w2 : Word) : Statement (.hdrDec rev w1 w2) := ⟨rfl, rfl⟩

theorem sphDec (rev : Revision) (w1 : Word) : Statement (.sphDec rev w1) := ⟨rfl, rfl⟩

theorem inptrDec (rev : Revision) (w1 w2 : Word) : Statement (.inptrDec rev w1 w2) := ⟨rfl, rfl⟩

theorem mapaDec (rev : Revision) (w1 w2 w3 : Word) : Statement (.mapaDec rev w1 w2 w3) := ⟨rfl, rfl⟩

theorem outptrDec (rev : Revision) (w1 w2 : Word) : Statement (.outptrDec rev w1 w2) := ⟨rfl, rfl⟩

theorem unassignedD (rev : Revision) : Statement (.unassignedD rev) := ⟨rfl, rfl⟩

theorem msgDec (rev : Revision) (cap : Nat) : Statement (.msgDec rev cap) := ⟨rfl, rfl⟩

theorem unassignedF (rev : Revision) : Statement (.unassignedF rev) := ⟨rfl, rfl⟩

end Sys2Proof.Laws.SelectsItself
end

