-- ==== Sys2Proof/Laws/Ports.lean ====
section
/-! SUPPORT. An operand that fits its port comes back from the port (10_state.md R24), and what stands on a port fits
it. -/

namespace Sys2Proof

theorem toNat_ofNat_of_onPort32 {v : Nat} (h : onPort32 v = true) : (BitVec.ofNat 32 v).toNat = v := by
  rw [BitVec.toNat_ofNat, Nat.mod_eq_of_lt (of_decide_eq_true h)]

theorem toNat_ofNat_of_onPort64 {v : Nat} (h : onPort64 v = true) : (BitVec.ofNat 64 v).toNat = v := by
  rw [BitVec.toNat_ofNat, Nat.mod_eq_of_lt (of_decide_eq_true h)]

@[simp] theorem onPort32_toNat (v : BitVec 32) : onPort32 v.toNat = true := decide_eq_true v.isLt

@[simp] theorem onPort64_toNat (v : BitVec 64) : onPort64 v.toNat = true := decide_eq_true v.isLt

@[simp] theorem ofBit_bit (r : Revision) : Revision.ofBit r.bit = r := by cases r <;> rfl

@[simp] theorem bit_ofBit (b : BitVec 1) : (Revision.ofBit b).bit = b := by
  revert b
  decide

/-! ## Operand, port, operand -/

theorem counts_ports {c : Counts} (h : c.wellFormed = true) : c.ports.counts = c := by
  simp only [Counts.wellFormed, Bool.and_eq_true] at h
  obtain ⟨⟨⟨⟨⟨h1, h2⟩, h3⟩, h4⟩, h5⟩, h6⟩ := h
  simp only [Counts.ports, HdrPorts.counts, toNat_ofNat_of_onPort32 h1, toNat_ofNat_of_onPort32 h2,
    toNat_ofNat_of_onPort32 h3, toNat_ofNat_of_onPort32 h4, toNat_ofNat_of_onPort32 h5, toNat_ofNat_of_onPort32 h6]

theorem hdr_ports {f : HdrFields} (h : f.wellFormed = true) : f.ports.fields = f := by
  simp only [HdrFields.wellFormed, Bool.and_eq_true] at h
  have hc : f.ports.counts = f.toCounts := counts_ports h.2
  have ht : f.ports.type.toNat = f.type := toNat_ofNat_of_onPort32 h.1
  rw [HdrPorts.fields, hc, ht]

theorem sph_ports {f : SphFields} (h : f.wellFormed = true) : f.ports.fields = f := by
  simp only [SphFields.wellFormed, Bool.and_eq_true] at h
  simp only [SphFields.ports, SphPorts.fields, toNat_ofNat_of_onPort32 h.1, toNat_ofNat_of_onPort32 h.2]

theorem inPtr_ports {d : InPtr} (h : d.wellFormed = true) : d.ports.fields = d := by
  simp only [InPtr.wellFormed, Bool.and_eq_true] at h
  obtain ⟨⟨h1, h2⟩, h3⟩ := h
  simp only [InPtr.ports, InPtrPorts.fields, toNat_ofNat_of_onPort32 h1, toNat_ofNat_of_onPort64 h2,
    toNat_ofNat_of_onPort32 h3]

theorem mapAlias_ports {d : MapAlias} (h : d.wellFormed = true) : d.ports.fields = d := by
  simp only [MapAlias.wellFormed, Bool.and_eq_true] at h
  obtain ⟨⟨h1, h2⟩, h3⟩ := h
  simp only [MapAlias.ports, MapAliasPorts.fields, toNat_ofNat_of_onPort64 h1, toNat_ofNat_of_onPort64 h2,
    toNat_ofNat_of_onPort32 h3]

theorem outPtr_ports {d : OutPtr} (h : d.wellFormed = true) : d.ports.fields = d := by
  simp only [OutPtr.wellFormed, Bool.and_eq_true] at h
  simp only [OutPtr.ports, OutPtrPorts.fields, toNat_ofNat_of_onPort64 h.1, toNat_ofNat_of_onPort32 h.2]

theorem map_ports {α β : Type} {wf : α → Bool} {put : α → β} {get : β → α} (hp : ∀ {x}, wf x = true → get (put x) = x)
    {xs : List α} (h : xs.all wf = true) : (xs.map put).map get = xs := by
  rw [List.map_map]
  refine (List.map_congr_left fun x hx => ?_).trans (List.map_id xs)
  exact hp (List.all_eq_true.1 h x hx)

theorem message_ports {m : Message} (h : m.wellFormed = true) : m.ports.fields = m := by
  simp only [Message.wellFormed, Bool.and_eq_true] at h
  obtain ⟨⟨⟨⟨⟨⟨h1, h2⟩, h3⟩, h4⟩, h5⟩, h6⟩, h7⟩ := h
  simp only [Message.ports, MessagePorts.fields, hdr_ports h1, sph_ports h2, map_ports inPtr_ports h3,
    map_ports mapAlias_ports h4, map_ports mapAlias_ports h5, map_ports mapAlias_ports h6, map_ports outPtr_ports h7]

/-! ## What stands on the ports -/

theorem counts_wellFormed (p : HdrPorts) : p.counts.wellFormed = true := by simp [Counts.wellFormed, HdrPorts.counts]

theorem hdr_wellFormed (p : HdrPorts) : p.fields.wellFormed = true := by
  simp [HdrFields.wellFormed, HdrPorts.fields, counts_wellFormed]

theorem sph_wellFormed (p : SphPorts) : p.fields.wellFormed = true := by simp [SphFields.wellFormed, SphPorts.fields]

theorem inPtr_wellFormed (p : InPtrPorts) : p.fields.wellFormed = true := by simp [InPtr.wellFormed, InPtrPorts.fields]

theorem mapAlias_wellFormed (p : MapAliasPorts) : p.fields.wellFormed = true := by
  simp [MapAlias.wellFormed, MapAliasPorts.fields]

theorem outPtr_wellFormed (p : OutPtrPorts) : p.fields.wellFormed = true := by
  simp [OutPtr.wellFormed, OutPtrPorts.fields]

theorem message_wellFormed (p : MessagePorts) : p.fields.wellFormed = true := by
  simp [Message.wellFormed, MessagePorts.fields, hdr_wellFormed, sph_wellFormed, inPtr_wellFormed,
    mapAlias_wellFormed, outPtr_wellFormed]

end Sys2Proof
end

