-- ==== Sys2Proof/Laws/RoundTrip.lean ====
section
/-! SUPPORT. What ties MSG.ENC and MSG.DEC together: offsets that do not depend on the straps, tables read back entry by
entry, and everything a successful MSG.DEC says (43_offset_calculator.md R152 to R154). -/

namespace Sys2Proof.Machine

/-! ## The offset record -/

/-- The offsets depend on the three functions only (R206). -/
theorem offsets_congr {c d : Cfg} (h : SameFunctions c d) (k : Counts) (f : SphFields) : offsets c k f = offsets d k f := by
  obtain ⟨a, b, e⟩ := h
  have h1 : ∀ m, outCnt c m = outCnt d m := fun m => by cases m <;> simp [outCnt, a]
  have h2 : ∀ m p, prePad c m p = prePad d m p := fun m p => by simp [prePad, b]
  have h3 : ∀ m p, postPad c m p = postPad d m p := fun m p => by simp [postPad, e]
  simp only [offsets, h1, h2, h3]

theorem offsets_noSpecial {c : Counts} (h : c.hasSpecialHeader = false) (cfg : Cfg) (f g : SphFields) :
    offsets cfg c f = offsets cfg c g := by
  simp [offsets, h, sphLen]

/-! ## Tables -/

theorem tabulate_eq_entries {α : Type} [Inhabited α] {t : List α} {n pos k : Nat} {read : Nat → α}
    (h : ∀ i < n, read (pos + k * i) = t.getD i default) : tabulate n pos k read = entries t n := by
  apply List.ext_getElem
  · simp
  · intro i h1 h2
    rw [tabulate_getElem, entries_getElem]
    exact h i (by simpa using h1)

theorem entries_self {α : Type} [Inhabited α] {t : List α} {n : Nat} (h : n = t.length) : entries t n = t := by
  subst h
  apply List.ext_getElem
  · simp
  · intro i h1 h2
    rw [entries_getElem, List.getD_eq_getElem?_getD, List.getElem?_eq_getElem h2]
    rfl

theorem tabulate_getD {α : Type} (n pos k : Nat) (read : Nat → α) (d : α) {i : Nat} (h : i < n) :
    (tabulate n pos k read).getD i d = read (pos + k * i) := by
  have h' : i < (tabulate n pos k read).length := by simpa using h
  rw [List.getD_eq_getElem?_getD, List.getElem?_eq_getElem h', tabulate_getElem]
  rfl

theorem mem_tabulate {α : Type} {n pos k : Nat} {read : Nat → α} {x : α} (h : x ∈ tabulate n pos k read) :
    ∃ p, x = read p := by
  simp only [tabulate, List.mem_map] at h
  obtain ⟨i, -, rfl⟩ := h
  exact ⟨_, rfl⟩

/-- A word of a section of `n` elements of `k` words is word `r` of element `q`. -/
theorem section_position {off k n i : Nat} (h : off ≤ i) (h' : i < off + k * n) (hk : 0 < k) :
    ∃ q r, i = off + k * q + r ∧ q < n ∧ r < k := by
  refine ⟨(i - off) / k, (i - off) % k, ?_, Nat.div_lt_of_lt_mul (by omega), Nat.mod_lt _ hk⟩
  have := Nat.div_add_mod (i - off) k
  omega

/-! ## MSG.DEC -/

/-- Everything a successful walk says. -/
theorem decodeMessage_ok {cfg : Cfg} {mem : Memory} {cap : Nat} {r : Results} (h : decodeMessage cfg mem cap = .ok r) :
    ∃ hdr sph, hdr = unpackHdr (mem.readWord 0) (mem.readWord 1) ∧ SpecialFields cfg mem hdr.hasSpecialHeader sph
      ∧ (offsets cfg hdr.toCounts sph).total ≤ cap
      ∧ r = .msgDec (decodedMessage mem hdr sph (offsets cfg hdr.toCounts sph)) (decodedSpecial mem sph).pidRaw
          (offsets cfg hdr.toCounts sph).total := by
  by_cases h2 : cap < 2
  · rw [decodeMessage_noHeader h2] at h
    cases h
  · cases hb : (unpackHdr (mem.readWord 0) (mem.readWord 1)).hasSpecialHeader with
    | false =>
      have hs : SpecialFields cfg mem (unpackHdr (mem.readWord 0) (mem.readWord 1)).hasSpecialHeader {} :=
        specialFields_of (by simp [hb]) (by simp)
      rw [decodeMessage_eq (by omega) rfl (by simp [hb]) hs] at h
      split at h <;> cases h
      exact ⟨_, _, rfl, hs, by assumption, rfl⟩
    | true =>
      by_cases h3 : 3 ≤ cap
      · cases hu : unpackSph cfg (mem.readWord 2) with
        | error e =>
          rw [decodeMessage_malformed h3 hb hu] at h
          cases h
        | ok sph =>
          have hs : SpecialFields cfg mem (unpackHdr (mem.readWord 0) (mem.readWord 1)).hasSpecialHeader sph :=
            specialFields_of (by simp [hu]) (by simp [hb])
          rw [decodeMessage_eq (by omega) rfl (by simp [h3]) hs] at h
          split at h <;> cases h
          exact ⟨_, _, rfl, hs, by assumption, rfl⟩
      · have : cap = 2 := by omega
        subst this
        rw [decodeMessage_noSpecialWord hb] at h
        cases h

end Sys2Proof.Machine
end

