-- ==== Sys2Proof/Tests/Slice0.lean ====
section
/-! SUPPORT. Tests. Expected values are the vectors of 95_test_vectors.md, named by their ids, or the rule of spec/ that a
comment names; then one witness for every statement of Obligations.lean that has hypotheses. -/

namespace Sys2Proof.Tests

open Sys2Proof.Machine

/-! ## Small states -/

/-- An instance of REF with the given straps and these words at the start of its buffer. -/
def bufferOf (rev : Revision) (tol : Bool) (words : List Word) : State :=
  { State.resetWith rev tol with mem := Memory.writeWords [] 0 words }

/-- The instance of 95_test_vectors.md: RevisionTwo, strict padding, an empty buffer. -/
def unit2 : State := bufferOf .revisionTwo false []

/-- The operation answers OK with these results. -/
def answers (i : Instr) (s : State) (r : Results) : Bool :=
  match exec i s with
  | .next t => decide (t.rsp = some ⟨.ok, r⟩)
  | .fault _ => false
  | .refused _ => false

/-- The operation answers OK, with these words at the start of the buffer. -/
def writes (i : Instr) (s : State) (r : Results) (words : List Word) : Bool :=
  match exec i s with
  | .next t => decide (t.rsp = some ⟨.ok, r⟩) && decide (t.mem.readWords 0 words.length = words)
  | .fault _ => false
  | .refused _ => false

/-- The operation answers this error. -/
def raises (i : Instr) (s : State) (e : Err) : Bool :=
  match exec i s with
  | .next t => decide (t.status = some (.error e))
  | .fault _ => false
  | .refused _ => false

def hdrH3 : HdrFields :=
  { type := 0x1234, countA := 1, countB := 2, countC := 3, countD := 4, numDataWords := 5, mode := 6,
    hasSpecialHeader := true }

/-- Scenario A. -/
def msgA : Message := { hdr := { type := 4, numDataWords := 2 }, data := [0xAAAAAAAA, 0xBBBBBBBB] }

/-- The message of program P2. -/
def msgP2 : Message :=
  { hdr := { type := 4, countA := 1, countB := 1, countD := 1, numDataWords := 2, mode := 3, hasSpecialHeader := true }
    sph := ⟨true, 1, 1⟩
    copyHandle := [0x0000BEEF]
    moveHandle := [0x0000CAFE]
    inptr := [⟨1, 0x3FF00001000, 64⟩]
    inmap := [⟨0x3FFFFFFFFFF, 0xFFFFFFFF, 1⟩]
    inoutmap := [⟨0x2ABCDEF12345678, 0x987654321, 2⟩]
    data := [0xAAAAAAAA, 0xBBBBBBBB]
    outptr := [⟨0x123456789ABC, 0x200⟩] }

/-- The words of P2 with the given pid word. -/
def wordsP2 (pid : Word) : List Word :=
  [0x10110004, 0x80000C02, 0x00000023, pid, 0x0000BEEF, 0x0000CAFE, 0x0040FFC1, 0x00001000, 0xFFFFFFFF, 0xFFFFFFFF,
    0xF00000FD, 0x87654321, 0x12345678, 0xF9AAF37A, 0xAAAAAAAA, 0xBBBBBBBB, 0x56789ABC, 0x02001234]

/-- The message of M-7 and M-8: the second in-pointer's address does not fit. -/
def msgM7 : Message := { hdr := { countA := 2 }, inptr := [⟨0, 0x1000, 1⟩, ⟨0, 0x40000000000, 1⟩] }

def countsL4 : Counts := { countA := 1, countB := 1, numDataWords := 1, mode := 3, hasSpecialHeader := true }

/-- Every count at its greatest value (L-5). -/
def countsMax : Counts :=
  { countA := 15, countB := 15, countC := 15, countD := 15, numDataWords := 1023, mode := 15, hasSpecialHeader := true }

def hdrMax : HdrFields := { toCounts := countsMax, type := 0xFFFF }

/-! ## WellFormed: each check refuses a term that breaks it alone (R24: port widths) -/

theorem test_wf_header_ports_refuse_2_pow_32 :
    (Instr.hdrEnc .revisionOne { type := 2 ^ 32 }).wellFormed = false
    ∧ (Instr.hdrEnc .revisionOne { countA := 2 ^ 32 }).wellFormed = false
    ∧ (Instr.hdrEnc .revisionOne { countB := 2 ^ 32 }).wellFormed = false
    ∧ (Instr.hdrEnc .revisionOne { countC := 2 ^ 32 }).wellFormed = false
    ∧ (Instr.hdrEnc .revisionOne { countD := 2 ^ 32 }).wellFormed = false
    ∧ (Instr.hdrEnc .revisionOne { numDataWords := 2 ^ 32 }).wellFormed = false
    ∧ (Instr.hdrEnc .revisionOne { mode := 2 ^ 32 }).wellFormed = false := by decide

theorem test_wf_special_header_ports_refuse_2_pow_32 :
    (Instr.sphEnc .revisionOne { numCopyHandles := 2 ^ 32 }).wellFormed = false
    ∧ (Instr.sphEnc .revisionOne { numMoveHandles := 2 ^ 32 }).wellFormed = false := by decide

theorem test_wf_in_pointer_ports_refuse :
    (Instr.inptrEnc .revisionOne { index := 2 ^ 32 }).wellFormed = false
    ∧ (Instr.inptrEnc .revisionOne { address := 2 ^ 64 }).wellFormed = false
    ∧ (Instr.inptrEnc .revisionOne { size := 2 ^ 32 }).wellFormed = false := by decide

theorem test_wf_map_alias_ports_refuse :
    (Instr.mapaEnc .revisionOne { address := 2 ^ 64 }).wellFormed = false
    ∧ (Instr.mapaEnc .revisionOne { size := 2 ^ 64 }).wellFormed = false
    ∧ (Instr.mapaEnc .revisionOne { mmode := 2 ^ 32 }).wellFormed = false := by decide

theorem test_wf_out_pointer_ports_refuse :
    (Instr.outptrEnc .revisionOne { address := 2 ^ 64 }).wellFormed = false
    ∧ (Instr.outptrEnc .revisionOne { size := 2 ^ 32 }).wellFormed = false := by decide

theorem test_wf_layout_ports_refuse_2_pow_32 :
    (Instr.layout .revisionOne { countA := 2 ^ 32 } {} 0).wellFormed = false
    ∧ (Instr.layout .revisionOne {} { numCopyHandles := 2 ^ 32 } 0).wellFormed = false
    ∧ (Instr.layout .revisionOne {} {} (2 ^ 32)).wellFormed = false := by decide

theorem test_wf_message_ports_refuse :
    (Instr.msgEnc .revisionOne { hdr := { type := 2 ^ 32 } } 0).wellFormed = false
    ∧ (Instr.msgEnc .revisionOne { sph := { numMoveHandles := 2 ^ 32 } } 0).wellFormed = false
    ∧ (Instr.msgEnc .revisionOne { inptr := [{}, { size := 2 ^ 32 }] } 0).wellFormed = false
    ∧ (Instr.msgEnc .revisionOne { inmap := [{ size := 2 ^ 64 }] } 0).wellFormed = false
    ∧ (Instr.msgEnc .revisionOne { outmap := [{ mmode := 2 ^ 32 }] } 0).wellFormed = false
    ∧ (Instr.msgEnc .revisionOne { inoutmap := [{ address := 2 ^ 64 }] } 0).wellFormed = false
    ∧ (Instr.msgEnc .revisionOne { outptr := [{ address := 2 ^ 64 }] } 0).wellFormed = false
    ∧ (Instr.msgEnc .revisionOne {} (2 ^ 32)).wellFormed = false
    ∧ (Instr.msgDec .revisionOne (2 ^ 32)).wellFormed = false := by decide

/-! ## Decode: every row of opcode_table.json, its `op` written out bit by bit -/

theorem test_decode_encoders :
    decodeTableWord 8 0b0000 = some (.hdrEnc .revisionOne {})
    ∧ decodeTableWord 8 0b0001 = some (.sphEnc .revisionOne {})
    ∧ decodeTableWord 8 0b0010 = some (.inptrEnc .revisionOne {})
    ∧ decodeTableWord 8 0b0011 = some (.mapaEnc .revisionOne {})
    ∧ decodeTableWord 8 0b0100 = some (.outptrEnc .revisionOne {}) := by decide

theorem test_decode_message_operations :
    decodeTableWord 8 0b0101 = some (.layout .revisionOne {} {} 0)
    ∧ decodeTableWord 8 0b0110 = some (.msgEnc .revisionOne {} 0)
    ∧ decodeTableWord 8 0b1110 = some (.msgDec .revisionOne 0) := by decide

theorem test_decode_decoders :
    decodeTableWord 8 0b1000 = some (.hdrDec .revisionOne 0 0)
    ∧ decodeTableWord 8 0b1001 = some (.sphDec .revisionOne 0)
    ∧ decodeTableWord 8 0b1010 = some (.inptrDec .revisionOne 0 0)
    ∧ decodeTableWord 8 0b1011 = some (.mapaDec .revisionOne 0 0 0)
    ∧ decodeTableWord 8 0b1100 = some (.outptrDec .revisionOne 0 0) := by decide

theorem test_decode_unassigned :
    decodeTableWord 8 0b0111 = some (.unassigned7 .revisionOne)
    ∧ decodeTableWord 8 0b1101 = some (.unassignedD .revisionOne)
    ∧ decodeTableWord 8 0b1111 = some (.unassignedF .revisionOne) := by decide

/-- The operands of R24, each from its own port; `rev` 1 is RevisionTwo (R21). -/
theorem test_decode_takes_each_operand_from_its_port :
    decode { op := 0x2, rev := 1, inptr := ⟨1, 2, 3⟩ } = .inptrEnc .revisionTwo ⟨1, 2, 3⟩
    ∧ decode { op := 0x3, rev := 1, mapa := ⟨1, 2, 3⟩ } = .mapaEnc .revisionTwo ⟨1, 2, 3⟩
    ∧ decode { op := 0x4, rev := 1, outptr := ⟨1, 2⟩ } = .outptrEnc .revisionTwo ⟨1, 2⟩
    ∧ decode { op := 0xB, rev := 1, w1 := 1, w2 := 2, w3 := 3 } = .mapaDec .revisionTwo 1 2 3
    ∧ decode { op := 0x5, rev := 1, hdr := { type := 9, mode := 7 }, sph := ⟨true, 4, 5⟩, cap := 6 }
        = .layout .revisionTwo { mode := 7 } ⟨true, 4, 5⟩ 6 := by decide

/-- R87: an operand left out is 0, in a table entry too. -/
theorem test_defaults_are_zero :
    (default : InPtr) = ⟨0, 0, 0⟩ ∧ (default : MapAlias) = ⟨0, 0, 0⟩ ∧ (default : OutPtr) = ⟨0, 0⟩
    ∧ (default : Word) = 0 := by decide

/-! ## The operations -/

/-- E-H3. -/
theorem test_hdrEnc_words :
    answers (.hdrEnc .revisionTwo hdrH3) unit2 (.hdrEnc 0x43211234 0x80001805) = true := by decide

/-- E-H6, E-H11. -/
theorem test_hdrEnc_errors :
    raises (.hdrEnc .revisionTwo { mode := 16 }) unit2 .fieldOverflow = true
    ∧ raises (.hdrEnc .revisionOne { type := 4 }) unit2 .revisionMismatch = true := by decide

/-- E-S2. -/
theorem test_sphEnc_word : answers (.sphEnc .revisionTwo ⟨true, 2, 3⟩) unit2 (.sphEnc 0x00000065) = true := by decide

/-- E-S6, S-P5. -/
theorem test_sphEnc_overflow :
    raises (.sphEnc .revisionTwo ⟨false, 16, 0⟩) unit2 .fieldOverflow = true
    ∧ raises (.sphEnc .revisionTwo ⟨false, 0, 16⟩) unit2 .fieldOverflow = true := by decide

/-- E-I5. -/
theorem test_inptrEnc_words :
    answers (.inptrEnc .revisionTwo ⟨1, 0x123456789AB, 0x1234⟩) unit2 (.inptrEnc 0x12343481 0x456789AB) = true := by
  decide

/-- E-I9, E-I8. -/
theorem test_inptrEnc_errors :
    raises (.inptrEnc .revisionTwo ⟨64, 0x40000000000, 0x10000⟩) unit2 .addressOutOfRange = true
    ∧ raises (.inptrEnc .revisionTwo ⟨64, 0, 0⟩) unit2 .fieldOverflow = true := by decide

/-- E-M3. -/
theorem test_mapaEnc_words :
    answers (.mapaEnc .revisionTwo ⟨0x2ABCDEF12345678, 0x987654321, 2⟩) unit2
      (.mapaEnc 0x87654321 0x12345678 0xF9AAF37A) = true := by decide

/-- S-C4, E-M8, E-M9. -/
theorem test_mapaEnc_errors :
    raises (.mapaEnc .revisionTwo ⟨0x400000000000000, 0, 0⟩) unit2 .addressOutOfRange = true
    ∧ raises (.mapaEnc .revisionTwo ⟨0, 0x1000000000, 0⟩) unit2 .fieldOverflow = true
    ∧ raises (.mapaEnc .revisionTwo ⟨0, 0, 4⟩) unit2 .fieldOverflow = true := by decide

/-- E-O2. -/
theorem test_outptrEnc_words :
    answers (.outptrEnc .revisionTwo ⟨0x123456789ABC, 0x200⟩) unit2 (.outptrEnc 0x56789ABC 0x02001234) = true := by
  decide

/-- E-O5, E-O6. -/
theorem test_outptrEnc_errors :
    raises (.outptrEnc .revisionTwo ⟨0x1000000000000, 0⟩) unit2 .addressOutOfRange = true
    ∧ raises (.outptrEnc .revisionTwo ⟨0, 0x10000⟩) unit2 .fieldOverflow = true := by decide

/-- D-H1. -/
theorem test_hdrDec_fields : answers (.hdrDec .revisionTwo 0x43211234 0x80001805) unit2 (.hdrDec hdrH3) = true := by
  decide

/-- D-H3: only ignored bits are set. -/
theorem test_hdrDec_ignores_padding : answers (.hdrDec .revisionTwo 0 0x7FFFC000) unit2 (.hdrDec {}) = true := by decide

/-- D-S1, D-S6. -/
theorem test_sphDec_fields :
    answers (.sphDec .revisionTwo 0x00000065) unit2 (.sphDec ⟨true, 2, 3⟩) = true
    ∧ answers (.sphDec .revisionTwo 0x000001FF) unit2 (.sphDec ⟨true, 15, 15⟩) = true := by decide

/-- D-S2, D-S3, D-S4. -/
theorem test_sphDec_padding_policy :
    raises (.sphDec .revisionTwo 0x00000200) unit2 .malformedSpecialHeader = true
    ∧ answers (.sphDec .revisionTwo 0x00000200) (bufferOf .revisionTwo true []) (.sphDec ⟨false, 0, 0⟩) = true
    ∧ answers (.sphDec .revisionTwo 0x80000065) (bufferOf .revisionTwo true []) (.sphDec ⟨true, 2, 3⟩) = true := by
  decide

/-- D-I3, D-I2. -/
theorem test_inptrDec_fields :
    answers (.inptrDec .revisionTwo 0xAAAAAAAA 0xBBBBBBBB) unit2 (.inptrDec ⟨0x2A, 0x2AABBBBBBBB, 0xAAAA⟩) = true
    ∧ answers (.inptrDec .revisionTwo 0x12343481 0x456789AB) unit2 (.inptrDec ⟨1, 0x123456789AB, 0x1234⟩) = true := by
  decide

/-- D-M2. -/
theorem test_mapaDec_fields :
    answers (.mapaDec .revisionTwo 0x87654321 0x12345678 0xF9AAF37A) unit2
      (.mapaDec ⟨0x2ABCDEF12345678, 0x987654321, 2⟩) = true := by decide

/-- D-O2. -/
theorem test_outptrDec_fields :
    answers (.outptrDec .revisionTwo 0x56789ABC 0x02001234) unit2 (.outptrDec ⟨0x123456789ABC, 0x200⟩) = true := by
  decide

/-- L-4. -/
theorem test_layout_offsets :
    answers (.layout .revisionTwo countsL4 ⟨true, 1, 0⟩ 64) unit2
      (.layout ⟨0, 2, 3, 4, 5, 5, 7, 10, 10, 10, 10, 11, 11, 1, 13⟩) = true := by decide

/-- L-7, L-2, L-9. -/
theorem test_layout_errors :
    raises (.layout .revisionTwo { countB := 16 } {} 0) unit2 .fieldOverflow = true
    ∧ raises (.layout .revisionTwo {} {} 1) unit2 .bufferTooSmall = true
    ∧ raises (.layout .revisionTwo { hasSpecialHeader := true } { numCopyHandles := 99 } 200) unit2 .fieldOverflow
        = true := by decide

set_option maxRecDepth 10000 in
/-- P2 step 1: every section, under RevisionOne. -/
theorem test_msgEnc_words :
    writes (.msgEnc .revisionOne msgP2 64) (bufferOf .revisionOne false []) (.msgEnc 18) (wordsP2 0) = true := by decide

/-- M-7, M-8: the first error in pseudocode order; M-9: the header is validated before its room check. -/
theorem test_msgEnc_first_error :
    raises (.msgEnc .revisionTwo msgM7 3) unit2 .bufferTooSmall = true
    ∧ raises (.msgEnc .revisionTwo msgM7 4) unit2 .addressOutOfRange = true
    ∧ raises (.msgEnc .revisionTwo msgM7 6) unit2 .addressOutOfRange = true
    ∧ raises (.msgEnc .revisionTwo { hdr := { countA := 16 } } 0) unit2 .fieldOverflow = true := by decide

set_option maxRecDepth 10000 in
/-- P2 step 3: the pid word comes back uninterpreted, under RevisionTwo. -/
theorem test_msgDec_message :
    answers (.msgDec .revisionTwo 18) (bufferOf .revisionTwo false (wordsP2 0x51)) (.msgDec msgP2 0x51 18) = true := by
  decide

/-- X-6, X-2, X-4. -/
theorem test_msgDec_padding_and_errors :
    answers (.msgDec .revisionTwo 5)
        (bufferOf .revisionTwo false [0x00000004, 0x7FFFC002, 0xAAAAAAAA, 0xBBBBBBBB, 0xDEADBEEF]) (.msgDec msgA 0 4)
        = true
    ∧ raises (.msgDec .revisionTwo 5) (bufferOf .revisionTwo false [0x00000001, 0x80000000, 0x00000221, 0, 0x33])
        .malformedSpecialHeader = true
    ∧ raises (.msgDec .revisionTwo 3) (bufferOf .revisionTwo false [0x00000004, 0x00000002, 0xAAAAAAAA]) .bufferTooSmall
        = true := by decide

/-- D-X1. -/
theorem test_unassigned_bad_request :
    raises (.unassigned7 .revisionTwo) unit2 .badRequest = true
    ∧ raises (.unassignedD .revisionTwo) unit2 .badRequest = true
    ∧ raises (.unassignedF .revisionOne) unit2 .badRequest = true := by decide

/-- R86: the RevisionOne names of a header's counts. -/
theorem test_revision_names :
    headerView .revisionOne countsL4 = .revisionOne ⟨1, 1, 0, 0, 3⟩
    ∧ fieldName .revisionOne .countD = "num_exch_buffers" ∧ fieldName .revisionTwo .mode = "out_pointer_mode" := by
  decide

/-- R55, R203: who may use the buffer of an operation meanwhile. -/
theorem test_sharing :
    sharingForbidden (.msgDec .revisionTwo 5) .operation = true
    ∧ sharingForbidden (.msgDec .revisionTwo 5) .writer = true
    ∧ sharingForbidden (.msgDec .revisionTwo 5) .reader = false
    ∧ sharingForbidden (.msgEnc .revisionTwo msgA 4) .reader = true
    ∧ sharingForbidden (.layout .revisionTwo {} {} 4) .operation = false := by decide

/-- R170: the 3-bit codes. -/
theorem test_status_codes :
    statusCode .ok = 0#3 ∧ statusCode (.error .fieldOverflow) = 1#3 ∧ statusCode (.error .addressOutOfRange) = 2#3
    ∧ statusCode (.error .bufferTooSmall) = 3#3 ∧ statusCode (.error .malformedSpecialHeader) = 4#3
    ∧ statusCode (.error .revisionMismatch) = 5#3 ∧ statusCode (.error .badRequest) = 6#3 := by decide

/-- R42: the least significant byte of word 1 is at address 4. -/
theorem test_word_bytes :
    Memory.readByte (Memory.writeWord [] 1 0x11223344) 4 = 0x44 ∧ Memory.readByte (Memory.writeWord [] 1 0x11223344) 7 = 0x11
      := by decide

/-! ## Witnesses: what meets the hypotheses of the statements -/

/-- Every field of every split at its greatest value. -/
theorem witness_SplitGivesSlicesAndJoinPlacesFields :
    split42 (2 ^ 42 - 1) = (2 ^ 32 - 1, 15, 63) ∧ join42 (2 ^ 32 - 1) 15 63 = 2 ^ 42 - 1
    ∧ split58 (2 ^ 58 - 1) = (2 ^ 32 - 1, 15, 2 ^ 22 - 1) ∧ join58 (2 ^ 32 - 1) 15 (2 ^ 22 - 1) = 2 ^ 58 - 1
    ∧ split36 (2 ^ 36 - 1) = (2 ^ 32 - 1, 15) ∧ join36 (2 ^ 32 - 1) 15 = 2 ^ 36 - 1
    ∧ split48 (2 ^ 48 - 1) = (2 ^ 32 - 1, 2 ^ 16 - 1) ∧ join48 (2 ^ 32 - 1) (2 ^ 16 - 1) = 2 ^ 48 - 1 := by decide

/-- The same ranges, at their least values. -/
theorem witness_SplitAndJoinAreInverse :
    join42 (split42 0).1 (split42 0).2.1 (split42 0).2.2 = 0 ∧ split42 (join42 0 0 0) = (0, 0, 0)
    ∧ join58 (split58 0).1 (split58 0).2.1 (split58 0).2.2 = 0 ∧ split58 (join58 0 0 0) = (0, 0, 0)
    ∧ join36 (split36 0).1 (split36 0).2 = 0 ∧ split36 (join36 0 0) = (0, 0)
    ∧ join48 (split48 0).1 (split48 0).2 = 0 ∧ split48 (join48 0 0) = (0, 0) := by decide

theorem witness_HdrEncPacksTheHeader :
    hdrMax.Fits ∧ ¬ HdrFields.Fits { type := 2 ^ 16 } ∧ ¬ HdrFields.Fits { countD := 16 }
    ∧ ¬ HdrFields.Fits { numDataWords := 1024 } := by decide

theorem witness_SphEncPacksTheSpecialHeader :
    SphFields.Fits ⟨true, 15, 15⟩ ∧ ¬ SphFields.Fits ⟨true, 16, 0⟩ ∧ ¬ SphFields.Fits ⟨true, 0, 16⟩ := by decide

theorem witness_InptrEncPacksTheDescriptor :
    InPtr.Fits ⟨63, 2 ^ 42 - 1, 0xFFFF⟩ ∧ 2 ^ 42 ≤ (InPtr.mk 0 (2 ^ 42) 0).address
    ∧ (InPtr.mk 64 (2 ^ 42 - 1) 0).address < 2 ^ 42 ∧ ¬ InPtr.Fits ⟨64, 2 ^ 42 - 1, 0⟩ := by decide

theorem witness_MapaEncPacksTheDescriptor :
    MapAlias.Fits ⟨2 ^ 58 - 1, 2 ^ 36 - 1, 3⟩ ∧ 2 ^ 58 ≤ (MapAlias.mk (2 ^ 58) 0 0).address
    ∧ (MapAlias.mk (2 ^ 58 - 1) 0 4).address < 2 ^ 58 ∧ ¬ MapAlias.Fits ⟨2 ^ 58 - 1, 0, 4⟩ := by decide

theorem witness_OutptrEncPacksTheDescriptor :
    OutPtr.Fits ⟨2 ^ 48 - 1, 0xFFFF⟩ ∧ 2 ^ 48 ≤ (OutPtr.mk (2 ^ 48) 0).address
    ∧ (OutPtr.mk (2 ^ 48 - 1) 0x10000).address < 2 ^ 48 ∧ ¬ OutPtr.Fits ⟨2 ^ 48 - 1, 0x10000⟩ := by decide

theorem witness_SphDecUnpacksTheSpecialHeader :
    (unit2.cfg.tolSphPad = false ∧ 2 ^ 9 ≤ (0x200 : Word).toNat) ∧ (0x1FF : Word).toNat < 2 ^ 9
    ∧ (bufferOf .revisionTwo true []).cfg.tolSphPad = true := by decide

theorem witness_WordFormRoundTripReturnsTheOperands :
    hdrMax.Fits ∧ SphFields.Fits ⟨true, 15, 15⟩ ∧ InPtr.Fits ⟨63, 2 ^ 42 - 1, 0xFFFF⟩
    ∧ MapAlias.Fits ⟨2 ^ 58 - 1, 2 ^ 36 - 1, 3⟩ ∧ OutPtr.Fits ⟨2 ^ 48 - 1, 0xFFFF⟩ := by decide

theorem witness_PackingUnpackedWordsGivesThemBack : unpackSph unit2.cfg 0x1FF = .ok ⟨true, 15, 15⟩ := by rfl

/-- L-5: the room is exactly the total. -/
theorem witness_LayoutReturnsTheOffsets :
    countsMax.Fits ∧ (countsMax.hasSpecialHeader = true → SphFields.Fits ⟨true, 15, 15⟩)
    ∧ (offsets unit2.cfg countsMax ⟨true, 15, 15⟩).total ≤ 1248 := by decide

/-- L-7, L-9, L-6, L-8. -/
theorem witness_LayoutErrors :
    ¬ Counts.Fits { countB := 16 } ∧ ¬ SphFields.Fits { numCopyHandles := 99 }
    ∧ (countsMax.Fits ∧ (countsMax.hasSpecialHeader = true → SphFields.Fits ⟨true, 15, 15⟩)
      ∧ 1247 < (offsets unit2.cfg countsMax ⟨true, 15, 15⟩).total)
    ∧ ({} : Counts).hasSpecialHeader = false := by decide

theorem witness_TotalIsBounded :
    Counts.Fits {} ∧ countsMax.Fits ∧ (countsMax.hasSpecialHeader = true → SphFields.Fits ⟨true, 15, 15⟩) := by decide

/-- P2, in a buffer of exactly its total. -/
theorem witness_MsgEncCompletes :
    MessageFits unit2.cfg msgP2 ∧ (messageOffsets unit2.cfg msgP2).total ≤ 18 := by decide

theorem witness_MsgEncWritesHeaderAndSpecialHeader :
    unit2.mem.wf = true ∧ MessageFits unit2.cfg msgP2 ∧ (messageOffsets unit2.cfg msgP2).total ≤ 18
    ∧ msgP2.hdr.hasSpecialHeader = true ∧ msgP2.sph.sendPid = true ∧ 0 < msgP2.sph.numCopyHandles
    ∧ 0 < msgP2.sph.numMoveHandles := by decide

/-- An instance whose tables give the message of P2 one padding word before its data and one after it. -/
def padded : State :=
  { unit2 with cfg := { unit2.cfg with prePadTable := [⟨3, 14, 1⟩], postPadTable := [⟨3, 17, 1⟩] } }

theorem witness_MsgEncWritesDescriptorsAndData :
    padded.mem.wf = true ∧ MessageFits padded.cfg msgP2 ∧ (messageOffsets padded.cfg msgP2).total ≤ 20
    ∧ 0 < msgP2.hdr.countA ∧ 0 < msgP2.hdr.countB ∧ 0 < msgP2.hdr.countD ∧ 0 < msgP2.hdr.numDataWords
    ∧ 0 < outCnt padded.cfg msgP2.hdr.mode
    ∧ ((messageOffsets padded.cfg msgP2).offPrepad ≤ 14 ∧ 14 < (messageOffsets padded.cfg msgP2).offData)
    ∧ ((messageOffsets padded.cfg msgP2).offPostpad ≤ 17 ∧ 17 < (messageOffsets padded.cfg msgP2).offOutptr) := by
  decide

theorem witness_MsgEncAndLayoutAgree :
    MessageFits unit2.cfg msgP2 ∧ (messageOffsets unit2.cfg msgP2).total ≤ 18
    ∧ 17 < (messageOffsets unit2.cfg msgP2).total := by decide

theorem witness_MsgEncSucceedsOnlyWhenEverythingFits :
    ∃ t, exec (.msgEnc .revisionTwo msgA 4) unit2 = .next t ∧ t.status = some .ok := ⟨_, rfl, rfl⟩

/-- A message with one map-alias of each group and two out-pointers on REF (mode 4), the last of each kind not fitting. -/
def msgMisfits : Message :=
  { hdr := { countB := 1, countC := 1, countD := 2, mode := 4 }
    inmap := [⟨2 ^ 58 - 1, 2 ^ 36 - 1, 3⟩]
    outmap := [{}]
    inoutmap := [{}, ⟨2 ^ 58, 0, 0⟩] }

def msgOutMisfit : Message := { hdr := { mode := 4 }, outptr := [{}, ⟨0, 0x10000⟩] }

/-- A first error and none: M-8, M-7 and S-A1. -/
theorem witness_MsgEncReportsTheFirstError :
    firstError 4 0 (messageElements unit2.cfg msgM7) = some .addressOutOfRange
    ∧ firstError 3 0 (messageElements unit2.cfg msgM7) = some .bufferTooSmall
    ∧ firstError 4 0 (messageElements unit2.cfg msgA) = none := by decide

/-- The clauses on the header, the special header and the in-pointers. -/
theorem witness_MsgEncReportsTheFirstError_front :
    ¬ HdrFields.Fits { countA := 16 } ∧ (msgA.hdr.Fits ∧ 1 < 2)
    ∧ (HdrFields.Fits { hasSpecialHeader := true } ∧ ¬ SphFields.Fits { numCopyHandles := 16 })
    ∧ (msgM7.hdr.Fits ∧ (msgM7.hdr.hasSpecialHeader = true → msgM7.sph.Fits) ∧ 1 < msgM7.hdr.countA
      ∧ (∀ i < 1, (msgM7.inptr.getD i {}).Fits) ∧ (messageOffsets unit2.cfg msgM7).offInptr + 2 * 1 ≤ 4
      ∧ 2 ^ 42 ≤ (msgM7.inptr.getD 1 {}).address)
    ∧ ((InPtr.mk 0 0 0x10000).address < 2 ^ 42 ∧ ¬ InPtr.Fits ⟨0, 0, 0x10000⟩)
    ∧ ((msgM7.inptr.getD 0 {}).Fits ∧ (messageOffsets unit2.cfg msgM7).offInptr + 2 * 0 ≤ 3
      ∧ 3 < (messageOffsets unit2.cfg msgM7).offInptr + 2 * 0 + 2) := by decide

/-- The clauses on the map-alias groups, the last group with both groups before it. -/
theorem witness_MsgEncReportsTheFirstError_mapAliases :
    msgMisfits.hdr.Fits ∧ (∀ i < msgMisfits.hdr.countA, (msgMisfits.inptr.getD i {}).Fits)
    ∧ (∀ d ∈ entries msgMisfits.inmap msgMisfits.hdr.countB ++ entries msgMisfits.outmap msgMisfits.hdr.countC, d.Fits)
    ∧ 1 < msgMisfits.hdr.countD ∧ (∀ i < 1, (msgMisfits.inoutmap.getD i {}).Fits)
    ∧ (messageOffsets unit2.cfg msgMisfits).offInoutmap + 3 * 1 ≤ 11
    ∧ 2 ^ 58 ≤ (msgMisfits.inoutmap.getD 1 {}).address
    ∧ ((MapAlias.mk 0 0 4).address < 2 ^ 58 ∧ ¬ MapAlias.Fits ⟨0, 0, 4⟩)
    ∧ 10 < (messageOffsets unit2.cfg msgMisfits).offInoutmap + 3 * 0 + 3 := by decide

/-- The clauses on the out-pointers (OUTCNT(4) = 2). -/
theorem witness_MsgEncReportsTheFirstError_outPointers :
    msgOutMisfit.hdr.Fits ∧ 1 < outCnt unit2.cfg msgOutMisfit.hdr.mode
    ∧ (∀ i < 1, (msgOutMisfit.outptr.getD i {}).Fits)
    ∧ (messageOffsets unit2.cfg msgOutMisfit).offOutptr + 2 * 1 ≤ 4
    ∧ (msgOutMisfit.outptr.getD 1 {}).address < 2 ^ 48 ∧ ¬ (msgOutMisfit.outptr.getD 1 {}).Fits
    ∧ 2 ^ 48 ≤ (OutPtr.mk (2 ^ 48) 0).address
    ∧ 3 < (messageOffsets unit2.cfg msgOutMisfit).offOutptr + 2 * 0 + 2 := by decide

/-- M-5. -/
theorem witness_FailedMsgEncForgetsTheBuffer :
    unit2.mem.wf = true ∧ Memory.wf (Memory.writeWords [] 0 [1, 2, 3]) = true
    ∧ ∃ t, exec (.msgEnc .revisionTwo msgA 3) unit2 = .next t ∧ t.status = some (.error .bufferTooSmall) :=
  ⟨rfl, rfl, _, rfl, rfl⟩

/-- The buffer of X-1. -/
def bufX1 : State := bufferOf .revisionTwo false [0x00000001, 0x80000000, 0x00000021, 0x12345678, 0x00000033]

theorem witness_MsgDecCompletes :
    (unpackHdr (bufX1.mem.readWord 0) (bufX1.mem.readWord 1)).hasSpecialHeader = true
    ∧ unpackSph bufX1.cfg (bufX1.mem.readWord 2) = .ok ⟨true, 0, 1⟩
    ∧ (offsets bufX1.cfg (unpackHdr (bufX1.mem.readWord 0) (bufX1.mem.readWord 1)).toCounts ⟨true, 0, 1⟩).total ≤ 5 :=
  ⟨by decide, by rfl, by decide⟩

/-- The buffers of X-1, X-2 and X-4. -/
theorem witness_MsgDecErrors :
    (unpackHdr (bufX1.mem.readWord 0) (bufX1.mem.readWord 1)).hasSpecialHeader = true
    ∧ (bufX1.cfg.tolSphPad = false
      ∧ 2 ^ 9 ≤ ((bufferOf .revisionTwo false [0x00000001, 0x80000000, 0x00000221]).mem.readWord 2).toNat)
    ∧ 4 < (offsets bufX1.cfg (unpackHdr (bufX1.mem.readWord 0) (bufX1.mem.readWord 1)).toCounts ⟨true, 0, 1⟩).total
    ∧ (unpackHdr 0x00000004 0x00000002).hasSpecialHeader = false
    ∧ 3 < (offsets unit2.cfg (unpackHdr 0x00000004 0x00000002).toCounts {}).total := by decide

/-- S-A1, then S-A2 by an instance with the other straps. -/
theorem witness_MessageRoundTrip :
    unit2.mem.wf = true
    ∧ ∃ t u : State, exec (.msgEnc unit2.cfg.rev msgA 4) unit2 = .next t ∧ t.rsp = some ⟨.ok, .msgEnc 4⟩ ∧ u.mem = t.mem
      ∧ SameFunctions u.cfg unit2.cfg ∧ u.cfg.rev = .revisionOne :=
  ⟨rfl, _, { unit2 with cfg := Config.ref .revisionOne true, mem := _ }, rfl, rfl, rfl, ⟨rfl, rfl, rfl⟩, rfl⟩

/-- X-1. -/
theorem witness_EncodingADecodedMessageIsCanonical :
    bufX1.mem.wf = true
    ∧ ∃ t m pid, exec (.msgDec bufX1.cfg.rev 5) bufX1 = .next t ∧ t.rsp = some ⟨.ok, .msgDec m pid 5⟩
      ∧ m.hdr.hasSpecialHeader = true ∧ m.sph.sendPid = true :=
  ⟨by decide, _, _, _, rfl, rfl, rfl, rfl⟩

theorem witness_WrongRevisionIsRevisionMismatch :
    Assigned (.msgDec .revisionOne 0) = true ∧ (Instr.msgDec .revisionOne 0).rev ≠ unit2.cfg.rev := by decide

/-- D-S2, and X-2 for the clause on MSG.DEC. -/
theorem witness_MalformedSpecialHeaderExactlyWhenStrictPaddingIsSet :
    (∃ t, exec (.sphDec unit2.cfg.rev 0x200) unit2 = .next t ∧ t.status = some (.error .malformedSpecialHeader))
    ∧ ∃ t, exec (.msgDec .revisionTwo 5) (bufferOf .revisionTwo false [0x00000001, 0x80000000, 0x00000221, 0, 0x33])
        = .next t ∧ t.status = some (.error .malformedSpecialHeader) :=
  ⟨⟨_, rfl, rfl⟩, ⟨_, rfl, rfl⟩⟩

theorem witness_OperationsRaiseOnlyTheirListedErrors :
    ∃ t, exec (.inptrEnc .revisionTwo ⟨0, 2 ^ 42, 0⟩) unit2 = .next t ∧ t.status = some (.error .addressOutOfRange) :=
  ⟨_, rfl, rfl⟩

theorem witness_ErrorReturnsChangeNothingElse :
    (∃ t, exec (.layout .revisionTwo {} {} 1) unit2 = .next t ∧ t.status = some (.error .bufferTooSmall))
    ∧ ∃ t, exec (.msgEnc .revisionTwo msgA 3) unit2 = .next t ∧ t.status = some (.error .bufferTooSmall) :=
  ⟨⟨_, rfl, rfl⟩, ⟨_, rfl, rfl⟩⟩

/-- The clause on a status OK, and the one on operations other than MSG.ENC. -/
theorem witness_RevisionsDifferInNamesOnly :
    (∃ t, exec (withRev .revisionOne (.msgEnc .revisionTwo msgA 4)) (unit2.withRevStrap .revisionOne) = .next t
      ∧ t.status = some .ok)
    ∧ isMsgEnc (.msgDec .revisionTwo 4) = false := ⟨⟨_, rfl, rfl⟩, rfl⟩

theorem witness_OnlyMsgEncWritesTheBuffer :
    isMsgEnc (.msgDec .revisionTwo 5) = false ∧ ∃ t, exec (.msgDec .revisionTwo 5) bufX1 = .next t := ⟨rfl, _, rfl⟩

theorem witness_ResultDependsOnConfigurationRequestAndBuffer :
    bufX1.cfg = ({ bufX1 with rsp := some ⟨.ok, .msgEnc 5⟩, draws := 1 } : State).cfg
    ∧ bufX1.mem = ({ bufX1 with rsp := some ⟨.ok, .msgEnc 5⟩, draws := 1 } : State).mem := ⟨rfl, rfl⟩

theorem witness_MemReadReturnsWhatMemWriteWrote : bufX1.mem.wf = true := by decide

theorem witness_DecodingAnEncodedOperationGivesItBack :
    (Instr.mapaEnc .revisionTwo ⟨2 ^ 64 - 1, 2 ^ 64 - 1, 2 ^ 32 - 1⟩).wellFormed = true
    ∧ (Instr.msgEnc .revisionTwo msgP2 (2 ^ 32 - 1)).wellFormed = true := by decide

theorem witness_StepRunsTheRequestedOperation :
    (∃ r rest, (unit2.withInbox [.request (encode (.msgDec .revisionTwo 5))]).inbox = .request r :: rest)
    ∧ (Instr.msgDec .revisionTwo 5).wellFormed = true
    ∧ decodeTableWord 8 0b1110 = some (.msgDec .revisionOne 0) := ⟨⟨_, _, rfl⟩, by decide, by decide⟩

theorem witness_IdleStepChangesNothing : State.reset.inbox = [] := rfl

/-- The last word a buffer can have, and the first one that no buffer has. -/
theorem witness_EnvironmentWritesOneWord :
    unit2.mem.wf = true ∧ (unit2.withInbox [.bufWrite (2 ^ 32 - 2) 7]).inbox = [.bufWrite (2 ^ 32 - 2) 7]
    ∧ 2 ^ 32 - 2 < 2 ^ 32 - 1 ∧ (unit2.withInbox [.bufWrite (2 ^ 32 - 1) 7]).inbox = [.bufWrite (2 ^ 32 - 1) 7] := by
  decide

theorem witness_ResetLoadsTheStraps :
    (unit2.withInbox [.reset .revisionOne true]).inbox = [.reset .revisionOne true]
    ∧ (unit2.withInbox [.resetDuring (encode (.msgEnc .revisionTwo msgA 4)) .revisionOne true]).inbox
        = [.resetDuring (encode (.msgEnc .revisionTwo msgA 4)) .revisionOne true]
    ∧ isMsgEnc (decode (encode (.msgEnc .revisionTwo msgA 4))) = true
    ∧ isMsgEnc (decode (encode (.msgDec .revisionTwo 4))) = false := by decide

theorem witness_SharedBufferLaunchIsRefused :
    (unit2.withInbox [.sharedRequest (encode (.msgDec .revisionTwo 5)) .operation]).inbox
        = [.sharedRequest (encode (.msgDec .revisionTwo 5)) .operation]
    ∧ (encode (.msgEnc .revisionTwo msgA 4)).op = 0x6#4 ∧ (encode (.msgDec .revisionTwo 5)).op = 0xE#4
    ∧ (encode (.hdrDec .revisionTwo 0 0)).op ≠ 0x6#4 ∧ (encode (.hdrDec .revisionTwo 0 0)).op ≠ 0xE#4 := by decide

theorem witness_OnlyResetChangesTheConfiguration :
    ∃ t, step (bufX1.withInbox [.request (encode (.msgDec .revisionTwo 5))]) = .next t := ⟨_, rfl⟩

theorem witness_StepKeepsTheInvariant :
    (bufX1.withInbox [.request (encode (.msgEnc .revisionTwo msgA 4))]).Inv
    ∧ ∃ t, step (bufX1.withInbox [.request (encode (.msgEnc .revisionTwo msgA 4))]) = .next t := ⟨by decide, _, rfl⟩

end Sys2Proof.Tests
end

section
/-! SUPPORT. R20: what an operation answers is decided by configuration, request and buffer. `SameAnswer` compares two
answers as far as the spec defines them: after an error only the status (R25, R51). -/

namespace Sys2Proof.Machine

/-- Two states after an operation agree in the result: one status, and, when it is OK, one response and buffer. -/
def SameResult (t v : State) : Prop :=
  t.status = v.status ∧ (t.status = some .ok → t.rsp = v.rsp ∧ t.mem = v.mem)

/-- Both steps answer, and with the same result. -/
def SameAnswer (a b : Host.Outcome State Fault Refusal) : Prop :=
  ∃ t v, a = .next t ∧ b = .next v ∧ SameResult t v

theorem SameResult.sameAnswer {t v : State} (h : SameResult t v) : SameAnswer (.next t) (.next v) := ⟨t, v, rfl, rfl, h⟩

/-! ## The two ways an operation ends -/

theorem sameResult_respond {s u : State} (h : s.mem = u.mem) (r : Results) : SameResult (s.respond r) (u.respond r) :=
  ⟨rfl, fun _ => ⟨rfl, h⟩⟩

/-- After one error nothing but the status is compared, whatever the two states hold. -/
theorem sameResult_of_error {t v : State} {e : Err} (ht : t.status = some (.error e))
    (hv : v.status = some (.error e)) : SameResult t v :=
  ⟨ht.trans hv.symm, fun hok => by simp [ht] at hok⟩

/-! ## Every operation

The two requests may name different revisions, as long as both or neither match the strap of their state. -/

section TwoRequests
variable {s u : State} {rev rev' : Revision} (hrev : rev = s.cfg.rev ↔ rev' = u.cfg.rev)
include hrev

theorem finish_sameAnswer (hmem : s.mem = u.mem) (o : Except Err Results) :
    SameAnswer (finish rev o s) (finish rev' o u) := by
  rcases finish_cases rev o s with ⟨r, hr, rfl, hs⟩ | ⟨e, hr, rfl, hs⟩ | ⟨hr, hs⟩
  · rw [hs, hrev.mp hr, finish_ok]
    exact (sameResult_respond hmem r).sameAnswer
  · rw [hs, hrev.mp hr, finish_error]
    exact (sameResult_of_error rfl rfl).sameAnswer
  · rw [hs, finish_wrongRevision (mt hrev.mpr hr)]
    exact (sameResult_of_error rfl rfl).sameAnswer

theorem execMsgEnc_sameAnswer {m : Message} {cap : Nat}
    (henc : encodeMessage s.cfg m cap s.mem = encodeMessage u.cfg m cap u.mem) :
    SameAnswer (execMsgEnc rev m cap s) (execMsgEnc rev' m cap u) := by
  rcases execMsgEnc_cases rev m cap s with ⟨w, hr, hw, hs⟩ | ⟨e, hr, he, hs⟩ | ⟨hr, hs⟩
  · rw [hs, hrev.mp hr, execMsgEnc_ok (henc.symm.trans hw)]
    exact (sameResult_respond (by simp) _).sameAnswer
  · rw [hs, hrev.mp hr, execMsgEnc_error (henc.symm.trans he)]
    exact (sameResult_of_error rfl rfl).sameAnswer
  · rw [hs, execMsgEnc_wrongRevision (mt hrev.mpr hr)]
    exact (sameResult_of_error rfl rfl).sameAnswer

end TwoRequests

theorem exec_sameAnswer {s u : State} (hcfg : s.cfg = u.cfg) (hmem : s.mem = u.mem) (i : Instr) :
    SameAnswer (exec i s) (exec i u) := by
  have hrev (rev : Revision) : rev = s.cfg.rev ↔ rev = u.cfg.rev := by rw [hcfg]
  cases i with
  | msgEnc rev m cap => exact execMsgEnc_sameAnswer (hrev rev) (by rw [hcfg, hmem])
  | unassigned7 | unassignedD | unassignedF =>
    rw [exec_of_unassigned rfl, exec_of_unassigned rfl]
    exact (sameResult_of_error rfl rfl).sameAnswer
  | _ =>
    rw [exec_of_assigned rfl rfl, exec_of_assigned rfl rfl, hcfg, hmem]
    exact finish_sameAnswer (hrev _) hmem _

/-- Settles O36: `exec_sameAnswer`, from what `finish` and MSG.ENC do in two states that agree. -/
theorem resultDependsOnConfigurationRequestAndBuffer :
    Obligations.ResultDependsOnConfigurationRequestAndBuffer :=
  fun _ _ i hcfg hmem => exec_sameAnswer hcfg hmem i

end Sys2Proof.Machine
end

section
/-! SUPPORT. 30_encoding.md section 2 (R70 to R75). A number in range has no bits above its top field, so the
top slice of a split is the whole quotient; the sum of fields in range stays below the end of the top one. -/

namespace Sys2Proof.Machine

/-- The top field of a number in range is its quotient: the slice's remainder cuts nothing off. -/
theorem topField_eq_div {a k n : Nat} (h : a < 2 ^ (k + n)) : a / 2 ^ k % 2 ^ n = a / 2 ^ k :=
  Nat.mod_eq_of_lt (Nat.div_lt_of_lt_mul (by rwa [← Nat.pow_add]))

theorem split42_of_lt {a : Nat} (h : a < 2 ^ 42) : split42 a = (a % 2 ^ 32, a / 2 ^ 32 % 2 ^ 4, a / 2 ^ 36) := by
  rw [split42_eq, topField_eq_div (k := 36) h]

theorem split58_of_lt {a : Nat} (h : a < 2 ^ 58) : split58 a = (a % 2 ^ 32, a / 2 ^ 32 % 2 ^ 4, a / 2 ^ 36) := by
  rw [split58_eq, topField_eq_div (k := 36) h]

theorem split36_of_lt {z : Nat} (h : z < 2 ^ 36) : split36 z = (z % 2 ^ 32, z / 2 ^ 32) := by
  rw [split36_eq, topField_eq_div h]

theorem split48_of_lt {a : Nat} (h : a < 2 ^ 48) : split48 a = (a % 2 ^ 32, a / 2 ^ 32) := by
  rw [split48_eq, topField_eq_div h]

/-- A field of `n` bits placed above a number of `k` bits ends at bit `k + n`. -/
theorem add_topField_lt {v x k n : Nat} (hv : v < 2 ^ k) (hx : x < 2 ^ n) : v + x * 2 ^ k < 2 ^ (k + n) := by
  calc
    v + x * 2 ^ k < (x + 1) * 2 ^ k := by rw [Nat.succ_mul]; omega
    _ ≤ 2 ^ n * 2 ^ k := Nat.mul_le_mul_right _ hx
    _ = 2 ^ (k + n) := by rw [Nat.pow_add, Nat.mul_comm]

section Join
variable {low mid high : Nat} (hl : low < 2 ^ 32)
include hl

theorem join42_lt (hm : mid < 2 ^ 4) (hh : high < 2 ^ 6) : join42 low mid high < 2 ^ 42 := by
  rw [join42_eq hl hm]
  exact add_topField_lt (add_topField_lt hl hm) hh

theorem join58_lt (hm : mid < 2 ^ 4) (hh : high < 2 ^ 22) : join58 low mid high < 2 ^ 58 := by
  rw [join58_eq hl hm]
  exact add_topField_lt (add_topField_lt hl hm) hh

theorem join36_lt (hh : high < 2 ^ 4) : join36 low high < 2 ^ 36 := by
  rw [join36_eq hl]
  exact add_topField_lt hl hh

theorem join48_lt (hh : high < 2 ^ 16) : join48 low high < 2 ^ 48 := by
  rw [join48_eq hl]
  exact add_topField_lt hl hh

end Join

/-- Settles O1: for each width, `split…_of_lt` for the slices and `join…_eq`, `join…_lt` for the fields; the OR is the
join's definition. -/
theorem splitGivesSlicesAndJoinPlacesFields : Obligations.SplitGivesSlicesAndJoinPlacesFields := by
  refine ⟨fun _ => split42_of_lt, ?join42, fun _ => split58_of_lt, ?join58, fun _ => split36_of_lt, ?join36,
    fun _ => split48_of_lt, ?join48⟩
  case join42 => exact fun _ hl _ hm _ hh => ⟨rfl, join42_eq hl hm _, join42_lt hl hm hh⟩
  case join58 => exact fun _ hl _ hm _ hh => ⟨rfl, join58_eq hl hm _, join58_lt hl hm hh⟩
  case join36 => exact fun _ hl _ hh => ⟨rfl, join36_eq hl _, join36_lt hl hh⟩
  case join48 => exact fun _ hl _ hh => ⟨rfl, join48_eq hl _, join48_lt hl hh⟩

end Sys2Proof.Machine
end

section
/-! SUPPORT. The encode operations of 41_bitfield_encoder.md. Under the instance's revision an operation other than
MSG.ENC ends as its `body` does; for an encode operation that is its pack function (R110, R111). -/

namespace Sys2Proof.Machine

/-! ## An operation under the instance's revision -/

section Body
variable {i : Instr} {s : State} (ha : Assigned i = true) (hm : isMsgEnc i = false) (hrev : i.rev = s.cfg.rev)
include ha hm hrev

theorem exec_of_body_ok {r : Results} (hb : body s.cfg s.mem i = .ok r) : exec i s = .next (s.respond r) := by
  rw [exec_of_assigned ha hm, hrev, hb, finish_ok]

theorem endsInError_of_body {e : Err} (hb : body s.cfg s.mem i = .error e) : EndsInError i e s := by
  refine ⟨s.errorReturn e, ?_, errorReturn_status .., errorReturn_cfg .., errorReturn_mem .., errorReturn_inbox ..⟩
  rw [exec_of_assigned ha hm, hrev, hb, finish_error]

end Body

/-! ## HDR.ENC and SPH.ENC -/

theorem exec_hdrEnc_of_fits {f : HdrFields} (h : f.Fits) (s : State) :
    exec (.hdrEnc s.cfg.rev f) s
      = .next (s.respond (.hdrEnc (toWord (hdrWord1 f)) (toWord (hdrWord2 f.toCounts)))) :=
  exec_of_body_ok rfl rfl rfl (by rw [body, packHdr_ok h, ok_bind])

theorem hdrEnc_fieldOverflow {f : HdrFields} (h : ¬ f.Fits) (s : State) :
    EndsInError (.hdrEnc s.cfg.rev f) .fieldOverflow s :=
  endsInError_of_body rfl rfl rfl (by rw [body, packHdr_error h, error_bind])

theorem exec_sphEnc_of_fits {f : SphFields} (h : f.Fits) (s : State) :
    exec (.sphEnc s.cfg.rev f) s = .next (s.respond (.sphEnc (toWord (sphWord f)))) :=
  exec_of_body_ok rfl rfl rfl (by rw [body, packSph_ok h, ok_bind])

theorem sphEnc_fieldOverflow {f : SphFields} (h : ¬ f.Fits) (s : State) :
    EndsInError (.sphEnc s.cfg.rev f) .fieldOverflow s :=
  endsInError_of_body rfl rfl rfl (by rw [body, packSph_error h, error_bind])

/-- The packed special header as a number: it ends at bit 9, so the word holds all of it. -/
theorem toWord_sphWord_toNat {f : SphFields} (h : f.Fits) : (toWord (sphWord f)).toNat = sphWord f :=
  toWord_toNat ((sphWord_lt h).trans (by decide))

/-- Settles O3: `packHdr_ok` and `packHdr_error` by HDR.ENC; two words of fields in range stay below 2^32. -/
theorem hdrEncPacksTheHeader : Obligations.HdrEncPacksTheHeader := by
  refine fun s f => ⟨fun h => ?fits, fun h => hdrEnc_fieldOverflow h s⟩
  case fits =>
    have hcounts : f.toCounts.Fits := h.2
    exact ⟨_, _, exec_hdrEnc_of_fits h s, toWord_toNat (hdrWord1_lt h), toWord_toNat (hdrWord2_lt hcounts)⟩

/-- Settles O4: `packSph_ok` and `packSph_error` by SPH.ENC. -/
theorem sphEncPacksTheSpecialHeader : Obligations.SphEncPacksTheSpecialHeader :=
  fun s _ => ⟨fun h => ⟨_, exec_sphEnc_of_fits h s, toWord_sphWord_toNat h⟩, fun h => sphEnc_fieldOverflow h s⟩

end Sys2Proof.Machine
end

section
/-! SUPPORT. The decode operations of 42_bitfield_decoder.md, R131 to R134. Under the instance's revision each answers
its unpack function; only UNPACK_SPH can fail. -/

namespace Sys2Proof.Machine

/-! ## SPH.DEC: the strict policy and the padding -/

theorem unpackSph_malformed {cfg : Cfg} {w : Word} (hstrict : cfg.tolSphPad = false) (hpad : 2 ^ 9 ≤ w.toNat) :
    unpackSph cfg w = .error .malformedSpecialHeader := by
  have hset : w.toNat / 2 ^ 9 ≠ 0 := (Nat.div_pos hpad (by decide)).ne'
  rw [unpackSph_eq, if_pos ⟨hstrict, hset⟩]

theorem unpackSph_ok {cfg : Cfg} {w : Word} (h : cfg.tolSphPad = true ∨ w.toNat < 2 ^ 9) :
    unpackSph cfg w = .ok ⟨decide (w.toNat % 2 = 1), w.toNat / 2 % 16, w.toNat / 2 ^ 5 % 16⟩ := by
  have haccepted : ¬ (cfg.tolSphPad = false ∧ w.toNat / 2 ^ 9 ≠ 0) := by
    rintro ⟨hstrict, hset⟩
    rcases h with htolerant | hclear
    · simp [htolerant] at hstrict
    · exact hset (Nat.div_eq_of_lt hclear)
  rw [unpackSph_eq, if_neg haccepted]

theorem sphDec_malformed {s : State} {w : Word} (hstrict : s.cfg.tolSphPad = false) (hpad : 2 ^ 9 ≤ w.toNat) :
    EndsInError (.sphDec s.cfg.rev w) .malformedSpecialHeader s :=
  endsInError_of_body rfl rfl rfl (by rw [body, unpackSph_malformed hstrict hpad, error_bind])

theorem exec_sphDec_of_unpacked {s : State} {w : Word} {f : SphFields} (h : unpackSph s.cfg w = .ok f) :
    exec (.sphDec s.cfg.rev w) s = .next (s.respond (.sphDec f)) :=
  exec_of_body_ok rfl rfl rfl (by rw [body, h, ok_bind])

/-- Settles O9: `sphDec_malformed` for padding under the strict policy, `unpackSph_ok` everywhere else. -/
theorem sphDecUnpacksTheSpecialHeader : Obligations.SphDecUnpacksTheSpecialHeader :=
  fun _ _ => ⟨sphDec_malformed, fun h => exec_sphDec_of_unpacked (unpackSph_ok h)⟩

/-! ## The descriptors: every word unpacks -/

section Descriptors
variable (s : State) (w1 w2 : Word)

theorem exec_inptrDec :
    exec (.inptrDec s.cfg.rev w1 w2) s = .next (s.respond (.inptrDec (unpackInPtr w1 w2))) :=
  exec_of_body_ok rfl rfl rfl rfl

theorem exec_mapaDec (w3 : Word) :
    exec (.mapaDec s.cfg.rev w1 w2 w3) s = .next (s.respond (.mapaDec (unpackMapAlias w1 w2 w3))) :=
  exec_of_body_ok rfl rfl rfl rfl

theorem exec_outptrDec :
    exec (.outptrDec s.cfg.rev w1 w2) s = .next (s.respond (.outptrDec (unpackOutPtr w1 w2))) :=
  exec_of_body_ok rfl rfl rfl rfl

end Descriptors

/-- Settles O10: INPTR.DEC answers UNPACK_INPTR, whose join is the sum of its parts (`unpackInPtr_eq`). -/
theorem inptrDecUnpacksTheDescriptor : Obligations.InptrDecUnpacksTheDescriptor := by
  intro s w1 w2
  rw [exec_inptrDec, unpackInPtr_eq]
  rfl

/-- Settles O11: MAPA.DEC answers UNPACK_MAPA, whose two joins are the sums of their parts (`unpackMapAlias_eq`). -/
theorem mapaDecUnpacksTheDescriptor : Obligations.MapaDecUnpacksTheDescriptor := by
  intro s w1 w2 w3
  rw [exec_mapaDec, unpackMapAlias_eq]
  rfl

/-- Settles O12: OUTPTR.DEC answers UNPACK_OUTPTR, whose join is the sum of its parts (`unpackOutPtr_eq`). -/
theorem outptrDecUnpacksTheDescriptor : Obligations.OutptrDecUnpacksTheDescriptor := by
  intro s w1 w2
  rw [exec_outptrDec, unpackOutPtr_eq]
  rfl

end Sys2Proof.Machine
end

section
/-! SUPPORT. Requests and operations (10_state.md R24, 30_encoding.md R80 to R82): the ports that `encode` drives are
the ones `decode` reads, and the operation that `decode` answers has the request's `op` and `rev` and operands that
fit their ports. -/

namespace Sys2Proof

/-- Every operand goes to its own port and comes back from it (`hdr_ports` and the like). -/
theorem decode_encode {i : Instr} (h : i.wellFormed = true) : decode (encode i) = i := by
  cases i with
  | hdrEnc rev f => exact congrArg₂ Instr.hdrEnc (ofBit_bit rev) (hdr_ports h)
  | sphEnc rev f => exact congrArg₂ Instr.sphEnc (ofBit_bit rev) (sph_ports h)
  | inptrEnc rev d => exact congrArg₂ Instr.inptrEnc (ofBit_bit rev) (inPtr_ports h)
  | mapaEnc rev d => exact congrArg₂ Instr.mapaEnc (ofBit_bit rev) (mapAlias_ports h)
  | outptrEnc rev d => exact congrArg₂ Instr.outptrEnc (ofBit_bit rev) (outPtr_ports h)
  | layout rev c f cap =>
    simp only [Instr.wellFormed, Bool.and_eq_true] at h
    obtain ⟨⟨hc, hf⟩, hcap⟩ := h
    change Instr.layout (.ofBit rev.bit) c.ports.counts f.ports.fields (BitVec.ofNat 32 cap).toNat = _
    rw [ofBit_bit, counts_ports hc, sph_ports hf, toNat_ofNat_of_onPort32 hcap]
  | msgEnc rev m cap =>
    simp only [Instr.wellFormed, Bool.and_eq_true] at h
    obtain ⟨hm, hcap⟩ := h
    change Instr.msgEnc (.ofBit rev.bit) m.ports.fields (BitVec.ofNat 32 cap).toNat = _
    rw [ofBit_bit, message_ports hm, toNat_ofNat_of_onPort32 hcap]
  | msgDec rev cap => exact congrArg₂ Instr.msgDec (ofBit_bit rev) (toNat_ofNat_of_onPort32 h)
  | hdrDec rev w1 w2 => exact congrArg (Instr.hdrDec · w1 w2) (ofBit_bit rev)
  | sphDec rev w1 => exact congrArg (Instr.sphDec · w1) (ofBit_bit rev)
  | inptrDec rev w1 w2 => exact congrArg (Instr.inptrDec · w1 w2) (ofBit_bit rev)
  | mapaDec rev w1 w2 w3 => exact congrArg (Instr.mapaDec · w1 w2 w3) (ofBit_bit rev)
  | outptrDec rev w1 w2 => exact congrArg (Instr.outptrDec · w1 w2) (ofBit_bit rev)
  | unassigned7 rev => exact congrArg Instr.unassigned7 (ofBit_bit rev)
  | unassignedD rev => exact congrArg Instr.unassignedD (ofBit_bit rev)
  | unassignedF rev => exact congrArg Instr.unassignedF (ofBit_bit rev)

/-- Settles O40: `decode_encode`, by the constructor of the operation. -/
theorem decodingAnEncodedOperationGivesItBack : Obligations.DecodingAnEncodedOperationGivesItBack :=
  fun _ h => decode_encode h

/-! ## What a request decodes to -/

/-- By the sixteen values of `op`, in the order of the opcode table. -/
theorem decode_spec (r : Request) :
    (decode r).wellFormed = true ∧ (decode r).opcode = r.op ∧ (decode r).rev.bit = r.rev := by
  obtain ⟨⟨⟨op, hop⟩⟩, rev, hdr, sph, inptr, mapa, outptr, w1, w2, w3, msg, cap⟩ := r
  have hcap := onPort32_toNat cap
  interval_cases op
  all_goals refine ⟨?_, rfl, bit_ofBit rev⟩
  · exact hdr_wellFormed hdr
  · exact sph_wellFormed sph
  · exact inPtr_wellFormed inptr
  · exact mapAlias_wellFormed mapa
  · exact outPtr_wellFormed outptr
  · exact Bool.and_eq_true_iff.2 ⟨Bool.and_eq_true_iff.2 ⟨counts_wellFormed hdr, sph_wellFormed sph⟩, hcap⟩
  · exact Bool.and_eq_true_iff.2 ⟨message_wellFormed msg, hcap⟩
  iterate 7 rfl
  · exact hcap
  · rfl

theorem decode_wellFormed (r : Request) : (decode r).wellFormed = true := (decode_spec r).1

theorem decode_opcode (r : Request) : (decode r).opcode = r.op := (decode_spec r).2.1

/-- Settles O41: `decode_spec`. -/
theorem decodedOperationsAreWellFormed : Obligations.DecodedOperationsAreWellFormed := decode_spec

/-- Settles O42: each of the five words reads its four bits of `op` and leaves every other port 0. -/
theorem tableWordsDecodeToTheirOperation : Obligations.TableWordsDecodeToTheirOperation :=
  ⟨rfl, rfl, rfl, rfl, rfl⟩

end Sys2Proof
end

section
/-! SUPPORT. What every operation keeps and which errors it may raise (60_exceptions.md R170 to R179), read off the
cases of `exec` (`exec_cases`, `exec_next`). -/

namespace Sys2Proof.Machine

/-! ## Every operation answers -/

theorem exec_answers (s : State) (i : Instr) :
    ∃ t, exec i s = .next t ∧ t.cfg = s.cfg ∧ t.inbox = s.inbox ∧ t.rsp.isSome = true := by
  rcases exec_cases i s with ⟨r, -, -, -, -, h⟩ | ⟨e, -, h, -⟩ | ⟨m, cap, w, -, -, h⟩ | ⟨rev, m, cap, e, -, h, -⟩
  all_goals exact ⟨_, h, rfl, rfl, rfl⟩

/-- Settles O34: `exec_answers`. -/
theorem everyOperationAnswers : Obligations.EveryOperationAnswers := exec_answers

theorem exec_cfg {i : Instr} {s t : State} (h : exec i s = .next t) : t.cfg = s.cfg := by
  obtain ⟨t', ht, hcfg, -, -⟩ := exec_answers s i
  cases ht.symm.trans h
  exact hcfg

/-- Without MSG.ENC only the response and the draw counter can change. -/
theorem exec_mem {i : Instr} {s t : State} (hm : isMsgEnc i = false) (h : exec i s = .next t) : t.mem = s.mem := by
  rcases exec_next h with
    ⟨r, -, -, -, -, rfl⟩ | ⟨e, -, rfl, -⟩ | ⟨m, cap, w, rfl, -, -⟩ | ⟨rev, m, cap, e, rfl, -, -⟩
  · rfl
  · rfl
  · cases hm
  · cases hm

/-- Settles O35: `exec_mem`. -/
theorem onlyMsgEncWritesTheBuffer : Obligations.OnlyMsgEncWritesTheBuffer := fun _ _ _ => exec_mem

/-! ## The two checks that come before every other error -/

theorem unassigned_badRequest {i : Instr} (h : Assigned i = false) (s : State) : EndsInError i .badRequest s :=
  ⟨_, exec_of_unassigned h s, errorReturn_status .., errorReturn_cfg .., errorReturn_mem .., errorReturn_inbox ..⟩

/-- Settles O30: `unassigned_badRequest` for each of the three values of `op`. -/
theorem unassignedOpIsBadRequest : Obligations.UnassignedOpIsBadRequest := fun s _ =>
  ⟨unassigned_badRequest rfl s, unassigned_badRequest rfl s, unassigned_badRequest rfl s⟩

/-- Settles O29: `finish` and MSG.ENC check the revision first (`finish_wrongRevision`, `execMsgEnc_wrongRevision`). -/
theorem wrongRevisionIsRevisionMismatch : Obligations.WrongRevisionIsRevisionMismatch := by
  intro s i ha hrev
  cases hm : isMsgEnc i with
  | false =>
    exact ⟨s.errorReturn .revisionMismatch, (exec_of_assigned ha hm s).trans (finish_wrongRevision hrev _),
      errorReturn_status .., rfl, rfl, fun _ => rfl⟩
  | true =>
    cases i with
    | msgEnc rev m cap =>
      exact ⟨_, execMsgEnc_wrongRevision hrev m cap, encodeErrorReturn_status .., rfl, rfl, by simp⟩
    | _ => cases hm

/-! ## The errors of each operation -/

/-- The error of a computation that goes on to succeed is its own. -/
theorem error_of_bind_ok {α β : Type} {x : Except Err α} {f : α → Except Err β} {e : Err}
    (hf : ∀ a, ∃ b, f a = .ok b) (h : (x >>= f) = .error e) : x = .error e := by
  rcases bind_eq_error h with hx | ⟨a, -, ha⟩
  · exact hx
  · obtain ⟨b, hb⟩ := hf a
    cases hb.symm.trans ha

theorem unpackSph_error {cfg : Cfg} {w : Word} {e : Err} (h : unpackSph cfg w = .error e) :
    e = .malformedSpecialHeader ∧ cfg.tolSphPad = false ∧ 2 ^ 9 ≤ w.toNat := by
  by_cases hok : cfg.tolSphPad = true ∨ w.toNat < 2 ^ 9
  · cases (unpackSph_ok hok).symm.trans h
  · obtain ⟨hstrict, hpad⟩ := not_or.1 hok
    have hstrict := Bool.eq_false_iff.2 hstrict
    have hpad := Nat.not_lt.1 hpad
    cases (unpackSph_malformed hstrict hpad).symm.trans h
    exact ⟨rfl, hstrict, hpad⟩

theorem body_error_listed {cfg : Cfg} {mem : Memory} {i : Instr} {e : Err} (hm : isMsgEnc i = false)
    (h : body cfg mem i = .error e) : e ∈ mayRaise i := by
  cases i with
  | hdrEnc => simp [mayRaise, packHdr_err (error_of_bind_ok (fun _ => ⟨_, rfl⟩) h)]
  | sphEnc => simp [mayRaise, packSph_err (error_of_bind_ok (fun _ => ⟨_, rfl⟩) h)]
  | inptrEnc =>
    rcases packInPtr_err (error_of_bind_ok (fun _ => ⟨_, rfl⟩) h) with rfl | rfl <;> simp [mayRaise]
  | mapaEnc =>
    rcases packMapAlias_err (error_of_bind_ok (fun _ => ⟨_, rfl⟩) h) with rfl | rfl <;> simp [mayRaise]
  | outptrEnc =>
    rcases packOutPtr_err (error_of_bind_ok (fun _ => ⟨_, rfl⟩) h) with rfl | rfl <;> simp [mayRaise]
  | layout =>
    rcases layoutRecord_err (error_of_bind_ok (fun _ => ⟨_, rfl⟩) h) with rfl | rfl <;> simp [mayRaise]
  | sphDec => simp [mayRaise, unpackSph_error (error_of_bind_ok (fun _ => ⟨_, rfl⟩) h)]
  | msgDec => rcases decodeMessage_err h with rfl | ⟨rfl, -⟩ <;> simp [mayRaise]
  | hdrDec | inptrDec | mapaDec | outptrDec => cases h
  | unassigned7 | unassignedD | unassignedF =>
    cases h
    exact List.mem_cons_self
  | msgEnc => cases hm

theorem revisionMismatch_listed {i : Instr} (ha : Assigned i = true) : .revisionMismatch ∈ mayRaise i := by
  cases i with
  | unassigned7 | unassignedD | unassignedF => cases ha
  | _ => exact List.mem_cons_self

theorem badRequest_listed {i : Instr} (ha : Assigned i = false) : .badRequest ∈ mayRaise i := by
  cases i with
  | unassigned7 | unassignedD | unassignedF => exact List.mem_cons_self
  | _ => cases ha

/-- Settles O32: the errors of the body (`body_error_listed`) and of MSG.ENC's walk (`encodeMessage_err`), and the two
checks before them. -/
theorem operationsRaiseOnlyTheirListedErrors : Obligations.OperationsRaiseOnlyTheirListedErrors := by
  intro s t i e h he
  rcases exec_next h with
    ⟨r, -, -, -, -, rfl⟩ | ⟨e', hm, rfl, hwhy⟩ | ⟨m, cap, w, -, -, rfl⟩ | ⟨rev, m, cap, e', rfl, rfl, hwhy⟩
  · cases he
  · cases he
    rcases hwhy with ⟨-, hbody⟩ | ⟨ha, -, rfl⟩ | ⟨ha, rfl⟩
    · exact body_error_listed hm hbody
    · exact revisionMismatch_listed ha
    · exact badRequest_listed ha
  · cases he
  · cases he
    rcases hwhy with ⟨-, hwalk⟩ | ⟨-, rfl⟩
    · rcases encodeMessage_err hwalk with rfl | rfl | rfl <;> simp [mayRaise]
    · exact revisionMismatch_listed rfl

/-- Settles O33: an error return leaves the buffer, MSG.ENC's havoc stops below `cap` (`readByte_havoc_ne`). -/
theorem errorReturnsChangeNothingElse : Obligations.ErrorReturnsChangeNothingElse := by
  intro s t i e h he
  rcases exec_next h with
    ⟨r, -, -, -, -, rfl⟩ | ⟨e', -, rfl, -⟩ | ⟨m, cap, w, -, -, rfl⟩ | ⟨rev, m, cap, e', rfl, rfl, -⟩
  · cases he
  · exact ⟨rfl, rfl, fun _ _ => rfl⟩
  · cases he
  · exact ⟨rfl, rfl, fun a ha => Memory.readByte_havoc_ne s.mem s.draws (ha rev m cap rfl)⟩

end Sys2Proof.Machine
end

section
/-! SUPPORT. The step (00_scope.md R14): what it answers to each input, the cases of a step that answers, and from them
what every step keeps and when a step stops. -/

namespace Sys2Proof.Machine

/-! ## The answer to each input -/

section Answers
variable {s : State} {rest : List Input}

theorem step_idle (h : s.inbox = []) : step s = .next s := by simp only [step, h]

theorem step_request {r : Request} (h : s.inbox = .request r :: rest) :
    step s = exec (decode r) (s.withInbox rest) := by simp only [step, h]

theorem step_sharedRequest {r : Request} {other : Sharer} (h : s.inbox = .sharedRequest r other :: rest) :
    step s = if sharingForbidden (decode r) other then .refused .bufferShared
      else exec (decode r) (s.withInbox rest) := by simp only [step, h]

theorem step_bufWrite {pos : Nat} {w : Word} (h : s.inbox = .bufWrite pos w :: rest) :
    step s = environmentWrite pos w (s.withInbox rest) := by simp only [step, h]

theorem step_reset {rev : Revision} {tol : Bool} (h : s.inbox = .reset rev tol :: rest) :
    step s = .next ((s.withInbox rest).applyReset rev tol) := by simp only [step, h]

theorem step_resetDuring {r : Request} {rev : Revision} {tol : Bool} (h : s.inbox = .resetDuring r rev tol :: rest) :
    step s = .next (resetCuttingShort (decode r) rev tol (s.withInbox rest)) := by simp only [step, h]

end Answers

theorem environmentWrite_word {pos : Nat} (h : pos < 2 ^ 32 - 1) (w : Word) (s : State) :
    environmentWrite pos w s = .next (s.setMem (s.mem.writeWord pos w)) :=
  if_pos (decide_eq_true h)

theorem environmentWrite_noWord {pos : Nat} (h : 2 ^ 32 - 1 ≤ pos) (w : Word) (s : State) :
    environmentWrite pos w s = .fault .noSuchWord :=
  if_neg (by simpa [isWordPos] using h)

theorem resetCuttingShort_of_not_msgEnc {i : Instr} (h : isMsgEnc i = false) (rev : Revision) (tol : Bool) (s : State) :
    resetCuttingShort i rev tol s = s.applyReset rev tol := by
  cases i with
  | msgEnc => cases h
  | _ => rfl

/-- The launches that sharing forbids, by the `op` of the request. -/
theorem sharingForbidden_iff (r : Request) (other : Sharer) :
    sharingForbidden (decode r) other = true ↔ r.op = 0x6#4 ∨ (r.op = 0xE#4 ∧ other ≠ .reader) := by
  rw [← decode_opcode]
  cases decode r with
  | msgDec => cases other <;> simp [sharingForbidden, Instr.opcode]
  | _ => simp [sharingForbidden, Instr.opcode]

/-! ## The cases of a step that answers -/

/-- The ways a step from `s` gives its next state, one for each kind of input. -/
inductive StepTo (s : State) : State → Prop
  | idle (hin : s.inbox = []) : StepTo s s
  | run {r : Request} {rest : List Input} {t : State} (h : exec (decode r) (s.withInbox rest) = .next t)
      (hin : s.inbox = .request r :: rest ∨
        ∃ other, s.inbox = .sharedRequest r other :: rest ∧ sharingForbidden (decode r) other = false) : StepTo s t
  | write {pos : Nat} {w : Word} {rest : List Input} (hpos : pos < 2 ^ 32 - 1)
      (hin : s.inbox = .bufWrite pos w :: rest) :
      StepTo s ((s.withInbox rest).setMem (s.mem.writeWord pos w))
  | reset {rev : Revision} {tol : Bool} {rest : List Input} (hin : s.inbox = .reset rev tol :: rest) :
      StepTo s ((s.withInbox rest).applyReset rev tol)
  | resetDuring {r : Request} {rev : Revision} {tol : Bool} {rest : List Input}
      (hin : s.inbox = .resetDuring r rev tol :: rest) :
      StepTo s (resetCuttingShort (decode r) rev tol (s.withInbox rest))

theorem step_next {s t : State} (h : step s = .next t) : StepTo s t := by
  cases hin : s.inbox with
  | nil =>
    cases (step_idle hin).symm.trans h
    exact .idle hin
  | cons input rest =>
    cases input with
    | request r => exact .run ((step_request hin).symm.trans h) (.inl hin)
    | sharedRequest r other =>
      rw [step_sharedRequest hin] at h
      split at h
      · cases h
      · next hallowed => exact .run h (.inr ⟨other, hin, Bool.eq_false_iff.2 hallowed⟩)
    | bufWrite pos w =>
      rw [step_bufWrite hin] at h
      rcases Nat.lt_or_ge pos (2 ^ 32 - 1) with hpos | hpos
      · cases (environmentWrite_word hpos w _).symm.trans h
        exact .write hpos hin
      · cases (environmentWrite_noWord hpos w _).symm.trans h
    | reset rev tol =>
      cases (step_reset hin).symm.trans h
      exact .reset hin
    | resetDuring r rev tol =>
      cases (step_resetDuring hin).symm.trans h
      exact .resetDuring hin

/-! ## The invariant -/

theorem withInbox_inv {s : State} (hs : s.Inv) (q : List Input) : (s.withInbox q).Inv := hs

theorem inv_writeWords {m : Memory} (h : m.wf = true ∧ m.inSpace = true) {ws : List Word}
    (hlen : ws.length ≤ 2 ^ 32 - 1) : (m.writeWords 0 ws).wf = true ∧ (m.writeWords 0 ws).inSpace = true :=
  ⟨Memory.wf_writeWords h.1 0 ws, Memory.inSpace_writeWords h.2 (by omega)⟩

theorem inv_havoc {m : Memory} (h : m.wf = true ∧ m.inSpace = true) (draw : Nat) {cap : Nat}
    (hcap : cap ≤ 2 ^ 32 - 1) : (m.havoc draw cap).wf = true ∧ (m.havoc draw cap).inSpace = true :=
  ⟨Memory.wf_havoc h.1 draw cap, Memory.inSpace_havoc h.2 draw hcap⟩

/-- The `cap` port is 32 bits wide, so MSG.ENC's room is room that a buffer can have. -/
theorem cap_le_of_wellFormed {rev : Revision} {m : Message} {cap : Nat}
    (h : (Instr.msgEnc rev m cap).wellFormed = true) : cap ≤ 2 ^ 32 - 1 := by
  have hcap : onPort32 cap = true := (Bool.and_eq_true_iff.1 h).2
  exact Nat.le_sub_one_of_lt (of_decide_eq_true hcap)

/-- An operation that can be presented keeps the invariant: MSG.ENC writes below `cap` only. -/
theorem exec_inv {i : Instr} {s t : State} (hi : i.wellFormed = true) (hs : s.Inv) (h : exec i s = .next t) :
    t.Inv := by
  rcases exec_next h with
    ⟨r, -, -, -, -, rfl⟩ | ⟨e, -, rfl, -⟩ | ⟨m, cap, w, rfl, hw, rfl⟩ | ⟨rev, m, cap, e, rfl, rfl, -⟩
  · exact hs
  · exact hs
  · obtain ⟨-, htotal, rfl⟩ := encodeMessage_ok hw
    exact inv_writeWords hs ((messageWords_length s.cfg m).trans_le (htotal.trans (cap_le_of_wellFormed hi)))
  · exact inv_havoc hs s.draws (cap_le_of_wellFormed hi)

theorem resetCuttingShort_inv {i : Instr} {s : State} (hi : i.wellFormed = true) (hs : s.Inv) (rev : Revision)
    (tol : Bool) : (resetCuttingShort i rev tol s).Inv := by
  cases i with
  | msgEnc => exact inv_havoc hs s.draws (cap_le_of_wellFormed hi)
  | _ => exact hs

/-- Settles O50, by the cases of a step; the operation that a request decodes to can be presented. -/
theorem stepKeepsTheInvariant : Obligations.StepKeepsTheInvariant := by
  intro s t hs h
  cases step_next h with
  | idle => exact hs
  | run hexec => exact exec_inv (decode_wellFormed _) (withInbox_inv hs _) hexec
  | write hpos => exact ⟨Memory.wf_writeWord hs.1 _ _, Memory.inSpace_writeWord hs.2 hpos _⟩
  | reset => exact hs
  | resetDuring => exact resetCuttingShort_inv (decode_wellFormed _) (withInbox_inv hs _) _ _

/-- Settles O51: the buffer after reset lists nothing. -/
theorem resetMeetsTheInvariant : Obligations.ResetMeetsTheInvariant :=
  ⟨fun _ _ => ⟨⟨Memory.wf_nil, rfl⟩, rfl, rfl, rfl, rfl⟩, rfl⟩

/-! ## The configuration -/

theorem sameFunctions_refl (c : Cfg) : SameFunctions c c := ⟨rfl, rfl, rfl⟩

theorem sameFunctions_of_eq {c d : Cfg} (h : c = d) : SameFunctions c d := h ▸ sameFunctions_refl c

theorem resetCuttingShort_functions (i : Instr) (rev : Revision) (tol : Bool) (s : State) :
    SameFunctions (resetCuttingShort i rev tol s).cfg s.cfg := by
  cases i <;> exact ⟨rfl, rfl, rfl⟩

/-- Settles O49, by the cases of a step. -/
theorem onlyResetChangesTheConfiguration : Obligations.OnlyResetChangesTheConfiguration := by
  intro s t h
  cases step_next h with
  | idle => exact ⟨sameFunctions_refl _, fun _ _ => rfl⟩
  | run hexec =>
    have hcfg : t.cfg = s.cfg := (exec_cfg hexec).trans (withInbox_cfg s _)
    exact ⟨sameFunctions_of_eq hcfg, fun _ _ => hcfg⟩
  | write => exact ⟨sameFunctions_refl _, fun _ _ => rfl⟩
  | reset hin => exact ⟨⟨rfl, rfl, rfl⟩, fun hno _ => absurd hin (hno _ _ _)⟩
  | resetDuring hin => exact ⟨resetCuttingShort_functions _ _ _ _, fun _ hno => absurd hin (hno _ _ _ _)⟩

/-! ## The single kinds of step -/

/-- Settles O44: `step_idle`. -/
theorem idleStepChangesNothing : Obligations.IdleStepChangesNothing := fun _ => step_idle

/-- Settles O43: `step_request`, with `decode_encode` for an encoded operation. -/
theorem stepRunsTheRequestedOperation : Obligations.StepRunsTheRequestedOperation := by
  refine ⟨fun s r rest => step_request, fun s i rest hi hin => ?encoded, fun s nbits w i hw => ?tableWord⟩
  case encoded => rw [step_request hin, decode_encode hi]
  case tableWord =>
    unfold decodeTableWord at hw
    split at hw
    · cases hw
    · next hbits =>
      cases hw
      rw [State.withFetchWord, if_neg hbits]
      exact step_request rfl

/-- Settles O45: `environmentWrite_word` for a position that a buffer can have, `environmentWrite_noWord` else. -/
theorem environmentWritesOneWord : Obligations.EnvironmentWritesOneWord := by
  intro s pos w rest hwf hin
  rw [step_bufWrite hin]
  refine ⟨fun hpos => ⟨_, environmentWrite_word hpos w _, Memory.readWord_writeWord_same hwf pos w, ?frame⟩,
    fun hpos => environmentWrite_noWord hpos w _⟩
  case frame => exact fun a ha => Memory.readByte_writeWord_ne _ w ha

/-- Where MSG.ENC's `cap` comes from: the port of the request. -/
theorem cap_of_decode_msgEnc {r : Request} {rev : Revision} {m : Message} {cap : Nat}
    (h : decode r = .msgEnc rev m cap) : cap = r.cap.toNat := by
  have hop : r.op = 0x6#4 := by rw [← decode_opcode, h]; rfl
  have hdecode : decode r = .msgEnc (.ofBit r.rev) r.msg.fields r.cap.toNat := by simp [decode, hop]
  cases hdecode.symm.trans h
  rfl

/-- Settles O46: `step_reset` and `step_resetDuring`; MSG.ENC's havoc stops below `cap`. -/
theorem resetLoadsTheStraps : Obligations.ResetLoadsTheStraps := by
  refine ⟨fun s rev tol rest hin => ?reset, fun s r rev tol rest hin => ?during⟩
  case reset => exact ⟨_, step_reset hin, rfl, rfl, ⟨rfl, rfl, rfl⟩, rfl, rfl, rfl⟩
  case during =>
    refine ⟨_, step_resetDuring hin, ?_⟩
    cases hm : isMsgEnc (decode r) with
    | false =>
      rw [resetCuttingShort_of_not_msgEnc hm]
      exact ⟨rfl, rfl, ⟨rfl, rfl, rfl⟩, rfl, rfl, fun _ => rfl, fun _ _ => rfl⟩
    | true =>
      cases hi : decode r with
      | msgEnc rev' m cap =>
        obtain rfl := cap_of_decode_msgEnc hi
        exact ⟨rfl, rfl, ⟨rfl, rfl, rfl⟩, rfl, rfl, by simp, fun a ha => Memory.readByte_havoc_ne s.mem s.draws ha⟩
      | _ => simp [hi, isMsgEnc] at hm

/-! ## Sharing, and when a step stops -/

section Shared
variable {s : State} {r : Request} {other : Sharer} {rest : List Input} (hin : s.inbox = .sharedRequest r other :: rest)
include hin

theorem step_sharedRequest_forbidden (h : r.op = 0x6#4 ∨ (r.op = 0xE#4 ∧ other ≠ .reader)) :
    step s = .refused .bufferShared := by
  rw [step_sharedRequest hin, if_pos ((sharingForbidden_iff r other).2 h)]

theorem step_sharedRequest_allowed (h : ¬ (r.op = 0x6#4 ∨ (r.op = 0xE#4 ∧ other ≠ .reader))) :
    step s = exec (decode r) (s.withInbox rest) := by
  rw [step_sharedRequest hin, if_neg (mt (sharingForbidden_iff r other).1 h)]

end Shared

/-- Settles O47: `sharingForbidden_iff` decides each clause. -/
theorem sharedBufferLaunchIsRefused : Obligations.SharedBufferLaunchIsRefused := by
  intro s r other rest hin
  refine ⟨fun henc => ?enc, fun hdec hother => ?dec, fun hdec hother => ?reader, fun henc hdec => ?none⟩
  case enc => exact step_sharedRequest_forbidden hin (.inl henc)
  case dec =>
    refine step_sharedRequest_forbidden hin (.inr ⟨hdec, ?_⟩)
    rcases hother with rfl | rfl <;> decide
  case reader => exact step_sharedRequest_allowed hin (by simp [hdec, hother])
  case none => exact step_sharedRequest_allowed hin (by simp [henc, hdec])

theorem safeStep_of_exec {s u : State} {i : Instr} (h : step s = exec i u) : SafeStep s := by
  obtain ⟨t, ht, -⟩ := exec_answers u i
  exact ⟨t, h.trans ht⟩

/-- Settles O48: an operation always answers (`exec_answers`), and so does every other input but the two named. -/
theorem stepStopsOnlyOnForbiddenInputs : Obligations.StepStopsOnlyOnForbiddenInputs := by
  refine fun s => ⟨fun hstop => ?stops, ?only⟩
  case stops =>
    by_contra hno
    obtain ⟨hwrite, hshared⟩ := not_or.1 hno
    refine hstop ?_
    cases hin : s.inbox with
    | nil => exact ⟨_, step_idle hin⟩
    | cons input rest =>
      cases input with
      | request r => exact safeStep_of_exec (step_request hin)
      | sharedRequest r other =>
        exact safeStep_of_exec (step_sharedRequest_allowed hin fun h => hshared ⟨r, other, rest, hin, h⟩)
      | bufWrite pos w =>
        have hpos : pos < 2 ^ 32 - 1 := Nat.lt_of_not_le fun h => hwrite ⟨pos, w, rest, hin, h⟩
        exact ⟨_, (step_bufWrite hin).trans (environmentWrite_word hpos w _)⟩
      | reset rev tol => exact ⟨_, step_reset hin⟩
      | resetDuring r rev tol => exact ⟨_, step_resetDuring hin⟩
  case only =>
    rintro (⟨pos, w, rest, hin, hpos⟩ | ⟨r, other, rest, hin, h⟩) ⟨t, ht⟩
    · cases ((step_bufWrite hin).trans (environmentWrite_noWord hpos w _)).symm.trans ht
    · cases (step_sharedRequest_forbidden hin h).symm.trans ht

end Sys2Proof.Machine
end

section
/-! SUPPORT. 41_bitfield_encoder.md and 42_bitfield_decoder.md: split and join as inverse functions, the descriptors'
encode operations, HDR.DEC, and the two round trips of the word-form operations (R127). -/

namespace Sys2Proof.Machine

/-! ## Split and join -/

theorem three_parts_sum (a : Nat) : a % 2 ^ 32 + a / 2 ^ 32 % 2 ^ 4 * 2 ^ 32 + a / 2 ^ 36 * 2 ^ 36 = a := by omega

theorem two_fields {low : Nat} (hl : low < 2 ^ 32) (high : Nat) :
    (low + high * 2 ^ 32) % 2 ^ 32 = low ∧ (low + high * 2 ^ 32) / 2 ^ 32 = high := by omega

section Inverse
variable {a low mid high : Nat}

theorem join42_split42 (h : a < 2 ^ 42) : join42 (split42 a).1 (split42 a).2.1 (split42 a).2.2 = a := by
  rw [split42_of_lt h]
  exact (join42_eq (Nat.mod_lt _ (by decide)) (Nat.mod_lt _ (by decide)) _).trans (three_parts_sum a)

theorem split42_join42 (hl : low < 2 ^ 32) (hm : mid < 2 ^ 4) (hh : high < 2 ^ 6) :
    split42 (join42 low mid high) = (low, mid, high) := by
  obtain ⟨ehigh, emid, elow⟩ := three_fields hl hm high
  rw [split42_of_lt (join42_lt hl hm hh), join42_eq hl hm, ehigh, emid, elow]

theorem join58_split58 (h : a < 2 ^ 58) : join58 (split58 a).1 (split58 a).2.1 (split58 a).2.2 = a := by
  rw [split58_of_lt h]
  exact (join58_eq (Nat.mod_lt _ (by decide)) (Nat.mod_lt _ (by decide)) _).trans (three_parts_sum a)

theorem split58_join58 (hl : low < 2 ^ 32) (hm : mid < 2 ^ 4) (hh : high < 2 ^ 22) :
    split58 (join58 low mid high) = (low, mid, high) := by
  obtain ⟨ehigh, emid, elow⟩ := three_fields hl hm high
  rw [split58_of_lt (join58_lt hl hm hh), join58_eq hl hm, ehigh, emid, elow]

theorem join36_split36 (h : a < 2 ^ 36) : join36 (split36 a).1 (split36 a).2 = a := by
  rw [split36_of_lt h]
  exact (join36_eq (Nat.mod_lt _ (by decide)) _).trans (Nat.mod_add_div' a _)

theorem split36_join36 (hl : low < 2 ^ 32) (hh : high < 2 ^ 4) : split36 (join36 low high) = (low, high) := by
  obtain ⟨elow, ehigh⟩ := two_fields hl high
  rw [split36_of_lt (join36_lt hl hh), join36_eq hl, elow, ehigh]

theorem join48_split48 (h : a < 2 ^ 48) : join48 (split48 a).1 (split48 a).2 = a := by
  rw [split48_of_lt h]
  exact (join48_eq (Nat.mod_lt _ (by decide)) _).trans (Nat.mod_add_div' a _)

theorem split48_join48 (hl : low < 2 ^ 32) (hh : high < 2 ^ 16) : split48 (join48 low high) = (low, high) := by
  obtain ⟨elow, ehigh⟩ := two_fields hl high
  rw [split48_of_lt (join48_lt hl hh), join48_eq hl, elow, ehigh]

end Inverse

/-- Settles O2, one lemma for each width and direction. -/
theorem splitAndJoinAreInverse : Obligations.SplitAndJoinAreInverse :=
  ⟨fun _ => join42_split42, fun _ hl _ hm _ hh => split42_join42 hl hm hh,
    fun _ => join58_split58, fun _ hl _ hm _ hh => split58_join58 hl hm hh,
    fun _ => join36_split36, fun _ hl _ hh => split36_join36 hl hh,
    fun _ => join48_split48, fun _ hl _ hh => split48_join48 hl hh⟩

/-! ## The descriptors' encode operations -/

section Descriptors
variable (s : State)

theorem exec_inptrEnc_of_fits {d : InPtr} (h : d.Fits) :
    exec (.inptrEnc s.cfg.rev d) s
      = .next (s.respond (.inptrEnc (toWord (inPtrWord1 d)) (toWord (d.address % 2 ^ 32)))) :=
  exec_of_body_ok rfl rfl rfl (by rw [body, packInPtr_ok h, ok_bind])

theorem exec_mapaEnc_of_fits {d : MapAlias} (h : d.Fits) :
    exec (.mapaEnc s.cfg.rev d) s
      = .next (s.respond (.mapaEnc (toWord (d.size % 2 ^ 32)) (toWord (d.address % 2 ^ 32))
          (toWord (mapAliasWord3 d)))) :=
  exec_of_body_ok rfl rfl rfl (by rw [body, packMapAlias_ok h, ok_bind])

theorem exec_outptrEnc_of_fits {d : OutPtr} (h : d.Fits) :
    exec (.outptrEnc s.cfg.rev d) s
      = .next (s.respond (.outptrEnc (toWord (d.address % 2 ^ 32)) (toWord (outPtrWord2 d)))) :=
  exec_of_body_ok rfl rfl rfl (by rw [body, packOutPtr_ok h, ok_bind])

theorem inptrEnc_error {d : InPtr} {e : Err} (h : packInPtr d = .error e) :
    EndsInError (.inptrEnc s.cfg.rev d) e s :=
  endsInError_of_body rfl rfl rfl (by rw [body, h, error_bind])

theorem mapaEnc_error {d : MapAlias} {e : Err} (h : packMapAlias d = .error e) :
    EndsInError (.mapaEnc s.cfg.rev d) e s :=
  endsInError_of_body rfl rfl rfl (by rw [body, h, error_bind])

theorem outptrEnc_error {d : OutPtr} {e : Err} (h : packOutPtr d = .error e) :
    EndsInError (.outptrEnc s.cfg.rev d) e s :=
  endsInError_of_body rfl rfl rfl (by rw [body, h, error_bind])

end Descriptors

/-- The low half of a long field is in range of a word. -/
theorem toWord_mod_toNat (v : Nat) : (toWord (v % 2 ^ 32)).toNat = v % 2 ^ 32 :=
  toWord_toNat (Nat.mod_lt v (by decide))

/-- Settles O5: `packInPtr_ok` and its two errors, by INPTR.ENC. -/
theorem inptrEncPacksTheDescriptor : Obligations.InptrEncPacksTheDescriptor := by
  refine fun s d => ⟨fun h => ?fits, fun ha => ?address, fun ha h => ?field⟩
  case fits => exact ⟨_, _, exec_inptrEnc_of_fits s h, toWord_toNat (inPtrWord1_lt h), toWord_mod_toNat _⟩
  case address => exact inptrEnc_error s (packInPtr_addressOutOfRange ha)
  case field => exact inptrEnc_error s (packInPtr_fieldOverflow ha fun hrest => h ⟨ha, hrest⟩)

/-- Settles O6: `packMapAlias_ok` and its two errors, by MAPA.ENC. -/
theorem mapaEncPacksTheDescriptor : Obligations.MapaEncPacksTheDescriptor := by
  refine fun s d => ⟨fun h => ?fits, fun ha => ?address, fun ha h => ?field⟩
  case fits =>
    exact ⟨_, _, _, exec_mapaEnc_of_fits s h, toWord_mod_toNat _, toWord_mod_toNat _,
      toWord_toNat (mapAliasWord3_lt h)⟩
  case address => exact mapaEnc_error s (packMapAlias_addressOutOfRange ha)
  case field => exact mapaEnc_error s (packMapAlias_fieldOverflow ha fun hrest => h ⟨ha, hrest⟩)

/-- Settles O7: `packOutPtr_ok` and its two errors, by OUTPTR.ENC. -/
theorem outptrEncPacksTheDescriptor : Obligations.OutptrEncPacksTheDescriptor := by
  refine fun s d => ⟨fun h => ?fits, fun ha => ?address, fun ha h => ?field⟩
  case fits => exact ⟨_, _, exec_outptrEnc_of_fits s h, toWord_mod_toNat _, toWord_toNat (outPtrWord2_lt h)⟩
  case address => exact outptrEnc_error s (packOutPtr_addressOutOfRange ha)
  case field => exact outptrEnc_error s (packOutPtr_fieldOverflow ha (Nat.not_lt.1 fun hsize => h ⟨ha, hsize⟩))

/-! ## HDR.DEC -/

theorem exec_hdrDec (s : State) (w1 w2 : Word) :
    exec (.hdrDec s.cfg.rev w1 w2) s = .next (s.respond (.hdrDec (unpackHdr w1 w2))) :=
  exec_of_body_ok rfl rfl rfl rfl

/-- Settles O8: `unpackHdr_eq`; a 32-bit word has nothing above its top field, so the slice cuts nothing off. -/
theorem hdrDecUnpacksTheHeader : Obligations.HdrDecUnpacksTheHeader := by
  intro s w1 w2
  have hcountD : w1.toNat / 2 ^ 28 % 16 = w1.toNat / 2 ^ 28 := topField_eq_div (n := 4) w1.isLt
  have hbit : w2.toNat / 2 ^ 31 % 2 = 1 ↔ 2 ^ 31 ≤ w2.toNat := by have := w2.isLt; omega
  rw [exec_hdrDec, unpackHdr_eq]
  simp only [hbit, hcountD]
  rfl

/-! ## Round trips of the word-form operations -/

/-- An encode that answered words, and the decode of those words. -/
theorem roundTrip_of_decodeOf {i j : Instr} {s : State} {r : Results} (hi : exec i s = .next (s.respond r))
    (hj : decodeOf i ⟨.ok, r⟩ = some j) : roundTrip i s = exec j (s.respond r) := by
  have hrsp : (s.respond r).rsp.bind (decodeOf i) = some j := hj
  simp only [roundTrip, hi, hrsp]

/-- Settles O13: each decode reads the words its encode returned, and `unpack…_pack` gives the operands back. -/
theorem wordFormRoundTripReturnsTheOperands : Obligations.WordFormRoundTripReturnsTheOperands := by
  refine fun s => ⟨fun f h => ?hdr, fun f h => ?sph, fun d h => ?inptr, fun d h => ?mapa, fun d h => ?outptr⟩
  case hdr =>
    rw [roundTrip_of_decodeOf (exec_hdrEnc_of_fits h s) rfl]
    refine (exec_hdrDec (s.respond _) _ _).trans ?_
    rw [unpackHdr_pack h]
    rfl
  case sph =>
    rw [roundTrip_of_decodeOf (exec_sphEnc_of_fits h s) rfl]
    exact exec_sphDec_of_unpacked (s := s.respond _) (unpackSph_pack h s.cfg)
  case inptr =>
    rw [roundTrip_of_decodeOf (exec_inptrEnc_of_fits s h) rfl]
    refine (exec_inptrDec (s.respond _) _ _).trans ?_
    rw [unpackInPtr_pack h]
    rfl
  case mapa =>
    rw [roundTrip_of_decodeOf (exec_mapaEnc_of_fits s h) rfl]
    refine (exec_mapaDec (s.respond _) _ _ _).trans ?_
    rw [unpackMapAlias_pack h]
    rfl
  case outptr =>
    rw [roundTrip_of_decodeOf (exec_outptrEnc_of_fits s h) rfl]
    refine (exec_outptrDec (s.respond _) _ _).trans ?_
    rw [unpackOutPtr_pack h]
    rfl

/-- Settles O14: unpacked fields fit (`unpack…_fits`), so the encode answers; `packed_unpack…` says with which words. -/
theorem packingUnpackedWordsGivesThemBack : Obligations.PackingUnpackedWordsGivesThemBack := by
  refine fun s => ⟨fun w1 w2 => ?hdr, fun w f h => ?sph, fun w1 w2 => ?inptr, fun w1 w2 w3 => ?mapa,
    fun w1 w2 => ?outptr⟩
  case hdr =>
    obtain ⟨h1, h2⟩ := packed_unpackHdr w1 w2
    refine ⟨_, (exec_hdrEnc_of_fits (unpackHdr_fits w1 w2) s).trans ?_, h2⟩
    rw [h1]
    rfl
  case sph => exact ⟨_, exec_sphEnc_of_fits (unpackSph_fits h) s, packed_unpackSph h⟩
  case inptr =>
    obtain ⟨h1, h2⟩ := packed_unpackInPtr w1 w2
    rw [exec_inptrEnc_of_fits s (unpackInPtr_fits w1 w2), h1, h2]
    rfl
  case mapa =>
    obtain ⟨h1, h2, h3⟩ := packed_unpackMapAlias w1 w2 w3
    rw [exec_mapaEnc_of_fits s (unpackMapAlias_fits w1 w2 w3), h1, h2, h3]
    rfl
  case outptr =>
    obtain ⟨h1, h2⟩ := packed_unpackOutPtr w1 w2
    rw [exec_outptrEnc_of_fits s (unpackOutPtr_fits w1 w2), h1, h2]
    rfl

end Sys2Proof.Machine
end

section
/-! SUPPORT. LAYOUT (43_offset_calculator.md sections 1 and 2) from the two lemmas about `layoutRecord`, and the bounds
of the total (R158). -/

namespace Sys2Proof.Machine

/-! ## The operation -/

section Layout
variable {s : State} {c : Counts} {f : SphFields} {cap : Nat}

theorem exec_layout_of_fits (hc : c.Fits) (hf : c.hasSpecialHeader = true → f.Fits)
    (ht : (offsets s.cfg c f).total ≤ cap) :
    exec (.layout s.cfg.rev c f cap) s = .next (s.respond (.layout (offsets s.cfg c f))) :=
  exec_of_body_ok rfl rfl rfl (by rw [body, layoutRecord_fits cap hc hf, if_pos ht, ok_bind])

theorem layout_fieldOverflow (h : ¬ (c.Fits ∧ (c.hasSpecialHeader = true → f.Fits))) :
    EndsInError (.layout s.cfg.rev c f cap) .fieldOverflow s :=
  endsInError_of_body rfl rfl rfl (by rw [body, layoutRecord_overflow cap h, error_bind])

theorem layout_bufferTooSmall (hc : c.Fits) (hf : c.hasSpecialHeader = true → f.Fits)
    (ht : cap < (offsets s.cfg c f).total) : EndsInError (.layout s.cfg.rev c f cap) .bufferTooSmall s :=
  endsInError_of_body rfl rfl rfl (by
    rw [body, layoutRecord_fits cap hc hf, if_neg (Nat.not_le.2 ht), error_bind])

theorem layoutRecord_noSpecial (h : c.hasSpecialHeader = false) (cfg : Cfg) (f g : SphFields) (cap : Nat) :
    layoutRecord cfg c f cap = layoutRecord cfg c g cap := by
  simp only [layoutRecord, h, Bool.false_and, offsets_noSpecial h cfg f g]

end Layout

/-! ## The record -/

/-- Section 2 from its word on: the pid word, the copy handles and the move handles follow one another. -/
theorem offsets_special (cfg : Cfg) (c : Counts) (f : SphFields) :
    (offsets cfg c f).offCopy = (if c.hasSpecialHeader then 3 + f.sendPid.toNat else 2)
    ∧ (offsets cfg c f).offMove = (offsets cfg c f).offCopy + (if c.hasSpecialHeader then f.numCopyHandles else 0)
    ∧ (offsets cfg c f).offInptr
        = (offsets cfg c f).offMove + (if c.hasSpecialHeader then f.numMoveHandles else 0) := by
  cases h : c.hasSpecialHeader with
  | false => simp [offsets, h, sphLen]
  | true =>
    simp only [offsets, h, sphLen, Bool.toNat_true, if_true, Nat.one_mul]
    exact ⟨by omega, trivial, by omega⟩

/-- The last of the four descriptor sections ends where the data section's padding begins. -/
theorem offsets_prepad (cfg : Cfg) (c : Counts) (f : SphFields) :
    (offsets cfg c f).offPrepad = (offsets cfg c f).offInoutmap + 3 * c.countD := by
  simp only [offsets]
  ring

/-- Settles O15: LAYOUT answers the offset record; its entries follow one another by definition, but in section 2 and
at the first padding, where `offsets_special` and `offsets_prepad` say so. -/
theorem layoutReturnsTheOffsets : Obligations.LayoutReturnsTheOffsets := by
  intro s c f cap hc hf ht
  obtain ⟨hcopy, hmove, hinptr⟩ := offsets_special s.cfg c f
  exact ⟨offsets s.cfg c f, exec_layout_of_fits hc hf ht, rfl, rfl, rfl, hcopy, hmove, hinptr, rfl, rfl, rfl,
    offsets_prepad s.cfg c f, rfl, rfl, rfl, rfl, rfl⟩

/-- Settles O16: the checks of LAYOUT in their order; without a special header none of them reads `f`. -/
theorem layoutErrors : Obligations.LayoutErrors := by
  refine fun s c f cap => ⟨fun hc => ?counts, fun hs hf => ?handles, layout_bufferTooSmall, fun hs g => ?absent⟩
  case counts => exact layout_fieldOverflow fun h => hc h.1
  case handles => exact layout_fieldOverflow fun h => hf (h.2 hs)
  case absent =>
    rw [exec_of_assigned rfl rfl, exec_of_assigned rfl rfl, body, body, layoutRecord_noSpecial hs s.cfg f g cap]
    rfl

/-! ## The bounds of the total -/

theorem offsets_total (cfg : Cfg) (c : Counts) (f : SphFields) :
    (offsets cfg c f).total
      = 2 + sphLen c.hasSpecialHeader f + 2 * c.countA + 3 * (c.countB + c.countC + c.countD)
        + prePad cfg c.mode (offsets cfg c f).offPrepad + c.numDataWords
        + postPad cfg c.mode (offsets cfg c f).offPostpad + 2 * outCnt cfg c.mode := rfl

theorem prePad_ref (rev : Revision) (tol : Bool) (mode pos : Nat) : prePad (Config.ref rev tol) mode pos = 0 :=
  ite_self 0

theorem postPad_ref (rev : Revision) (tol : Bool) (mode pos : Nat) : postPad (Config.ref rev tol) mode pos = 0 :=
  ite_self 0

theorem outCnt_ref_le (rev : Revision) (tol : Bool) {mode : Nat} (h : mode < 16) :
    outCnt (Config.ref rev tol) mode ≤ 13 := by
  interval_cases mode <;> simp [outCnt, Config.ref]

theorem total_bounds (cfg : Cfg) {c : Counts} {f : SphFields} (hc : c.Fits) (hf : c.hasSpecialHeader = true → f.Fits) :
    2 ≤ (offsets cfg c f).total ∧ (offsets cfg c f).total ≤ 1282 := by
  have hsph := sphLen_le hf
  have hpre := prePad_lt cfg c.mode (offsets cfg c f).offPrepad
  have hpost := postPad_lt cfg c.mode (offsets cfg c f).offPostpad
  have hout := outCnt_lt cfg c.mode
  rw [offsets_total]
  omega

theorem total_ref_le (rev : Revision) (tol : Bool) {c : Counts} {f : SphFields} (hc : c.Fits)
    (hf : c.hasSpecialHeader = true → f.Fits) : (offsets (Config.ref rev tol) c f).total ≤ 1248 := by
  have hsph := sphLen_le hf
  obtain ⟨hA, hB, hC, hD, hdata, hmode⟩ := hc
  have hout := outCnt_ref_le rev tol hmode
  rw [offsets_total, prePad_ref, postPad_ref]
  omega

/-- Settles O17: each summand of `offsets_total` at its bound. -/
theorem totalIsBounded : Obligations.TotalIsBounded :=
  ⟨fun cfg _ _ => total_bounds cfg, fun rev tol _ _ => total_ref_le rev tol, fun _ _ => ⟨rfl, rfl⟩⟩

end Sys2Proof.Machine
end

section
/-! SUPPORT. MSG.ENC (43_offset_calculator.md section 3): its answer to a message that fits, the buffer it leaves, and
what its success and its errors say. -/

namespace Sys2Proof.Machine

/-! ## The answer -/

/-- The state after MSG.ENC of a message that fits: its words from word 0 on, and its total. -/
def encoded (s : State) (m : Message) : State :=
  (s.setMem (s.mem.writeWords 0 (messageWords s.cfg m))).respond (.msgEnc (messageOffsets s.cfg m).total)

section Encoded
variable (s : State) (m : Message)

@[simp] theorem encoded_mem : (encoded s m).mem = s.mem.writeWords 0 (messageWords s.cfg m) := by
  rw [encoded, respond_mem, setMem_mem]

@[simp] theorem encoded_rsp : (encoded s m).rsp = some ⟨.ok, .msgEnc (messageOffsets s.cfg m).total⟩ := by
  rw [encoded, respond_rsp]

@[simp] theorem encoded_cfg : (encoded s m).cfg = s.cfg := by rw [encoded, respond_cfg, setMem_cfg]

@[simp] theorem encoded_inbox : (encoded s m).inbox = s.inbox := by rw [encoded, respond_inbox, setMem_inbox]

@[simp] theorem encoded_draws : (encoded s m).draws = s.draws := by rw [encoded, respond_draws, setMem_draws]

end Encoded

theorem exec_msgEnc_of_fits {s : State} {m : Message} {cap : Nat} (hm : MessageFits s.cfg m)
    (ht : (messageOffsets s.cfg m).total ≤ cap) :
    exec (.msgEnc s.cfg.rev m cap) s = .next (encoded s m) :=
  (execMsgEnc_of_fits hm cap).trans (if_pos ht)

/-- Words at or beyond the total are not written (R51, D18). -/
theorem readByte_encoded {s : State} {m : Message} {a : Nat} (h : 4 * (messageOffsets s.cfg m).total ≤ a) :
    (encoded s m).mem.readByte a = s.mem.readByte a := by
  rw [encoded_mem, Memory.readByte_writeWords_ne]
  rw [messageWords_length, Nat.zero_add]
  exact .inr h

/-- A walk that ends in an error is the operation's error return (R51, R176). -/
theorem encodeEndsInError_of_walk {s : State} {m : Message} {cap : Nat} {e : Err}
    (h : encodeMessage s.cfg m cap s.mem = .error e) : EncodeEndsInError s.cfg.rev m cap e s :=
  ⟨_, execMsgEnc_error h, encodeErrorReturn_status .., rfl, rfl, fun _ ha => Memory.readByte_havoc_ne s.mem s.draws ha⟩

theorem msgEnc_bufferTooSmall {s : State} {m : Message} {cap : Nat} (hm : MessageFits s.cfg m)
    (ht : cap < (messageOffsets s.cfg m).total) : EncodeEndsInError s.cfg.rev m cap .bufferTooSmall s :=
  encodeEndsInError_of_walk ((encodeMessage_of_fits hm cap s.mem).trans (if_neg (Nat.not_le.2 ht)))

/-- What the status OK says of a MSG.ENC. -/
theorem msgEnc_status_ok {s t : State} {rev : Revision} {m : Message} {cap : Nat}
    (h : exec (.msgEnc rev m cap) s = .next t) (hok : t.status = some .ok) :
    rev = s.cfg.rev ∧ MessageFits s.cfg m ∧ (messageOffsets s.cfg m).total ≤ cap := by
  rcases execMsgEnc_cases rev m cap s with ⟨w, hrev, hw, hs⟩ | ⟨e, -, -, hs⟩ | ⟨-, hs⟩
  · obtain ⟨hfits, htotal, -⟩ := encodeMessage_ok hw
    exact ⟨hrev, hfits, htotal⟩
  · cases hs.symm.trans h
    cases hok
  · cases hs.symm.trans h
    cases hok

/-- Settles O18: `exec_msgEnc_of_fits`; words at or beyond the total are not written. -/
theorem msgEncCompletes : Obligations.MsgEncCompletes :=
  fun s m _ hm ht => ⟨encoded s m, exec_msgEnc_of_fits hm ht, encoded_rsp s m, encoded_cfg s m, encoded_inbox s m,
    encoded_draws s m, fun _ => readByte_encoded⟩

/-- Settles O22: `msgEnc_status_ok`. -/
theorem msgEncSucceedsOnlyWhenEverythingFits : Obligations.MsgEncSucceedsOnlyWhenEverythingFits :=
  fun _ _ _ _ _ => msgEnc_status_ok

/-- Settles O21: both operations compare the one total with `cap`. -/
theorem msgEncAndLayoutAgree : Obligations.MsgEncAndLayoutAgree := by
  intro s m cap hm
  have ⟨⟨_, hcounts⟩, hsph, _⟩ := hm
  refine ⟨fun ht => ?room, fun ht => ⟨msgEnc_bufferTooSmall hm ht, layout_bufferTooSmall hcounts hsph ht⟩⟩
  case room =>
    exact ⟨_, _, _, exec_msgEnc_of_fits hm ht, exec_layout_of_fits hcounts hsph ht, respond_rsp .., encoded_rsp s m⟩

/-! ## The buffer that MSG.ENC leaves -/

/-- Settles O19: `written_hdr`, `written_sph`, `written_pid`, `written_copy` and `written_move`. -/
theorem msgEncWritesHeaderAndSpecialHeader : Obligations.MsgEncWritesHeaderAndSpecialHeader := by
  intro s m cap hwf hm ht
  have ⟨hhdr, hsph, _⟩ := hm
  obtain ⟨hword1, hword2⟩ := written_hdr (cfg := s.cfg) (m := m) hwf
  refine ⟨encoded s m, exec_msgEnc_of_fits hm ht, ?_⟩
  rw [encoded_mem, hword1, hword2]
  refine ⟨toWord_toNat (hdrWord1_lt hhdr), toWord_toNat (hdrWord2_lt hhdr.2),
    fun hs => ⟨?sphWord, ?pid, ?copy, ?move⟩⟩
  case sphWord => rw [written_sph hwf hs]; exact toWord_sphWord_toNat (hsph hs)
  case pid => exact fun hp => written_pid hwf hs hp
  case copy => exact fun _ hi => written_copy hwf hs hi
  case move => exact fun _ hi => written_move hwf hs hi

/-- A word holds the low 32 bits of a number, however they are cut. -/
theorem toWord_mod (v : Nat) : toWord (v % 2 ^ 32) = BitVec.ofNat 32 v :=
  BitVec.eq_of_toNat_eq (by rw [toWord_mod_toNat, BitVec.toNat_ofNat])

/-- Settles O20: the `written_…` lemma of each section. -/
theorem msgEncWritesDescriptorsAndData : Obligations.MsgEncWritesDescriptorsAndData := by
  intro s m cap hwf hm ht
  refine ⟨encoded s m, exec_msgEnc_of_fits hm ht, ?_⟩
  rw [encoded_mem]
  refine ⟨fun i hi => ?inptr, fun group n off hg i hi => ?mapAlias, ?prepad, fun i hi => written_data hwf hi, ?postpad,
    fun i hi => ?outptr⟩
  case inptr =>
    obtain ⟨h1, h2⟩ := written_inptr (cfg := s.cfg) hwf hi
    exact ⟨h1, h2.trans (toWord_mod _)⟩
  case mapAlias =>
    have hsection : ∃ pre post, messageWords s.cfg m = pre ++ (entries group n).flatMap mapAliasList ++ post
        ∧ pre.length = off := by
      simp only [List.mem_cons, Prod.mk.injEq, List.not_mem_nil, or_false] at hg
      rcases hg with ⟨rfl, rfl, rfl⟩ | ⟨rfl, rfl, rfl⟩ | ⟨rfl, rfl, rfl⟩
      · exact messageWords_inmap s.cfg m
      · exact messageWords_outmap s.cfg m
      · exact messageWords_inoutmap s.cfg m
    obtain ⟨h1, h2, h3⟩ := written_mapAlias hsection hwf hi
    exact ⟨h1.trans (toWord_mod _), h2.trans (toWord_mod _), h3⟩
  case prepad => exact fun i hi hi' => written_padding (messageWords_prepad s.cfg m) hwf hi hi'
  case postpad => exact fun i hi hi' => written_padding (messageWords_postpad s.cfg m) hwf hi hi'
  case outptr =>
    obtain ⟨h1, h2⟩ := written_outptr (cfg := s.cfg) hwf hi
    exact ⟨h1.trans (toWord_mod _), h2⟩

/-! ## The buffer after an error -/

/-- Settles O24: the walk's error does not depend on the buffer (`encodeMessage_error_of_error`), nor do the words that
the havoc puts below `cap` (`readWord_havoc`). -/
theorem failedMsgEncForgetsTheBuffer : Obligations.FailedMsgEncForgetsTheBuffer := by
  intro s t rev m cap e mem hwf hwf' h he
  have hu : exec (.msgEnc rev m cap) (s.setMem mem) = .next ((s.setMem mem).encodeErrorReturn e cap)
      ∧ t = s.encodeErrorReturn e cap := by
    rcases execMsgEnc_cases rev m cap s with ⟨w, -, -, hs⟩ | ⟨e', hrev, hwalk, hs⟩ | ⟨hrev, hs⟩
    · cases hs.symm.trans h
      cases he
    · cases hs.symm.trans h
      cases he
      subst hrev
      exact ⟨execMsgEnc_error (s := s.setMem mem) (encodeMessage_error_of_error hwalk mem), rfl⟩
    · cases hs.symm.trans h
      cases he
      exact ⟨execMsgEnc_wrongRevision (s := s.setMem mem) hrev m cap, rfl⟩
  obtain ⟨hexec, rfl⟩ := hu
  refine ⟨_, hexec, encodeErrorReturn_status .., fun i hi => ?_⟩
  calc (mem.havoc s.draws cap).readWord i
    _ = Config.havocWord s.draws i := Memory.readWord_havoc hwf' s.draws hi
    _ = (s.mem.havoc s.draws cap).readWord i := (Memory.readWord_havoc hwf s.draws hi).symm

end Sys2Proof.Machine
end

section
/-! SUPPORT. The first error of MSG.ENC (60_exceptions.md section 3, R179). `encodeMessage_tracks` ties the walk to the
list of a message's elements; here that list is cut before one element, with everything before it fitting. -/

namespace Sys2Proof.Machine

/-! ## The walk's answer by the list of elements -/

theorem msgEnc_ok_of_firstError {s : State} {m : Message} {cap : Nat}
    (h : firstError cap 0 (messageElements s.cfg m) = none) :
    ∃ t, exec (.msgEnc s.cfg.rev m cap) s = .next t ∧ t.status = some .ok := by
  have hwalk := encodeMessage_tracks s.cfg m cap s.mem
  rw [Tracks, h] at hwalk
  obtain ⟨w, hw, -⟩ := hwalk
  exact ⟨_, execMsgEnc_ok hw, respond_status ..⟩

theorem encodeEndsInError_of_firstError {s : State} {m : Message} {cap : Nat} {e : Err}
    (h : firstError cap 0 (messageElements s.cfg m) = some e) : EncodeEndsInError s.cfg.rev m cap e s := by
  have hwalk := encodeMessage_tracks s.cfg m cap s.mem
  rw [Tracks, h] at hwalk
  exact encodeEndsInError_of_walk hwalk

/-! ## Elements before the first error -/

/-- None of the elements fails its validation. -/
def AllFit (xs : List Element) : Prop := ∀ x ∈ xs, x.misfit = none

theorem allFit_append {xs ys : List Element} (hx : AllFit xs) (hy : AllFit ys) : AllFit (xs ++ ys) := by
  intro z hz
  rcases List.mem_append.1 hz with hz | hz
  · exact hx z hz
  · exact hy z hz

theorem allFit_map {α : Type} {el : α → Element} {P : α → Prop} (hel : ∀ {x}, P x → (el x).misfit = none)
    {xs : List α} (h : ∀ x ∈ xs, P x) : AllFit (xs.map el) := by
  intro y hy
  obtain ⟨x, hx, rfl⟩ := List.mem_map.1 hy
  exact hel (h x hx)

theorem allFit_wordElements (n : Nat) : AllFit (wordElements n) := fun _ => wordElements_fit

section Cut
variable {s : State} {m : Message} {cap : Nat} {before after : List Element} {x : Element}
  (hcut : messageElements s.cfg m = before ++ x :: after) (hfit : AllFit before) (hroom : lengthOf before ≤ cap)
include hcut hfit hroom

theorem msgEnc_misfit {e : Err} (he : x.misfit = some e) : EncodeEndsInError s.cfg.rev m cap e s :=
  encodeEndsInError_of_firstError (by
    rw [hcut]
    exact firstError_misfit hfit (by rwa [Nat.zero_add]) he)

theorem msgEnc_noRoom (hx : x.misfit = none) (hfull : cap < lengthOf before + x.words) :
    EncodeEndsInError s.cfg.rev m cap .bufferTooSmall s :=
  encodeEndsInError_of_firstError (by
    rw [hcut]
    exact firstError_noRoom hfit (by rwa [Nat.zero_add]) hx (by rwa [Nat.zero_add]))

end Cut

/-! ## The header and the special header -/

theorem messageElements_hdr (cfg : Cfg) (m : Message) :
    ∃ after, messageElements cfg m = [] ++ hdrElement m.hdr :: after :=
  ⟨_, by simp only [messageElements, List.append_assoc, List.cons_append, List.nil_append]; rfl⟩

theorem messageElements_sph {m : Message} (h : m.hdr.hasSpecialHeader = true) (cfg : Cfg) :
    ∃ after, messageElements cfg m = [hdrElement m.hdr] ++ sphElement m.sph :: after :=
  ⟨_, by
    simp only [messageElements, specialElements, if_pos h, List.append_assoc, List.cons_append, List.nil_append]; rfl⟩

theorem hdrElement_misfit {f : HdrFields} (h : ¬ f.Fits) : (hdrElement f).misfit = some .fieldOverflow := if_neg h

theorem sphElement_misfit {f : SphFields} (h : ¬ f.Fits) : (sphElement f).misfit = some .fieldOverflow := if_neg h

/-! ## The descriptor sections -/

theorem inPtrElement_address {d : InPtr} (h : 2 ^ 42 ≤ d.address) :
    (inPtrElement d).misfit = some .addressOutOfRange := if_pos h

theorem inPtrElement_field {d : InPtr} (ha : d.address < 2 ^ 42) (h : ¬ d.Fits) :
    (inPtrElement d).misfit = some .fieldOverflow := (if_neg (Nat.not_le.2 ha)).trans (if_neg h)

theorem mapAliasElement_address {d : MapAlias} (h : 2 ^ 58 ≤ d.address) :
    (mapAliasElement d).misfit = some .addressOutOfRange := if_pos h

theorem mapAliasElement_field {d : MapAlias} (ha : d.address < 2 ^ 58) (h : ¬ d.Fits) :
    (mapAliasElement d).misfit = some .fieldOverflow := (if_neg (Nat.not_le.2 ha)).trans (if_neg h)

theorem outPtrElement_address {d : OutPtr} (h : 2 ^ 48 ≤ d.address) :
    (outPtrElement d).misfit = some .addressOutOfRange := if_pos h

theorem outPtrElement_field {d : OutPtr} (ha : d.address < 2 ^ 48) (h : ¬ d.Fits) :
    (outPtrElement d).misfit = some .fieldOverflow := (if_neg (Nat.not_le.2 ha)).trans (if_neg h)

/-- Entry `j` of a section of `k`-word elements that begins at `off`, everything before it fitting and having room. -/
theorem msgEnc_entry_error {α : Type} [Inhabited α] {el : α → Element} {k : Nat} (hk : ∀ x, (el x).words = k)
    {s : State} {m : Message} {cap off n j : Nat} {table : List α} {before after : List Element}
    (hsection : messageElements s.cfg m = before ++ (entries table n).map el ++ after) (hbefore : AllFit before)
    (hoff : lengthOf before = off) (hj : j < n) (hprev : ∀ i < j, (el (table.getD i default)).misfit = none)
    (hroom : off + k * j ≤ cap) :
    (∀ e, (el (table.getD j default)).misfit = some e → EncodeEndsInError s.cfg.rev m cap e s)
    ∧ ((el (table.getD j default)).misfit = none → cap < off + k * j + k →
        EncodeEndsInError s.cfg.rev m cap .bufferTooSmall s) := by
  have hcut : messageElements s.cfg m = (before ++ (entries table j).map el)
      ++ el (table.getD j default) :: (((entries table n).drop (j + 1)).map el ++ after) := by
    rw [hsection, entries_map_split el table hj]
    simp only [List.append_assoc, List.cons_append]
  have hfit : AllFit (before ++ (entries table j).map el) :=
    allFit_append hbefore (allFit_map (P := fun x => (el x).misfit = none) id (forall_entries hprev))
  have hlen : lengthOf (before ++ (entries table j).map el) = off + k * j := by
    rw [lengthOf_append, hoff, lengthOf_map hk, entries_length]
  rw [← hlen] at hroom ⊢
  refine ⟨fun e he => msgEnc_misfit hcut hfit hroom he, fun hx hfull => msgEnc_noRoom hcut hfit hroom hx ?_⟩
  rwa [hk]

/-- The elements before the in-pointers. -/
def elementsToInptr (m : Message) : List Element := [hdrElement m.hdr] ++ specialElements m

/-- The elements before the map-aliases. -/
def elementsToInmap (m : Message) : List Element :=
  elementsToInptr m ++ (entries m.inptr m.hdr.countA).map inPtrElement

/-- The map-aliases of a message, in their order. -/
def mapAliases (m : Message) : List MapAlias :=
  entries m.inmap m.hdr.countB ++ entries m.outmap m.hdr.countC ++ entries m.inoutmap m.hdr.countD

/-- The elements before the out-pointers. -/
def elementsToOutptr (cfg : Cfg) (m : Message) : List Element :=
  elementsToInmap m ++ (mapAliases m).map mapAliasElement
    ++ wordElements (prePad cfg m.hdr.mode (messageOffsets cfg m).offPrepad) ++ wordElements m.hdr.numDataWords
    ++ wordElements (postPad cfg m.hdr.mode (messageOffsets cfg m).offPostpad)

theorem messageElements_eq (cfg : Cfg) (m : Message) :
    messageElements cfg m
      = elementsToOutptr cfg m ++ (entries m.outptr (outCnt cfg m.hdr.mode)).map outPtrElement := by
  simp only [messageElements, elementsToOutptr, elementsToInmap, elementsToInptr, mapAliases, List.map_append,
    List.append_assoc]

theorem messageElements_inptr (cfg : Cfg) (m : Message) : ∃ after,
    messageElements cfg m = elementsToInptr m ++ (entries m.inptr m.hdr.countA).map inPtrElement ++ after :=
  ⟨_, by simp only [messageElements_eq, elementsToOutptr, elementsToInmap, List.append_assoc]; rfl⟩

section Lengths
variable (cfg : Cfg) (m : Message)

theorem lengthOf_elementsToInptr : lengthOf (elementsToInptr m) = (messageOffsets cfg m).offInptr := by
  rw [elementsToInptr, lengthOf_append, lengthOf_specialElements]
  rfl

theorem lengthOf_elementsToInmap : lengthOf (elementsToInmap m) = (messageOffsets cfg m).offInmap := by
  rw [elementsToInmap, lengthOf_append, lengthOf_elementsToInptr cfg, lengthOf_inPtrElements, entries_length]
  rfl

theorem lengthOf_elementsToOutptr : lengthOf (elementsToOutptr cfg m) = (messageOffsets cfg m).offOutptr := by
  have hmaps : (messageOffsets cfg m).offPrepad = (messageOffsets cfg m).offInmap + 3 * (mapAliases m).length := by
    simp only [mapAliases, List.length_append, entries_length]
    rfl
  simp only [elementsToOutptr, lengthOf_append, lengthOf_elementsToInmap cfg, lengthOf_mapAliasElements,
    lengthOf_wordElements, ← hmaps]
  rfl

end Lengths

section Fitting
variable {m : Message}

theorem allFit_elementsToInptr (hhdr : m.hdr.Fits) (hsph : m.hdr.hasSpecialHeader = true → m.sph.Fits) :
    AllFit (elementsToInptr m) :=
  allFit_append (fun _ hx => List.mem_singleton.1 hx ▸ hdrElement_fits hhdr) fun _ => specialElements_fit hsph

theorem allFit_elementsToInmap (hhdr : m.hdr.Fits) (hsph : m.hdr.hasSpecialHeader = true → m.sph.Fits)
    (hin : ∀ i < m.hdr.countA, (m.inptr.getD i default).Fits) : AllFit (elementsToInmap m) :=
  allFit_append (allFit_elementsToInptr hhdr hsph) (allFit_map inPtrElement_fits (forall_entries hin))

theorem allFit_elementsToOutptr (cfg : Cfg) (hto : AllFit (elementsToInmap m)) (hmaps : ∀ d ∈ mapAliases m, d.Fits) :
    AllFit (elementsToOutptr cfg m) :=
  allFit_append (allFit_append (allFit_append (allFit_append hto (allFit_map mapAliasElement_fits hmaps))
    (allFit_wordElements _)) (allFit_wordElements _)) (allFit_wordElements _)

/-- A group of map-aliases stands after the map-aliases of the groups before it. -/
theorem messageElements_mapAlias (cfg : Cfg) {before group : List MapAlias} {n off : Nat}
    (hg : (before, group, n, off) ∈ [([], m.inmap, m.hdr.countB, (messageOffsets cfg m).offInmap),
      (entries m.inmap m.hdr.countB, m.outmap, m.hdr.countC, (messageOffsets cfg m).offOutmap),
      (entries m.inmap m.hdr.countB ++ entries m.outmap m.hdr.countC, m.inoutmap, m.hdr.countD,
        (messageOffsets cfg m).offInoutmap)]) :
    (∃ after, messageElements cfg m = elementsToInmap m ++ before.map mapAliasElement
        ++ (entries group n).map mapAliasElement ++ after)
      ∧ lengthOf (elementsToInmap m ++ before.map mapAliasElement) = off := by
  rw [lengthOf_append, lengthOf_elementsToInmap cfg, lengthOf_mapAliasElements, messageElements_eq, elementsToOutptr,
    mapAliases]
  simp only [List.mem_cons, Prod.mk.injEq, List.not_mem_nil, or_false] at hg
  rcases hg with ⟨rfl, rfl, rfl, rfl⟩ | ⟨rfl, rfl, rfl, rfl⟩ | ⟨rfl, rfl, rfl, rfl⟩
  · exact ⟨⟨_, by simp only [List.map_append, List.append_assoc, List.map_nil, List.nil_append]; rfl⟩, rfl⟩
  · exact ⟨⟨_, by simp only [List.map_append, List.append_assoc]; rfl⟩, by rw [entries_length]; rfl⟩
  · refine ⟨⟨_, by simp only [List.map_append, List.append_assoc]; rfl⟩, ?_⟩
    rw [List.length_append, entries_length, entries_length, Nat.mul_add, ← Nat.add_assoc]
    rfl

end Fitting

/-- Settles O23: the list of elements decides the answer (`encodeMessage_tracks`); each clause cuts it before its
element, for a descriptor by `msgEnc_entry_error`. -/
theorem msgEncReportsTheFirstError : Obligations.MsgEncReportsTheFirstError := by
  refine fun s m cap => ⟨msgEnc_ok_of_firstError, fun e => encodeEndsInError_of_firstError, fun hhdr => ?hdrMisfit,
    fun hhdr hcap => ?hdrRoom, fun hhdr hcap hs hsph => ?sphMisfit,
    fun hhdr hsph => ⟨?inptr, fun hin => ⟨?maps, ?outptr⟩⟩⟩
  case hdrMisfit =>
    obtain ⟨after, hcut⟩ := messageElements_hdr s.cfg m
    exact msgEnc_misfit hcut (by simp [AllFit]) (Nat.zero_le cap) (hdrElement_misfit hhdr)
  case hdrRoom =>
    obtain ⟨after, hcut⟩ := messageElements_hdr s.cfg m
    exact msgEnc_noRoom hcut (by simp [AllFit]) (Nat.zero_le cap) (hdrElement_fits hhdr) hcap
  case sphMisfit =>
    obtain ⟨after, hcut⟩ := messageElements_sph hs s.cfg
    exact msgEnc_misfit hcut (by simp [AllFit, hdrElement_fits hhdr]) hcap (sphElement_misfit hsph)
  case inptr =>
    intro j hj hprev hroom
    obtain ⟨after, hsection⟩ := messageElements_inptr s.cfg m
    obtain ⟨hmisfit, hfull⟩ := msgEnc_entry_error (el := inPtrElement) (fun _ => rfl) hsection
      (allFit_elementsToInptr hhdr hsph) (lengthOf_elementsToInptr s.cfg m) hj
      (fun i hi => inPtrElement_fits (hprev i hi)) hroom
    exact ⟨fun ha => hmisfit _ (inPtrElement_address ha), fun ha hd => hmisfit _ (inPtrElement_field ha hd),
      fun hd => hfull (inPtrElement_fits hd)⟩
  case maps =>
    intro before group n off hg hbefore j hj hprev hroom
    obtain ⟨⟨after, hsection⟩, hoff⟩ := messageElements_mapAlias s.cfg hg
    obtain ⟨hmisfit, hfull⟩ := msgEnc_entry_error (el := mapAliasElement) (fun _ => rfl) hsection
      (allFit_append (allFit_elementsToInmap hhdr hsph hin) (allFit_map mapAliasElement_fits hbefore)) hoff hj
      (fun i hi => mapAliasElement_fits (hprev i hi)) hroom
    exact ⟨fun ha => hmisfit _ (mapAliasElement_address ha), fun ha hd => hmisfit _ (mapAliasElement_field ha hd),
      fun hd => hfull (mapAliasElement_fits hd)⟩
  case outptr =>
    intro hmaps j hj hprev hroom
    obtain ⟨hmisfit, hfull⟩ := msgEnc_entry_error (el := outPtrElement) (after := []) (fun _ => rfl)
      ((messageElements_eq s.cfg m).trans (List.append_nil _).symm)
      (allFit_elementsToOutptr s.cfg (allFit_elementsToInmap hhdr hsph hin) hmaps)
      (lengthOf_elementsToOutptr s.cfg m) hj (fun i hi => outPtrElement_fits (hprev i hi)) hroom
    exact ⟨fun ha => hmisfit _ (outPtrElement_address ha), fun ha hd => hmisfit _ (outPtrElement_field ha hd),
      fun hd => hfull (outPtrElement_fits hd)⟩

end Sys2Proof.Machine
end

section
/-! SUPPORT. MSG.DEC (43_offset_calculator.md section 4) from the closed form of its walk (`decodeMessage_eq`), and when
a malformed special header is reported. -/

namespace Sys2Proof.Machine

/-! ## The answer -/

theorem exec_msgDec_of_walk {s : State} {cap : Nat} {r : Results} (h : decodeMessage s.cfg s.mem cap = .ok r) :
    exec (.msgDec s.cfg.rev cap) s = .next (s.respond r) :=
  exec_of_body_ok rfl rfl rfl h

theorem msgDec_error {s : State} {cap : Nat} {e : Err} (h : decodeMessage s.cfg s.mem cap = .error e) :
    EndsInError (.msgDec s.cfg.rev cap) e s :=
  endsInError_of_body rfl rfl rfl h

/-- What a MSG.DEC with the status OK says of its walk. -/
theorem msgDec_ok_walk {s t : State} {cap : Nat} {r : Results} (h : exec (.msgDec s.cfg.rev cap) s = .next t)
    (hr : t.rsp = some ⟨.ok, r⟩) : decodeMessage s.cfg s.mem cap = .ok r := by
  cases hw : decodeMessage s.cfg s.mem cap with
  | ok r' =>
    cases (exec_msgDec_of_walk hw).symm.trans h
    cases hr
    rfl
  | error e =>
    obtain ⟨t', ht', hstatus, -⟩ := msgDec_error hw
    cases ht'.symm.trans h
    simp [State.status, hr] at hstatus

/-- The handle tables stand at the offsets of the record; without a special header there are none. -/
theorem decodedSpecial_handles (cfg : Cfg) (mem : Memory) {c : Counts} {sph : SphFields}
    (h : c.hasSpecialHeader = false → sph = {}) :
    (decodedSpecial mem sph).copyHandle = tabulate sph.numCopyHandles (offsets cfg c sph).offCopy 1 mem.readWord
    ∧ (decodedSpecial mem sph).moveHandle
        = tabulate sph.numMoveHandles (offsets cfg c sph).offMove 1 mem.readWord := by
  obtain ⟨hcopy, hmove, -⟩ := offsets_special cfg c sph
  cases hs : c.hasSpecialHeader with
  | false => rw [h hs]; exact ⟨rfl, rfl⟩
  | true =>
    rw [hs, if_pos rfl] at hcopy hmove
    rw [hmove, hcopy]
    exact ⟨rfl, rfl⟩

theorem tabulate_one {α : Type} (n pos : Nat) (read : Nat → α) :
    tabulate n pos 1 read = (List.range n).map fun i => read (pos + i) := by
  simp only [tabulate, Nat.one_mul]

/-- The special header, its word included, is part of the total. -/
theorem special_le_total (cfg : Cfg) (c : Counts) (sph : SphFields) :
    2 ≤ (offsets cfg c sph).total ∧ (c.hasSpecialHeader = true → 3 ≤ (offsets cfg c sph).total) := by
  rw [offsets_total]
  refine ⟨by omega, fun h => ?_⟩
  rw [h, sphLen, if_pos rfl]
  omega

/-- Settles O25: `decodeMessage_eq`; its tables are those of the record's offsets. -/
theorem msgDecCompletes : Obligations.MsgDecCompletes := by
  intro s cap hdr sph hhdr hcap hsph hnone ht
  have hwalk := decodeMessage_eq hcap hhdr (fun h => ((special_le_total s.cfg _ sph).2 h).trans ht)
    (specialFields_of hsph hnone)
  rw [if_pos ht] at hwalk
  obtain ⟨hcopy, hmove⟩ := decodedSpecial_handles s.cfg s.mem hnone
  exact ⟨_, exec_msgDec_of_walk hwalk, rfl, rfl, hcopy.trans (tabulate_one _ _ _), hmove.trans (tabulate_one _ _ _),
    rfl, rfl, rfl, rfl, tabulate_one _ _ _, rfl⟩

/-! ## Errors -/

theorem decodeMessage_noRoomForSpecial {cfg : Cfg} {mem : Memory} {cap : Nat}
    (h : (unpackHdr (mem.readWord 0) (mem.readWord 1)).hasSpecialHeader = true) (hcap : cap < 3) :
    decodeMessage cfg mem cap = .error .bufferTooSmall := by
  rcases Nat.lt_or_ge cap 2 with h2 | h2
  · exact decodeMessage_noHeader h2
  · obtain rfl : cap = 2 := by omega
    exact decodeMessage_noSpecialWord h

/-- A message that the counts make longer than the room, whether or not there is room for its first words. -/
theorem decodeMessage_tooLong {cfg : Cfg} {mem : Memory} {cap : Nat} {hdr : HdrFields} {sph : SphFields}
    (hhdr : hdr = unpackHdr (mem.readWord 0) (mem.readWord 1)) (hs : SpecialFields cfg mem hdr.hasSpecialHeader sph)
    (ht : cap < (offsets cfg hdr.toCounts sph).total) : decodeMessage cfg mem cap = .error .bufferTooSmall := by
  by_cases h2 : cap < 2
  · exact decodeMessage_noHeader h2
  · by_cases h3 : hdr.hasSpecialHeader = true ∧ cap < 3
    · exact decodeMessage_noRoomForSpecial (hhdr ▸ h3.1) h3.2
    · have h3' : hdr.hasSpecialHeader = true → 3 ≤ cap := fun h => Nat.not_lt.1 fun hlt => h3 ⟨h, hlt⟩
      rw [decodeMessage_eq (Nat.not_lt.1 h2) hhdr h3' hs, if_neg (Nat.not_le.2 ht)]

theorem msgDec_malformed {s : State} {cap : Nat}
    (h : (unpackHdr (s.mem.readWord 0) (s.mem.readWord 1)).hasSpecialHeader = true) (hcap : 3 ≤ cap)
    (hstrict : s.cfg.tolSphPad = false) (hpad : 2 ^ 9 ≤ (s.mem.readWord 2).toNat) :
    EndsInError (.msgDec s.cfg.rev cap) .malformedSpecialHeader s :=
  msgDec_error (decodeMessage_malformed hcap h (unpackSph_malformed hstrict hpad))

/-- Settles O26, one lemma about the walk for each clause. -/
theorem msgDecErrors : Obligations.MsgDecErrors := by
  rintro s cap hdr rfl
  refine ⟨fun hcap => ?noHeader, fun h hcap => ?noSpecial, fun h hcap => msgDec_malformed h hcap,
    fun h sph hsph ht => ?long, fun h ht => ?longWithoutSpecial⟩
  case noHeader => exact msgDec_error (decodeMessage_noHeader hcap)
  case noSpecial => exact msgDec_error (decodeMessage_noRoomForSpecial h hcap)
  case long => exact msgDec_error (decodeMessage_tooLong rfl (specialFields_of (fun _ => hsph) (by simp [h])) ht)
  case longWithoutSpecial =>
    exact msgDec_error (decodeMessage_tooLong rfl (specialFields_of (by simp [h]) fun _ => rfl) ht)

/-! ## The malformed special header -/

/-- Where an operation that is not MSG.ENC answers MalformedSpecialHeader after the revision check. -/
theorem body_malformed {cfg : Cfg} {mem : Memory} {i : Instr} (hm : isMsgEnc i = false)
    (h : body cfg mem i = .error .malformedSpecialHeader) :
    cfg.tolSphPad = false
    ∧ ((∃ w : Word, i = .sphDec i.rev w ∧ 2 ^ 9 ≤ w.toNat)
      ∨ (∃ cap, i = .msgDec i.rev cap ∧ 3 ≤ cap
          ∧ (unpackHdr (mem.readWord 0) (mem.readWord 1)).hasSpecialHeader = true
          ∧ 2 ^ 9 ≤ (mem.readWord 2).toNat)) := by
  have hlisted := body_error_listed hm h
  cases i with
  | sphDec rev w =>
    obtain ⟨-, hstrict, hpad⟩ := unpackSph_error (error_of_bind_ok (fun _ => ⟨_, rfl⟩) h)
    exact ⟨hstrict, .inl ⟨w, rfl, hpad⟩⟩
  | msgDec rev cap =>
    rcases decodeMessage_err h with he | ⟨-, hstrict, hcap, hs, hpad⟩
    · cases he
    · exact ⟨hstrict, .inr ⟨cap, rfl, hcap, hs, hpad⟩⟩
  | _ => simp [mayRaise] at hlisted

theorem status_of_endsInError {i : Instr} {e : Err} {s t : State} (h : EndsInError i e s) (ht : exec i s = .next t) :
    t.status = some (.error e) := by
  obtain ⟨t', ht', hstatus, -⟩ := h
  cases ht'.symm.trans ht
  exact hstatus

/-- Settles O31: `body_malformed` for the one direction, `sphDec_malformed` and `msgDec_malformed` for the other. -/
theorem malformedSpecialHeaderExactlyWhenStrictPaddingIsSet :
    Obligations.MalformedSpecialHeaderExactlyWhenStrictPaddingIsSet := by
  refine fun s t i hrev h => ⟨fun hstatus => ?raised, ?raises⟩
  case raised =>
    rcases exec_next h with
      ⟨r, -, -, -, -, rfl⟩ | ⟨e, hm, rfl, hwhy⟩ | ⟨m, cap, w, -, -, rfl⟩ | ⟨rev, m, cap, e, rfl, rfl, hwhy⟩
    · cases hstatus
    · cases hstatus
      rcases hwhy with ⟨-, hbody⟩ | ⟨-, -, he⟩ | ⟨-, he⟩
      · rw [← hrev]
        exact body_malformed hm hbody
      · cases he
      · cases he
    · cases hstatus
    · cases hstatus
      rcases hwhy with ⟨-, hwalk⟩ | ⟨-, he⟩
      · rcases encodeMessage_err hwalk with he | he | he <;> cases he
      · cases he
  case raises =>
    rintro ⟨hstrict, ⟨w, rfl, hpad⟩ | ⟨cap, rfl, hcap, hs, hpad⟩⟩
    · exact status_of_endsInError (sphDec_malformed hstrict hpad) h
    · exact status_of_endsInError (msgDec_malformed hs hcap hstrict hpad) h

end Sys2Proof.Machine
end

section
/-! SUPPORT. The bytes and words of the buffer (20_memory.md sections 2 and 4), and the two revisions as two sets of
names for one format (30_encoding.md R86, 43_offset_calculator.md R155). -/

namespace Sys2Proof.Machine

/-! ## Bytes and words -/

/-- Appended bit vectors as a number: the right one is the low part. -/
theorem toNat_append_eq_add {v w : Nat} (x : BitVec v) (y : BitVec w) :
    (x ++ y).toNat = y.toNat + x.toNat * 2 ^ w := by
  rw [BitVec.toNat_append, Nat.lor_comm, or_shiftLeft_eq_add y.isLt]

/-- Settles O38: a word is the four bytes appended, the last one most significant. -/
theorem wordsAreLittleEndianBytes : Obligations.WordsAreLittleEndianBytes := by
  intro m i
  simp only [Memory.readWord, toNat_append_eq_add]
  omega

theorem readWords_writeWords {m : Memory} (h : m.wf = true) (pos : Nat) (ws : List Word) :
    (m.writeWords pos ws).readWords pos ws.length = ws := by
  apply List.ext_getElem (Memory.readWords_length _ _ _)
  intro k h1 h2
  rw [Memory.readWords_getElem, Memory.readWord_writeWords h pos h2]

/-- Settles O39: `readWords_writeWords`, `wf_writeWords` and `readByte_writeWords_ne`. -/
theorem memReadReturnsWhatMemWriteWrote : Obligations.MemReadReturnsWhatMemWriteWrote := fun m pos ws h =>
  ⟨readWords_writeWords h pos ws, Memory.wf_writeWords h pos ws, fun _ ha => Memory.readByte_writeWords_ne m ws ha⟩

/-! ## Revisions -/

section WithRev
variable (rev : Revision) (i : Instr)

theorem rev_withRev : (withRev rev i).rev = rev := by cases i <;> rfl

theorem assigned_withRev : Assigned (withRev rev i) = Assigned i := by cases i <;> rfl

theorem isMsgEnc_withRev : isMsgEnc (withRev rev i) = isMsgEnc i := by cases i <;> rfl

/-- After the revision check nothing looks at the strap or at the request's naming scheme. -/
theorem body_withRev (s : State) :
    body (s.withRevStrap rev).cfg (s.withRevStrap rev).mem (withRev rev i) = body s.cfg s.mem i := by
  cases i <;> rfl

end WithRev

@[simp] theorem withRevStrap_mem (s : State) (rev : Revision) : (s.withRevStrap rev).mem = s.mem := rfl

theorem exec_withRev_mem {s t : State} {i : Instr} {rev : Revision} (hm : isMsgEnc i = false)
    (h : exec (withRev rev i) (s.withRevStrap rev) = .next t) : t.mem = s.mem :=
  (exec_mem ((isMsgEnc_withRev rev i).trans hm) h).trans (withRevStrap_mem s rev)

/-- One request under either revision's names, each answered under its own revision. -/
theorem exec_withRev_sameAnswer (s : State) (i : Instr) (rev rev' : Revision) :
    SameAnswer (exec (withRev rev i) (s.withRevStrap rev)) (exec (withRev rev' i) (s.withRevStrap rev')) := by
  have hrev : rev = (s.withRevStrap rev).cfg.rev ↔ rev' = (s.withRevStrap rev').cfg.rev := iff_of_true rfl rfl
  cases ha : Assigned i with
  | false =>
    rw [exec_of_unassigned ((assigned_withRev rev i).trans ha),
      exec_of_unassigned ((assigned_withRev rev' i).trans ha)]
    exact (sameResult_of_error rfl rfl).sameAnswer
  | true =>
    cases hm : isMsgEnc i with
    | false =>
      rw [exec_of_assigned ((assigned_withRev rev i).trans ha) ((isMsgEnc_withRev rev i).trans hm),
        exec_of_assigned ((assigned_withRev rev' i).trans ha) ((isMsgEnc_withRev rev' i).trans hm),
        body_withRev, body_withRev, rev_withRev, rev_withRev]
      exact finish_sameAnswer hrev rfl _
    | true =>
      cases i with
      | msgEnc rev₀ m cap => exact execMsgEnc_sameAnswer hrev rfl
      | _ => cases hm

/-- Settles O37: `exec_withRev_sameAnswer`; the names are read off `headerView`. -/
theorem revisionsDifferInNamesOnly : Obligations.RevisionsDifferInNamesOnly := by
  refine ⟨fun s i rev rev' => ?answers, fun c => ?names, fun rev f => ?fields⟩
  case answers =>
    obtain ⟨t, u, ht, hu, hstatus, hok⟩ := exec_withRev_sameAnswer s i rev rev'
    exact ⟨t, u, ht, hu, hstatus, hok, fun hm => ⟨exec_withRev_mem hm ht, exec_withRev_mem hm hu⟩⟩
  case names => exact ⟨_, _, rfl, rfl, rfl, rfl, rfl, rfl, rfl, rfl, rfl, rfl, rfl, rfl⟩
  case fields => cases rev <;> rfl

end Sys2Proof.Machine
end

section
/-! SUPPORT. MSG.DEC after MSG.ENC (43_offset_calculator.md section 6): the decoder reads, at the offsets of the
encoder's record, the words that the encoder wrote there, and unpacks what it packed. -/

namespace Sys2Proof.Machine

/-- Everything that the OK response of a MSG.ENC says. -/
theorem msgEnc_ok {s t : State} {m : Message} {cap total : Nat} (h : exec (.msgEnc s.cfg.rev m cap) s = .next t)
    (hr : t.rsp = some ⟨.ok, .msgEnc total⟩) :
    MessageFits s.cfg m ∧ t = encoded s m ∧ total = (messageOffsets s.cfg m).total := by
  have hstatus : t.status = some .ok := by rw [State.status, hr]; rfl
  obtain ⟨-, hfits, htotal⟩ := msgEnc_status_ok h hstatus
  cases (exec_msgEnc_of_fits hfits htotal).symm.trans h
  rw [encoded_rsp] at hr
  cases hr
  exact ⟨hfits, rfl, rfl⟩

/-! ## The special header that a message carries -/

theorem carried_sph {m : Message} (h : m.hdr.hasSpecialHeader = true) (cfg : Cfg) : (carried cfg m).sph = m.sph :=
  if_pos h

theorem carried_sph_none {m : Message} (h : m.hdr.hasSpecialHeader = false) (cfg : Cfg) : (carried cfg m).sph = {} :=
  if_neg (by simp [h])

/-- An absent special header takes no room, so the record is that of the message. -/
theorem offsets_carried (cfg : Cfg) (m : Message) :
    offsets cfg m.hdr.toCounts (carried cfg m).sph = messageOffsets cfg m := by
  cases h : m.hdr.hasSpecialHeader with
  | true => rw [carried_sph h]; rfl
  | false => exact offsets_noSpecial h cfg _ _

/-! ## What the decoder finds -/

section Written
variable {cfg : Cfg} {m : Message} {mem : Memory} (hwf : mem.wf = true) (hm : MessageFits cfg m)
include hwf hm

theorem unpackHdr_written :
    m.hdr = unpackHdr ((mem.writeWords 0 (messageWords cfg m)).readWord 0)
      ((mem.writeWords 0 (messageWords cfg m)).readWord 1) := by
  obtain ⟨hword1, hword2⟩ := written_hdr (cfg := cfg) (m := m) hwf
  rw [hword1, hword2, unpackHdr_pack hm.1]

theorem specialFields_written (cfg' : Cfg) :
    SpecialFields cfg' (mem.writeWords 0 (messageWords cfg m)) m.hdr.hasSpecialHeader (carried cfg m).sph := by
  refine specialFields_of (fun h => ?_) fun h => carried_sph_none h cfg
  rw [written_sph hwf h, carried_sph h]
  exact unpackSph_pack (hm.2.1 h) cfg'

end Written

section Tables
variable {cfg : Cfg} {m : Message} {mem : Memory} (hwf : mem.wf = true)
include hwf

/-- A table of map-aliases, read where it was written. -/
theorem tabulate_mapAlias_written {table : List MapAlias} {n off : Nat} (hfit : ∀ d ∈ entries table n, d.Fits)
    (hsection : ∃ pre post, messageWords cfg m = pre ++ (entries table n).flatMap mapAliasList ++ post
      ∧ pre.length = off) :
    (tabulate n off 3 fun p => unpackMapAlias ((mem.writeWords 0 (messageWords cfg m)).readWord p)
      ((mem.writeWords 0 (messageWords cfg m)).readWord (p + 1))
      ((mem.writeWords 0 (messageWords cfg m)).readWord (p + 2))) = entries table n := by
  refine tabulate_eq_entries fun i hi => ?_
  obtain ⟨h1, h2, h3⟩ := written_mapAlias hsection hwf hi
  rw [h1, h2, h3, unpackMapAlias_pack (hfit _ (mem_entries_getD table hi))]

theorem tabulate_inptr_written (hfit : ∀ d ∈ entries m.inptr m.hdr.countA, d.Fits) :
    (tabulate m.hdr.countA (messageOffsets cfg m).offInptr 2 fun p =>
      unpackInPtr ((mem.writeWords 0 (messageWords cfg m)).readWord p)
        ((mem.writeWords 0 (messageWords cfg m)).readWord (p + 1))) = entries m.inptr m.hdr.countA := by
  refine tabulate_eq_entries fun i hi => ?_
  obtain ⟨h1, h2⟩ := written_inptr (cfg := cfg) hwf hi
  rw [h1, h2, unpackInPtr_pack (hfit _ (mem_entries_getD m.inptr hi))]

theorem tabulate_outptr_written (hfit : ∀ d ∈ entries m.outptr (outCnt cfg m.hdr.mode), d.Fits) :
    (tabulate (outCnt cfg m.hdr.mode) (messageOffsets cfg m).offOutptr 2 fun p =>
      unpackOutPtr ((mem.writeWords 0 (messageWords cfg m)).readWord p)
        ((mem.writeWords 0 (messageWords cfg m)).readWord (p + 1)))
      = entries m.outptr (outCnt cfg m.hdr.mode) := by
  refine tabulate_eq_entries fun i hi => ?_
  obtain ⟨h1, h2⟩ := written_outptr (cfg := cfg) hwf hi
  rw [h1, h2, unpackOutPtr_pack (hfit _ (mem_entries_getD m.outptr hi))]

theorem tabulate_data_written :
    tabulate m.hdr.numDataWords (messageOffsets cfg m).offData 1 (mem.writeWords 0 (messageWords cfg m)).readWord
      = entries m.data m.hdr.numDataWords :=
  tabulate_eq_entries fun i hi => by rw [Nat.one_mul, written_data hwf hi]

/-- Section 2, with the pid word that MSG.ENC writes as 0 (R63). -/
theorem decodedSpecial_written :
    decodedSpecial (mem.writeWords 0 (messageWords cfg m)) (carried cfg m).sph
      = ⟨(carried cfg m).sph, 0, (carried cfg m).copyHandle, (carried cfg m).moveHandle⟩ := by
  cases h : m.hdr.hasSpecialHeader with
  | false => simp [decodedSpecial, carried, h, tabulate]
  | true =>
    obtain ⟨hcopy, hmove⟩ := decodedSpecial_handles cfg (mem.writeWords 0 (messageWords cfg m))
      (c := m.hdr.toCounts) (sph := m.sph) (by simp [h])
    have hpid : (decodedSpecial (mem.writeWords 0 (messageWords cfg m)) m.sph).pidRaw = 0 := by
      cases hp : m.sph.sendPid with
      | false => simp [decodedSpecial, hp]
      | true => simp only [decodedSpecial, hp, if_true, written_pid hwf h hp]
    have hcopy' : (decodedSpecial (mem.writeWords 0 (messageWords cfg m)) m.sph).copyHandle
        = entries m.copyHandle m.sph.numCopyHandles :=
      hcopy.trans (tabulate_eq_entries fun i hi => by rw [Nat.one_mul]; exact written_copy hwf h hi)
    have hmove' : (decodedSpecial (mem.writeWords 0 (messageWords cfg m)) m.sph).moveHandle
        = entries m.moveHandle m.sph.numMoveHandles :=
      hmove.trans (tabulate_eq_entries fun i hi => by rw [Nat.one_mul]; exact written_move hwf h hi)
    simp only [carried, h, if_true, ← hpid, ← hcopy', ← hmove']
    rfl

/-- The message that the decoder finds is what the encoded one carries. -/
theorem decodedMessage_written (hm : MessageFits cfg m) :
    decodedMessage (mem.writeWords 0 (messageWords cfg m)) m.hdr (carried cfg m).sph (messageOffsets cfg m)
      = carried cfg m := by
  obtain ⟨-, -, hinptr, hinmap, houtmap, hinoutmap, houtptr⟩ := hm
  simp only [decodedMessage, decodedSpecial_written hwf, tabulate_inptr_written hwf hinptr,
    tabulate_mapAlias_written hwf hinmap (messageWords_inmap cfg m),
    tabulate_mapAlias_written hwf houtmap (messageWords_outmap cfg m),
    tabulate_mapAlias_written hwf hinoutmap (messageWords_inoutmap cfg m), tabulate_data_written hwf]
  have hout := tabulate_outptr_written (cfg := cfg) hwf houtptr
  exact congrArg (fun xs => { carried cfg m with outptr := xs }) hout

end Tables

/-- Settles O27: the decoder's walk over the encoder's buffer. Other straps make no difference, since the offsets
depend on the three functions only (`offsets_congr`). -/
theorem messageRoundTrip : Obligations.MessageRoundTrip := by
  intro s t u m cap cap' total hwf henc hrsp hmem hcfg hcap
  obtain ⟨hm, rfl, rfl⟩ := msgEnc_ok henc hrsp
  rw [encoded_mem] at hmem
  have hoff : offsets u.cfg m.hdr.toCounts (carried s.cfg m).sph = messageOffsets s.cfg m :=
    (offsets_congr hcfg _ _).trans (offsets_carried s.cfg m)
  obtain ⟨htwo, hthree⟩ := special_le_total s.cfg m.hdr.toCounts m.sph
  have hwalk := decodeMessage_eq (htwo.trans hcap) (unpackHdr_written hwf hm) (fun h => (hthree h).trans hcap)
    (specialFields_written hwf hm u.cfg)
  rw [hoff, if_pos hcap, decodedMessage_written hwf hm, decodedSpecial_written hwf, ← hmem] at hwalk
  exact exec_msgDec_of_walk hwalk

end Sys2Proof.Machine
end

section
/-! SUPPORT. MSG.ENC after MSG.DEC (43_offset_calculator.md section 6): a decoded message fits its fields, so it is
encoded, and packing what was unpacked gives every word back but for the bits that no field holds. -/

namespace Sys2Proof.Machine

/-! ## Packing an unpacked descriptor -/

theorem inPtrList_unpack (w1 w2 : Word) : inPtrList (unpackInPtr w1 w2) = [w1, w2] := by
  obtain ⟨h1, h2⟩ := packed_unpackInPtr w1 w2
  rw [inPtrList, h1, h2]

theorem mapAliasList_unpack (w1 w2 w3 : Word) : mapAliasList (unpackMapAlias w1 w2 w3) = [w1, w2, w3] := by
  obtain ⟨h1, h2, h3⟩ := packed_unpackMapAlias w1 w2 w3
  rw [mapAliasList, h1, h2, h3]

theorem outPtrList_unpack (w1 w2 : Word) : outPtrList (unpackOutPtr w1 w2) = [w1, w2] := by
  obtain ⟨h1, h2⟩ := packed_unpackOutPtr w1 w2
  rw [outPtrList, h1, h2]

/-! ## The decoded message -/

theorem forall_entries_tabulate {α : Type} [Inhabited α] {P : α → Prop} {n off k : Nat} {read : Nat → α}
    (h : ∀ p, P (read p)) : ∀ x ∈ entries (tabulate n off k read) n, P x := by
  intro x hx
  rw [entries_self (tabulate_length n off k read).symm] at hx
  obtain ⟨p, rfl⟩ := mem_tabulate hx
  exact h p

theorem specialFields_fits {cfg : Cfg} {mem : Memory} {sph : SphFields} (hs : SpecialFields cfg mem true sph) :
    sph.Fits := unpackSph_fits hs

/-- What MSG.DEC returns fits the fields that MSG.ENC feeds it to (R154). -/
theorem decodedMessage_fits {cfg : Cfg} {mem : Memory} {hdr : HdrFields} {sph : SphFields} (hhdr : hdr.Fits)
    (hs : SpecialFields cfg mem hdr.hasSpecialHeader sph) :
    MessageFits cfg (decodedMessage mem hdr sph (offsets cfg hdr.toCounts sph)) := by
  simp only [MessageFits, decodedMessage]
  refine ⟨hhdr, fun h => ?sph, ?inptr, ?inmap, ?outmap, ?inoutmap, ?outptr⟩
  case sph =>
    rw [h] at hs
    exact specialFields_fits hs
  case inptr => exact forall_entries_tabulate fun _ => unpackInPtr_fits _ _
  case inmap | outmap | inoutmap => exact forall_entries_tabulate fun _ => unpackMapAlias_fits _ _ _
  case outptr => exact forall_entries_tabulate fun _ => unpackOutPtr_fits _ _

/-! ## Sections that come back as they were -/

/-- The encoder writes back the words from `first` up to `last`. -/
def Restores (cfg : Cfg) (m : Message) (mem : Memory) (first last : Nat) : Prop :=
  ∀ i, first ≤ i → i < last → (mem.writeWords 0 (messageWords cfg m)).readWord i = mem.readWord i

theorem Restores.trans {cfg : Cfg} {m : Message} {mem : Memory} {first mid last : Nat}
    (h : Restores cfg m mem first mid) (h' : Restores cfg m mem mid last) : Restores cfg m mem first last := by
  intro i hi hlast
  rcases Nat.lt_or_ge i mid with hmid | hmid
  · exact h i hi hmid
  · exact h' i hmid hlast

theorem restores_nil (cfg : Cfg) (m : Message) (mem : Memory) (first : Nat) : Restores cfg m mem first first :=
  fun _ hi hi' => absurd hi (Nat.not_le.2 hi')

/-- A table of whole words that was read at `off` and is written there. -/
theorem restores_words {cfg : Cfg} {m : Message} {mem : Memory} {n off : Nat} {table : List Word}
    (htable : table = tabulate n off 1 mem.readWord)
    (hwritten : ∀ i < n, (mem.writeWords 0 (messageWords cfg m)).readWord (off + i) = table.getD i default) :
    Restores cfg m mem off (off + n) := by
  intro i hi hi'
  obtain ⟨j, rfl⟩ := Nat.exists_eq_add_of_le hi
  have hj : j < n := by omega
  rw [hwritten j hj, htable, tabulate_getD n off 1 _ default hj, Nat.one_mul]

section Sections
variable {cfg : Cfg} {m : Message} {mem : Memory} (hwf : mem.wf = true)
include hwf

/-- A table that was read at `off` and is written there, each element packed into the words it was read from. -/
theorem restores_table {α : Type} [Inhabited α] {f : α → List Word} {k n off : Nat} (hf : ∀ x, (f x).length = k)
    (hk : 0 < k) {read : Nat → α} {table : List α} (htable : table = tabulate n off k read)
    (hsection : ∃ pre post, messageWords cfg m = pre ++ (entries table n).flatMap f ++ post ∧ pre.length = off)
    (hread : ∀ p, ∀ r < k, (f (read p))[r]? = some (mem.readWord (p + r))) :
    Restores cfg m mem off (off + k * n) := by
  intro i hi hi'
  obtain ⟨q, r, rfl, hq, hr⟩ := section_position hi hi' hk
  refine written_element hf hsection hwf hq hr ?_
  rw [htable, tabulate_getD n off k read default hq]
  exact hread _ r hr

theorem restores_mapAlias {n off : Nat} {table : List MapAlias}
    (htable : table = tabulate n off 3 fun p =>
      unpackMapAlias (mem.readWord p) (mem.readWord (p + 1)) (mem.readWord (p + 2)))
    (hsection : ∃ pre post, messageWords cfg m = pre ++ (entries table n).flatMap mapAliasList ++ post
      ∧ pre.length = off) : Restores cfg m mem off (off + 3 * n) := by
  refine restores_table hwf mapAliasList_length (by decide) htable hsection fun p r hr => ?_
  rw [mapAliasList_unpack]
  interval_cases r <;> rfl

end Sections

/-! ## The message that was read from the buffer -/

theorem messageOffsets_handles {m : Message} (h : m.hdr.hasSpecialHeader = true) (cfg : Cfg) :
    (messageOffsets cfg m).offMove = (messageOffsets cfg m).offCopy + m.sph.numCopyHandles
    ∧ (messageOffsets cfg m).offInptr = (messageOffsets cfg m).offMove + m.sph.numMoveHandles := by
  obtain ⟨-, hmove, hinptr⟩ := offsets_special cfg m.hdr.toCounts m.sph
  rw [if_pos h] at hmove hinptr
  exact ⟨hmove, hinptr⟩

theorem messageOffsets_noHandles {m : Message} (h : m.hdr.hasSpecialHeader = false) {cfg : Cfg} :
    (messageOffsets cfg m).offInptr = (messageOffsets cfg m).offCopy := by
  obtain ⟨-, hmove, hinptr⟩ := offsets_special cfg m.hdr.toCounts m.sph
  have habsent : ¬ m.hdr.hasSpecialHeader = true := Bool.eq_false_iff.1 h
  rw [if_neg habsent] at hmove hinptr
  exact hinptr.trans hmove

/-- The message is what MSG.DEC reads at the offsets of the message's own record. -/
structure ReadFrom (cfg : Cfg) (mem : Memory) (m : Message) : Prop where
  tables : m = decodedMessage mem m.hdr m.sph (messageOffsets cfg m)
  hdr : m.hdr = unpackHdr (mem.readWord 0) (mem.readWord 1)
  special : SpecialFields cfg mem m.hdr.hasSpecialHeader m.sph

/-- Everything that the OK response of a MSG.DEC says. -/
theorem msgDec_ok {s t : State} {cap : Nat} {m : Message} {pid : Word} {total : Nat}
    (h : exec (.msgDec s.cfg.rev cap) s = .next t) (hr : t.rsp = some ⟨.ok, .msgDec m pid total⟩) :
    ReadFrom s.cfg s.mem m ∧ total = (messageOffsets s.cfg m).total ∧ total ≤ cap := by
  obtain ⟨hdr, sph, hhdr, hs, ht, hres⟩ := decodeMessage_ok (msgDec_ok_walk h hr)
  cases hres
  exact ⟨⟨rfl, hhdr, hs⟩, rfl, ht⟩

section Read
variable {cfg : Cfg} {m : Message} {mem : Memory} (hread : ReadFrom cfg mem m)
include hread

theorem ReadFrom.unpackedSph (h : m.hdr.hasSpecialHeader = true) : unpackSph cfg (mem.readWord 2) = .ok m.sph := by
  have hs := hread.special
  rw [h] at hs
  exact hs

theorem ReadFrom.noSph (h : m.hdr.hasSpecialHeader = false) : m.sph = {} := by
  have hs := hread.special
  rw [h] at hs
  exact hs

theorem ReadFrom.fits : MessageFits cfg m := by
  have hhdr : m.hdr.Fits := hread.hdr ▸ unpackHdr_fits _ _
  have hfits := decodedMessage_fits hhdr hread.special
  rwa [show offsets cfg m.hdr.toCounts m.sph = messageOffsets cfg m from rfl, ← hread.tables] at hfits

theorem ReadFrom.inptr_eq :
    m.inptr = tabulate m.hdr.countA (messageOffsets cfg m).offInptr 2 fun p =>
      unpackInPtr (mem.readWord p) (mem.readWord (p + 1)) := congrArg Message.inptr hread.tables

theorem ReadFrom.outptr_eq :
    m.outptr = tabulate (outCnt cfg m.hdr.mode) (messageOffsets cfg m).offOutptr 2 fun p =>
      unpackOutPtr (mem.readWord p) (mem.readWord (p + 1)) := congrArg Message.outptr hread.tables

variable (hwf : mem.wf = true)
include hwf

theorem ReadFrom.restores_handles :
    Restores cfg m mem (messageOffsets cfg m).offCopy (messageOffsets cfg m).offInptr := by
  obtain ⟨hcopy, hmove⟩ := decodedSpecial_handles cfg mem (c := m.hdr.toCounts) hread.noSph
  cases h : m.hdr.hasSpecialHeader with
  | false =>
    rw [messageOffsets_noHandles h]
    exact restores_nil cfg m mem _
  | true =>
    obtain ⟨hoffMove, hoffInptr⟩ := messageOffsets_handles h cfg
    have hcopies : Restores cfg m mem (messageOffsets cfg m).offCopy (messageOffsets cfg m).offMove :=
      hoffMove ▸ restores_words ((congrArg Message.copyHandle hread.tables).trans hcopy)
        fun _ hi => written_copy hwf h hi
    have hmoves : Restores cfg m mem (messageOffsets cfg m).offMove (messageOffsets cfg m).offInptr :=
      hoffInptr ▸ restores_words ((congrArg Message.moveHandle hread.tables).trans hmove)
        fun _ hi => written_move hwf h hi
    exact hcopies.trans hmoves

theorem ReadFrom.restores_inptr :
    Restores cfg m mem (messageOffsets cfg m).offInptr (messageOffsets cfg m).offInmap := by
  refine restores_table hwf inPtrList_length (by decide) hread.inptr_eq
    (messageWords_inptr cfg m) fun p r hr => ?_
  rw [inPtrList_unpack]
  interval_cases r <;> rfl

theorem ReadFrom.restores_maps :
    Restores cfg m mem (messageOffsets cfg m).offInmap (messageOffsets cfg m).offPrepad := by
  have hin := restores_mapAlias hwf (congrArg Message.inmap hread.tables) (messageWords_inmap cfg m)
  have hout := restores_mapAlias hwf (congrArg Message.outmap hread.tables) (messageWords_outmap cfg m)
  have hinout := restores_mapAlias hwf (congrArg Message.inoutmap hread.tables) (messageWords_inoutmap cfg m)
  have hend : (messageOffsets cfg m).offPrepad = (messageOffsets cfg m).offInoutmap + 3 * m.hdr.countD :=
    offsets_prepad cfg m.hdr.toCounts m.sph
  rw [hend]
  exact (hin.trans hout).trans hinout

theorem ReadFrom.restores_data :
    Restores cfg m mem (messageOffsets cfg m).offData (messageOffsets cfg m).offPostpad :=
  restores_words (congrArg Message.data hread.tables) fun _ hi => written_data hwf hi

theorem ReadFrom.restores_outptr :
    Restores cfg m mem (messageOffsets cfg m).offOutptr (messageOffsets cfg m).total := by
  refine restores_table hwf outPtrList_length (by decide) hread.outptr_eq
    (messageWords_outptr cfg m) fun p r hr => ?_
  rw [outPtrList_unpack]
  interval_cases r <;> rfl

end Read

/-- Settles O28: a message read from the buffer fits (`ReadFrom.fits`), so it is encoded; each section is written back
(`ReadFrom.restores_…`), and the header words lose the bits of no field (`packed_unpackHdr`, `packed_unpackSph`). -/
theorem encodingADecodedMessageIsCanonical : Obligations.EncodingADecodedMessageIsCanonical := by
  intro s t cap m pid total hwf hdec hrsp
  obtain ⟨hread, rfl, hcap⟩ := msgDec_ok hdec hrsp
  obtain ⟨hword1, hword2⟩ := written_hdr (cfg := s.cfg) (m := m) hwf
  obtain ⟨hsame1, hsame2⟩ := packed_unpackHdr (s.mem.readWord 0) (s.mem.readWord 1)
  rw [← hread.hdr] at hsame1 hsame2
  refine ⟨encoded s m, exec_msgEnc_of_fits hread.fits hcap, encoded_rsp s m, rfl, ?_⟩
  rw [encoded_mem, hword1, hword2]
  refine ⟨hsame1, hsame2, fun h => ⟨?sph, fun hp => written_pid hwf h hp⟩,
    (hread.restores_handles hwf).trans ((hread.restores_inptr hwf).trans (hread.restores_maps hwf)), ?prepad,
    hread.restores_data hwf, ?postpad, hread.restores_outptr hwf⟩
  case sph => rw [written_sph hwf h, packed_unpackSph (hread.unpackedSph h)]
  case prepad => exact fun i hi hi' => written_padding (messageWords_prepad s.cfg m) hwf hi hi'
  case postpad => exact fun i hi hi' => written_padding (messageWords_postpad s.cfg m) hwf hi hi'

end Sys2Proof.Machine
end
